-- ==== Sys2Proof/Word.lean ====
section
/-! DEFINITION. The widths HCT moves data in (R8, R9, R10, R11, R13), and nothing else. -/

namespace Sys2Proof

/-- A command word and a host read word: CMDW = 32 bits (R13). -/
abbrev Word := BitVec 32

/-- A symbol value, a count of codes, or a byte of the decoder's input: SYMW = 8 bits (R8). -/
abbrev Byte := BitVec 8

/-- A block element: COEFW = 16 bits, unsigned (R11). -/
abbrev Elem := BitVec 16

/-- A word address of the host read space: 10 bits (R13, R61). -/
abbrev ReadAddr := BitVec 10

/-- A Huffman table slot, NSLOT_H = 8 of them, t = 4·class + index (R9). -/
abbrev Slot := Fin 8

/-- A quantization block slot, NSLOT_Q = 4 of them (R10). -/
abbrev QSlot := Fin 4

end Sys2Proof
end

