-- ==== Sys2Proof/Config.lean ====
section
/-! DEFINITION. What is fixed for one HCT (R12, R47, R50), and the free values behind the reads the
spec leaves unspecified (R48, R68; 93_implementation_defined.md I1 and I2). -/

namespace Sys2Proof

/-- The named parameter of an HCT: BITCAP, the capacity of the decoder's bit buffer in bits.
`legal` is R12's range: "a multiple of 8 with 16 ≤ BITCAP ≤ 65528". -/
structure Config where
  bitcap : Nat
  legal  : bitcap % 8 = 0 ∧ 16 ≤ bitcap ∧ bitcap ≤ 65528
  deriving DecidableEq, Repr

/-- The parameters of the hardware named `HCT-1` (R3): BITCAP at its default, 256 (R12). -/
def Config.hct1 : Config := ⟨256, by decide⟩

/-- What the ID register reads: the letters "HCT" and command-set edition 1 (R47). -/
def Config.idWord : Word := 0x48435401#32

/-- What the PARAM register reads: BITCAP in bits 15:0 and 0 above (R47). -/
def Config.paramWord (c : Config) : Word := 0#16 ++ BitVec.ofNat 16 c.bitcap

/-- FREE VALUE (notes/assumptions/2.md): the byte an unspecified SYMBUF entry reads as. It is drawn
afresh for each command index, each host read and each address, and nothing is known of it. -/
opaque Config.freeByte (ci draws : Nat) (a : ReadAddr) : Byte

/-- FREE VALUE (notes/assumptions/2.md): the element an unspecified ZIN or QBLK entry reads as,
drawn as `Config.freeByte` is. -/
opaque Config.freeElem (ci draws : Nat) (a : ReadAddr) : Elem

end Sys2Proof
end

