-- ==== Sys2Proof/Syntax.lean ====
section
/-! DEFINITION. The command set: one constructor per row of spec/opcode_table.json (R86). An operand
has exactly the values its encoded field has (R81, R82), so no constructor can hold an operand out
of range. -/

namespace Sys2Proof

/-- The thirteen commands of R86, in the order of their opcodes. -/
inductive Instr where
  /-- HCLR (R101). -/
  | hclr
  /-- HCNT L, n (R102), with l4 = L − 1 (R83). -/
  | hcnt (l4 : Fin 16) (n : Byte)
  /-- HSYM v (R103). -/
  | hsym (v : Byte)
  /-- HBUILD t (R112). -/
  | hbuild (t : Slot)
  /-- DSEL t (R131). -/
  | dsel (t : Slot)
  /-- DRST F (R132). -/
  | drst (f : Bool)
  /-- DBYTE b (R133). -/
  | dbyte (b : Byte)
  /-- DDEC n (R135). -/
  | ddec (n : Byte)
  /-- ZCLR (R162). -/
  | zclr
  /-- ZPUSH v (R163). -/
  | zpush (v : Elem)
  /-- ZRUN q (R164). -/
  | zrun (q : QSlot)
  /-- ZMAP k (R165). -/
  | zmap (k : Fin 64)
  /-- ECLR (R180). -/
  | eclr
  deriving DecidableEq, Repr

end Sys2Proof
end

