-- ==== Sys2Proof/Machine/State.lean ====
section
/-! DEFINITION. The state of HCT (10_state.md), its value at reset (R240), and the reasons a step can
stop. -/

namespace Sys2Proof.Machine

/-- A Huffman decode tree (R17): "implement as a sum type {Interior(left, right), Leaf(symbol), Empty}".
The first child is selected by bit 0 and the second by bit 1 (90_conflicts.md C5). -/
inductive Node where
  | interior (c0 c1 : Node)
  | leaf (sym : Byte)
  /-- A child slot that does not exist. -/
  | empty
  deriving DecidableEq, Repr

/-- The error codes HCT can raise: the rows of R202's table. "All other codes are reserved, and HCT
never produces them." -/
inductive ErrCode where
  | totalGt256
  | symCountMismatch
  | symbufOverflow
  | zzShort
  | zzOverflow
  | noSlot
  | incompleteTree
  | decodeOnLeaf
  | noTable
  | passDead
  | cursorInvalidated
  | illegalCmd
  | bitbufOverflow
  deriving DecidableEq, Repr

/-- An event of the output stream (R49). -/
inductive Event where
  /-- `Sym(t, v)`: slot t emitted symbol v. -/
  | sym (t : Slot) (v : Byte)
  /-- `Err(code, info)`. -/
  | err (code : ErrCode) (info : Word)
  deriving DecidableEq, Repr

/-- The reasons a step can stop the model with a fault. HCT itself has none: its errors are recorded
and "execution then goes on with the next command" (R200). Both constructors stand where the spec's
own pseudocode has no value, in states no run from reset reaches (R31, R141), so both are safe
(DESIGN CHOICE, notes/assumptions/9.md). -/
inductive Fault where
  /-- Raised by DDEC when `walk(root of TREE[DSLOT], CPATH/CDEPTH)` has no value or is `Empty`: R17
  defines walk "only while every node passed is an `Interior`". Safe: R31 rules such states out. -/
  | walkUndefined
  /-- Raised by DDEC when the walk would go on from depth 15 to an `Interior` child, so that CDEPTH, a
  4-bit register (R30), could not hold the new depth. Safe: no stored tree has an `Interior` node
  below depth 15 (R113(e)). -/
  | cursorOverflow
  deriving DecidableEq, Repr

/-- The reasons a step can be refused. -/
inductive Refusal where
  /-- Answered by `exec`'s arm of a command that has no meaning yet. Safe. No arm of this model uses it. -/
  | notModelled (mnemonic : String)
  deriving DecidableEq, Repr

/-- Everything the spec gives the machine. SUMCNT (R23), TVALID (R27) and BITCNT (R33, the length of
`bitbuf`) are derived, so they have no field of their own. -/
structure State where
  /-- The parameter BITCAP. No command changes it (R50; DESIGN CHOICE, notes/assumptions/1.md). -/
  cfg : Config
  /-- The program: the command words the host delivers on the command port, in order (R21, R60;
  DEDUCED, notes/assumptions/4.md). -/
  prog : List Word
  /-- The command index CI (R21). -/
  ci : Nat
  /-- The bytes of a command word that has only partly arrived on a byte-wide link (R65, R66;
  DESIGN CHOICE, notes/assumptions/5.md). -/
  link : List Byte
  /-- HCOUNT[0..15] (R22). -/
  hcount : Vector Byte 16
  /-- SYMBUF[0..255] (R24). -/
  symbuf : Vector Byte 256
  /-- SYMCNT, 0 to 256 (R25). -/
  symcnt : Fin 257
  /-- HPOISON (R26). -/
  hpoison : Bool
  /-- TREE[0..7]; `none` is an empty slot (R27). -/
  tree : Vector (Option Node) 8
  /-- DBOUND (R29). -/
  dbound : Bool
  /-- DSLOT (R29). -/
  dslot : Slot
  /-- CDEPTH, 0 to 15 (R30). -/
  cdepth : Fin 16
  /-- CPATH (R30). -/
  cpath : BitVec 16
  /-- DDEAD (R32). -/
  ddead : Bool
  /-- BITBUF, head first (R33). -/
  bitbuf : List Bool
  /-- SYMOUT (R34). -/
  symout : Byte
  /-- SYMV (R34). -/
  symv : Bool
  /-- NEMIT, a number that fits 16 bits in every reachable state (R12, R15, R35; DESIGN CHOICE,
  notes/assumptions/11.md). -/
  nemit : Nat
  /-- DSTARVED (R35). -/
  dstarved : Bool
  /-- ZIN[0..63] (R36). -/
  zin : Vector Elem 64
  /-- ZCNT, 0 to 64 (R37). -/
  zcnt : Fin 65
  /-- ZPOISON (R38). -/
  zpoison : Bool
  /-- QBLK[0..3][0..63] (R39). -/
  qblk : Vector (Vector Elem 64) 4
  /-- QVALID[0..3] (R39). -/
  qvalid : Vector Bool 4
  /-- ZRES, the natural index 8·row + col (R40). -/
  zres : Fin 64
  /-- ERR; `none` is the code 0, "none" (R41; DEDUCED, notes/assumptions/12.md). -/
  err : Option ErrCode
  /-- ERRINFO (R41). -/
  errinfo : Word
  /-- OUT, oldest event first (R49). -/
  out : List Event
  /-- THE MODEL'S OWN FIELD (notes/assumptions/2.md): the number of host reads serviced, which picks
  the free values of unspecified reads. -/
  draws : Nat
  deriving DecidableEq, Repr

/-- The reset values of R240 for an HCT of the given parameters. SYMBUF, ZIN and QBLK are unspecified
at reset; the zeros here are a DESIGN CHOICE that no command and no host read can see
(notes/assumptions/3.md). -/
def State.resetAt (c : Config) : State where
  cfg := c
  prog := []
  ci := 0
  link := []
  hcount := Vector.replicate 16 0#8
  symbuf := Vector.replicate 256 0#8
  symcnt := 0
  hpoison := false
  tree := Vector.replicate 8 none
  dbound := false
  dslot := 0
  cdepth := 0
  cpath := 0#16
  ddead := false
  bitbuf := []
  symout := 0#8
  symv := false
  nemit := 0
  dstarved := false
  zin := Vector.replicate 64 0#16
  zcnt := 0
  zpoison := false
  qblk := Vector.replicate 4 (Vector.replicate 64 0#16)
  qvalid := Vector.replicate 4 false
  zres := 0
  err := none
  errinfo := 0#32
  out := []
  draws := 0

/-- HCT-1 right after reset (R3, R240). -/
def State.reset : State := State.resetAt Config.hct1

end Sys2Proof.Machine
end

