-- ==== Sys2Proof/Machine/Operands.lean ====
section
/-! DEFINITION. How operands and bit strings are read (R15, R18, R82 to R85, R64). -/

namespace Sys2Proof.Machine

/-- The code length L = l4 + 1 an HCNT names (R83). -/
def codeLength (l4 : Fin 16) : Nat := l4.val + 1

/-- The class of a slot, t3[2]: false is DC, true is AC (R84). -/
def slotClass (t : Slot) : Bool := decide (4 ≤ t.val)

/-- The table index of a slot, t3[1:0] (R84). -/
def slotIndex (t : Slot) : Nat := t.val % 4

/-- The slot operand the host forms from a DHT class/id byte h, t3 = {h[4], h[1:0]}. The host "must
refuse a DHT byte with h[3:2] ≠ 0 or h[7:5] ≠ 0 before it reaches HCT" (R84). -/
def slotOfDht (h : Byte) : Option Slot :=
  if h.extractLsb' 2 2 = 0#2 ∧ h.extractLsb' 5 3 = 0#3 then
    some (BitVec.toFin (w := 3) (h.extractLsb' 4 1 ++ h.extractLsb' 0 2))
  else none

/-- The budget of a DDEC is reached: "n ≥ 1 means 'decode until n symbols have been emitted'", and
n = 0 never is (R85, R135). -/
def budgetReached (n nemit : Nat) : Bool := n != 0 && nemit == n

/-- The bits of a byte in the order b[7], b[6], …, b[0] (R64). -/
def byteBits (b : Byte) : List Bool :=
  [b.getLsbD 7, b.getLsbD 6, b.getLsbD 5, b.getLsbD 4, b.getLsbD 3, b.getLsbD 2, b.getLsbD 1,
    b.getLsbD 0]

/-- The bit string of length `d` whose number is `path`, first bit most significant (R18). -/
def pathBits (path : Nat) : Nat → List Bool
  | 0 => []
  | d + 1 => path.testBit d :: pathBits path d

/-- The number of a bit string, first bit most significant (R18). -/
def pathNumber (bits : List Bool) : Nat := bits.foldl (fun path b => 2 * path + b.toNat) 0

/-- CPATH with one bit appended: 2·CPATH + b (R18, R134). -/
def extendPath (path : BitVec 16) (b : Bool) : BitVec 16 := BitVec.ofNat 16 (2 * path.toNat + b.toNat)

end Sys2Proof.Machine
end

