-- ==== Sys2Proof/Machine/Flags.lean ====
section
/-! DEFINITION. Values computed from the state rather than stored (R23, R27, R33), error numbers
(R202), the information word of each error (R203), and the status words the host reads (R42 to R46). -/

namespace Sys2Proof.Machine

/-- SUMCNT = HCOUNT[0] + … + HCOUNT[15] (R23). -/
def sumCounts (hcount : Vector Byte 16) : Nat := (hcount.toList.map BitVec.toNat).sum

/-- SUMCNT of a state (R23). -/
def sumcnt (s : State) : Nat := sumCounts s.hcount

/-- BITCNT, the length of BITBUF (R33). -/
def bitcnt (s : State) : Nat := s.bitbuf.length

/-- TVALID[t] is 1 exactly when TREE[t] ≠ none (R27). -/
def tvalid (s : State) (t : Slot) : Bool := s.tree[t].isSome

/-- The number of an error code (R202). -/
def ErrCode.toByte : ErrCode → Byte
  | .totalGt256 => 0x11#8
  | .symCountMismatch => 0x12#8
  | .symbufOverflow => 0x13#8
  | .zzShort => 0x14#8
  | .zzOverflow => 0x15#8
  | .noSlot => 0x21#8
  | .incompleteTree => 0x31#8
  | .decodeOnLeaf => 0x32#8
  | .noTable => 0x33#8
  | .passDead => 0x34#8
  | .cursorInvalidated => 0x35#8
  | .illegalCmd => 0x41#8
  | .bitbufOverflow => 0x42#8

/-- ERR as a byte; 0 means none (R41). -/
def errByte (s : State) : Byte :=
  match s.err with
  | none => 0#8
  | some c => c.toByte

/-! ### Information words (R203): bits not named are 0, a TARGET is in bits 31:24 -/

/-- TOTAL_GT_256: t; bit 12 = HPOISON; 11:0 = SUMCNT. -/
def infoTotal (t : Slot) (hpoison : Bool) (sum : Nat) : Word :=
  BitVec.ofNat 8 t.val ++ 0#11 ++ BitVec.ofBool hpoison ++ BitVec.ofNat 12 sum

/-- SYM_COUNT_MISMATCH: t; 23:12 = SUMCNT; 8:0 = SYMCNT. -/
def infoMismatch (t : Slot) (sum : Nat) (sym : Fin 257) : Word :=
  BitVec.ofNat 8 t.val ++ BitVec.ofNat 12 sum ++ 0#3 ++ BitVec.ofNat 9 sym.val

/-- SYMBUF_OVERFLOW: 7:0 = the dropped symbol. -/
def infoSymbuf (v : Byte) : Word := 0#24 ++ v

/-- ZZ_SHORT: q; 6:0 = ZCNT. -/
def infoShort (q : QSlot) (zcnt : Fin 65) : Word :=
  BitVec.ofNat 8 q.val ++ 0#17 ++ BitVec.ofNat 7 zcnt.val

/-- ZZ_OVERFLOW from ZPUSH: 15:0 = the dropped value, 16 = 0. -/
def infoPush (v : Elem) : Word := 0#16 ++ v

/-- ZZ_OVERFLOW from ZRUN: q; 16 = 1. -/
def infoRun (q : QSlot) : Word := BitVec.ofNat 8 q.val ++ 0#7 ++ 1#1 ++ 0#16

/-- NO_SLOT: t; 19:16 = L − 1; 15:8 = k; 7:0 = SYMBUF[k]. -/
def infoNoSlot (t : Slot) (len k : Nat) (sym : Byte) : Word :=
  BitVec.ofNat 8 t.val ++ 0#4 ++ BitVec.ofNat 4 (len - 1) ++ BitVec.ofNat 8 k ++ sym

/-- INCOMPLETE_TREE: DSLOT; 20:16 = failing depth; 15:0 = failing path. -/
def infoIncomplete (t : Slot) (depth : Nat) (path : BitVec 16) : Word :=
  BitVec.ofNat 8 t.val ++ 0#3 ++ BitVec.ofNat 5 depth ++ path

/-- DECODE_ON_LEAF (TARGET DSLOT) and CURSOR_INVALIDATED (TARGET t): 19:16 = CDEPTH; 15:0 = CPATH. -/
def infoCursor (t : Slot) (depth : Fin 16) (path : BitVec 16) : Word :=
  BitVec.ofNat 8 t.val ++ 0#4 ++ BitVec.ofNat 4 depth.val ++ path

/-- NO_TABLE: DSLOT; bit 0 = DBOUND. -/
def infoNoTable (t : Slot) (bound : Bool) : Word :=
  BitVec.ofNat 8 t.val ++ 0#23 ++ BitVec.ofBool bound

/-- PASS_DEAD: DSLOT. -/
def infoDead (t : Slot) : Word := BitVec.ofNat 8 t.val ++ 0#24

/-- ILLEGAL_CMD: 31:0 = the illegal command word. -/
def infoIllegal (w : Word) : Word := w

/-- BITBUF_OVERFLOW: 23:8 = BITCNT; 7:0 = the dropped byte. -/
def infoBitbuf (count : Nat) (b : Byte) : Word := 0#8 ++ BitVec.ofNat 16 count ++ b

/-! ### Words of the host-readable registers (R42 to R46) -/

/-- STATUS (R42). -/
def statusWord (s : State) : Word :=
  0#19 ++ BitVec.ofBool s.zpoison ++ BitVec.ofBool s.hpoison ++ BitVec.ofBool s.symv ++
    BitVec.ofBool s.dstarved ++ BitVec.ofBool s.ddead ++ errByte s

/-- SYMOUT: 7:0 SYMOUT, 31:16 NEMIT (R44). -/
def symoutWord (s : State) : Word := BitVec.ofNat 16 s.nemit ++ 0#8 ++ s.symout

/-- DCUR: 2:0 DSLOT, 3 DBOUND, 11:8 CDEPTH, 31:16 CPATH (R45). -/
def dcurWord (s : State) : Word :=
  s.cpath ++ 0#4 ++ BitVec.ofNat 4 s.cdepth.val ++ 0#4 ++ BitVec.ofBool s.dbound ++
    BitVec.ofNat 3 s.dslot.val

/-- BITCNT, bits 15:0 (R46). -/
def bitcntWord (s : State) : Word := 0#16 ++ BitVec.ofNat 16 (bitcnt s)

/-- TVALID: bit t is TVALID[t] (R46). -/
def tvalidWord (s : State) : Word :=
  0#24 ++ BitVec.ofBool (tvalid s 7) ++ BitVec.ofBool (tvalid s 6) ++ BitVec.ofBool (tvalid s 5) ++
    BitVec.ofBool (tvalid s 4) ++ BitVec.ofBool (tvalid s 3) ++ BitVec.ofBool (tvalid s 2) ++
    BitVec.ofBool (tvalid s 1) ++ BitVec.ofBool (tvalid s 0)

/-- HSTAT: 8:0 SYMCNT, 27:16 SUMCNT (R46). -/
def hstatWord (s : State) : Word :=
  0#4 ++ BitVec.ofNat 12 (sumcnt s) ++ 0#7 ++ BitVec.ofNat 9 s.symcnt.val

/-- ZSTAT: 6:0 ZCNT, bit 8+q QVALID[q] (R46). -/
def zstatWord (s : State) : Word :=
  0#20 ++ BitVec.ofBool s.qvalid[3] ++ BitVec.ofBool s.qvalid[2] ++ BitVec.ofBool s.qvalid[1] ++
    BitVec.ofBool s.qvalid[0] ++ 0#1 ++ BitVec.ofNat 7 s.zcnt.val

/-- ZRES, bits 5:0 (R46). -/
def zresWord (s : State) : Word := 0#26 ++ BitVec.ofNat 6 s.zres.val

end Sys2Proof.Machine
end

