-- ==== Sys2Proof/Machine/Ops.lean ====
section
/-! DEFINITION. The named operations over the state that the commands share. Taking an error (R205) is
one of them, the clearing of its record (R180, R210) beside it: HCT has no trap to enter and none to
return from (R200, R209, R210). -/

namespace Sys2Proof.Machine

/-- What a meaning answers. -/
abbrev Result := Host.Outcome State Fault Refusal

/-! ### The error record -/

/-- `raise Err(code, info)`: "append Err(code, info) to OUT", and write ERR and ERRINFO if ERR = 0
(R205). It does not stop the command. -/
def raise (code : ErrCode) (info : Word) (s : State) : State :=
  { s with
    out := s.out ++ [.err code info]
    err := if s.err = none then some code else s.err
    errinfo := if s.err = none then info else s.errinfo }

/-- Clear the error record, so that "the next error is recorded afresh" (R180, R210). -/
def clearRecord (s : State) : State := { s with err := none, errinfo := 0#32 }

/-! ### The command index -/

/-- Complete a command: CI advances by exactly 1 (R21; DEDUCED, notes/assumptions/6.md). -/
def advance (s : State) : State := { s with ci := s.ci + 1 }

/-- A command that completes with `s`: its effects, and CI advanced. -/
def complete (s : State) : Result := .next (advance s)

/-- Complete a command whose effects may have stopped on a fault. -/
def completeWith : Result → Result
  | .next s => .next (advance s)
  | .fault r => .fault r
  | .refused r => .refused r

/-! ### Huffman staging (R22 to R26) -/

/-- HCOUNT[i] <- n. -/
def setCount (i : Fin 16) (n : Byte) (s : State) : State := { s with hcount := s.hcount.set i n }

/-- SYMBUF[SYMCNT] <- v and SYMCNT <- SYMCNT + 1, where SYMCNT < 256. -/
def pushSymbol (v : Byte) (s : State) (h : s.symcnt.val < 256) : State :=
  { s with symbuf := s.symbuf.set s.symcnt.val v, symcnt := ⟨s.symcnt.val + 1, by omega⟩ }

/-- Discard the staged table: HCOUNT, SYMCNT and HPOISON become 0. SYMBUF is not written (R101, R112
step 4). -/
def clearStaging (s : State) : State :=
  { s with hcount := Vector.replicate 16 0#8, symcnt := 0, hpoison := false }

/-! ### Table slots (R27) -/

/-- TREE[t] <- r. -/
def storeTree (t : Slot) (r : Option Node) (s : State) : State := { s with tree := s.tree.set t r }

/-! ### The decoder's cursor and bit buffer (R29 to R35) -/

/-- (CDEPTH, CPATH) <- (0, 0): the cursor stands at the root (R30). -/
def cursorToRoot (s : State) : State := { s with cdepth := 0, cpath := 0#16 }

/-- Kill the decode pass: DDEAD <- 1 (R32). -/
def killPass (s : State) : State := { s with ddead := true }

/-- Start a decode pass afresh: cursor at the root, DDEAD and DSTARVED 0 (R131, R132). -/
def restartPass (s : State) : State := { cursorToRoot s with ddead := false, dstarved := false }

/-- Append the 8 bits of a byte to the tail of BITBUF, most significant first (R64, R133). -/
def appendByte (b : Byte) (s : State) : State := { s with bitbuf := s.bitbuf ++ byteBits b }

/-- Emit the symbol of a leaf: the `Sym(DSLOT, v)` event, SYMOUT, SYMV and NEMIT, and the cursor back
at the root (R134, R138). -/
def emitSymbol (v : Byte) (s : State) : State :=
  cursorToRoot
    { s with
      symout := v
      symv := true
      nemit := s.nemit + 1
      out := s.out ++ [.sym s.dslot v] }

/-- The tree the cursor is bound to: none if DBOUND = 0 or TREE[DSLOT] = none (R135). -/
def boundTree (s : State) : Option Node := if s.dbound then s.tree[s.dslot] else none

/-! ### Zig-zag staging and block slots (R36 to R39) -/

/-- ZIN[ZCNT] <- v and ZCNT <- ZCNT + 1, where ZCNT < 64. -/
def pushValue (v : Elem) (s : State) (h : s.zcnt.val < 64) : State :=
  { s with zin := s.zin.set s.zcnt.val v, zcnt := ⟨s.zcnt.val + 1, by omega⟩ }

/-- Discard the flat input: ZCNT and ZPOISON become 0. ZIN is not written (R162, R164). -/
def clearInput (s : State) : State := { s with zcnt := 0, zpoison := false }

/-- QBLK[q] <- block and QVALID[q] <- 1. -/
def storeBlock (q : QSlot) (block : Vector Elem 64) (s : State) : State :=
  { s with qblk := s.qblk.set q block, qvalid := s.qvalid.set q true }

/-- QVALID[q] <- 0. -/
def invalidateBlock (q : QSlot) (s : State) : State := { s with qvalid := s.qvalid.set q false }

end Sys2Proof.Machine
end

