-- ==== Sys2Proof/Machine/Tree.lean ====
section
/-! DEFINITION. Decode trees: the walk (R17), the placement of a symbol (R110), the construction of a
tree from the staged table (R111), and the counts and shapes R28, R113 and R117 speak of. -/

namespace Sys2Proof.Machine

/-- The number of children that are not `Empty` (R17). -/
def nchildren : Node → Nat
  | .interior a b => (if a = .empty then 0 else 1) + (if b = .empty then 0 else 1)
  | _ => 0

/-- `child(N, b)`: c0 when b = 0 and c1 when b = 1 (R17). Only an `Interior` node has children. -/
def child : Node → Bool → Node
  | .interior a b, i => if i then b else a
  | _, _ => .empty

/-- `child(N, i) <- C` (R110). -/
def setChild : Node → Bool → Node → Node
  | .interior a b, i, c => if i then .interior a c else .interior c b
  | N, _, _ => N

/-- `Interior(Empty, Empty)`. -/
def freshInterior : Node := .interior .empty .empty

/-- `walk(N, p)` follows the children p selects. It is defined only while every node passed is an
`Interior` (R17). -/
def walk : Node → List Bool → Option Node
  | N, [] => some N
  | .interior a b, i :: p => walk (if i then b else a) p
  | _, _ :: _ => none

/-- One turn of R110's loop: create child i if it is the first that does not exist, then try to place
below it with `rec`. Answers whether the symbol was placed, and the node as it then stands. -/
def placeBelow (rec : Node → Bool × Node) (N : Node) (i : Bool) : Bool × Node :=
  let N := if nchildren N = i.toNat then setChild N i freshInterior else N
  let r := rec (child N i)
  (r.1, setChild N i r.2)

/-- `place(N, sym, pos)`: put Leaf(sym) at depth pos + 1 below N, child 0 before child 1 (R110). The
node is returned as the search leaves it, because "a node created by the search stays in the tree
even when the search then returns false". -/
def place (sym : Byte) : Nat → Node → Bool × Node
  | 0, .interior a b =>
      let N := Node.interior a b
      if nchildren N < 2 then (true, setChild N (nchildren N == 1) (.leaf sym)) else (false, N)
  | pos + 1, .interior a b =>
      let r0 := placeBelow (place sym pos) (.interior a b) false
      if r0.1 then r0 else placeBelow (place sym pos) r0.2 true
  | _, N => (false, N)

/-- The code lengths of the staged table, one for each symbol, in increasing order: HCOUNT[L−1] times
L, for L from `first` on (R111). -/
def lengthsFrom : Nat → List Byte → List Nat
  | _, [] => []
  | first, n :: ns => List.replicate n.toNat first ++ lengthsFrom (first + 1) ns

/-- The code lengths of HCOUNT, for L = 1 to 16 (R111). -/
def codeLengths (hcount : Vector Byte 16) : List Nat := lengthsFrom 1 hcount.toList

/-- The staged symbols SYMBUF[0..SYMCNT−1] (R24). -/
def stagedSymbols (s : State) : List Byte := s.symbuf.toList.take s.symcnt.val

/-- What `build()` answers (R111). -/
inductive BuildResult where
  /-- `Fail(k, L)`, with SYMBUF[k]. -/
  | fail (k len : Nat) (sym : Byte)
  /-- `Tree(root)`. -/
  | tree (root : Node)
  deriving DecidableEq, Repr

/-- Place the symbols of a code-length table one after the other, from index k on, and "stop at the
first symbol that finds no slot" (R111). -/
def buildFrom : List (Nat × Byte) → Nat → Node → BuildResult
  | [], _, root => .tree root
  | (len, sym) :: rest, k, root =>
      match place sym (len - 1) root with
      | (true, root') => buildFrom rest (k + 1) root'
      | (false, _) => .fail k len sym

/-- The code-length table: each staged symbol with its length, in list order (R24, R111; DEDUCED,
notes/assumptions/13.md). -/
def codeTable (s : State) : List (Nat × Byte) := (codeLengths s.hcount).zip (stagedSymbols s)

/-- `build()`, which reads HCOUNT and SYMBUF (R111). -/
def build (s : State) : BuildResult := buildFrom (codeTable s) 0 freshInterior

/-! ### Counts, canonical codes and shapes -/

/-- The number of leaves of a tree (R28(e), R113(d)). -/
def leafCount : Node → Nat
  | .interior a b => leafCount a + leafCount b
  | .leaf _ => 1
  | .empty => 0

/-- The number of `Interior` nodes of a tree (R117). -/
def interiorCount : Node → Nat
  | .interior a b => 1 + interiorCount a + interiorCount b
  | _ => 0

/-- The code values C_k of R114's procedure, where `code` is the value for the first code of length
`first`: within a length they count up, and from one length to the next the value doubles. -/
def canonicalFrom : Nat → List Byte → List Nat
  | _, [] => []
  | code, n :: ns =>
      (List.range n.toNat).map (fun j => code + j) ++ canonicalFrom (2 * (code + n.toNat)) ns

/-- The canonical codes C_0, C_1, … of HCOUNT (R114). -/
def canonicalCodes (hcount : Vector Byte 16) : List Nat := canonicalFrom 0 hcount.toList

/-- Σ HCOUNT[L−1]·2^(16−L) over the lengths from `16 − rest.length + 1` on. -/
def kraftFrom : List Byte → Nat
  | [] => 0
  | n :: ns => n.toNat * 2 ^ ns.length + kraftFrom ns

/-- K = Σ_{L=1..16} HCOUNT[L−1]·2^(16−L) (R115). -/
def kraftSum (hcount : Vector Byte 16) : Nat := kraftFrom hcount.toList

/-- Below a non-root node: children fill in order (R17), every `Interior` has a `Leaf` below it
(R28(d)), and no `Interior` stands `room` or more levels further down. -/
def properBelow : Nat → Node → Bool
  | _, .empty => true
  | _, .leaf _ => true
  | 0, .interior _ _ => false
  | room + 1, .interior a b =>
      (a != .empty || b == .empty) && 0 < leafCount (.interior a b) && properBelow room a &&
        properBelow room b

/-- What every tree stored in a slot is (R28, R113): its root is an `Interior` whose children fill in
order, every other `Interior` has a leaf below it and lies at depth 15 or less, and it has at most
256 leaves. -/
def storedTree : Node → Bool
  | .interior a b =>
      (a != .empty || b == .empty) && properBelow 15 a && properBelow 15 b &&
        leafCount (.interior a b) ≤ 256
  | _ => false

end Sys2Proof.Machine
end

