-- ==== Sys2Proof/Machine/Decoder.lean ====
section
/-! DEFINITION. The bitstream decoder's commands (41_huffman_decode.md): DSEL, DRST, DBYTE, DDEC. -/

namespace Sys2Proof.Machine

/-- DSEL t: "bind the decoder cursor to table slot t and put it at the root" (R131). BITBUF is not
touched. -/
def execDsel (t : Slot) (s : State) : Result :=
  complete (restartPass { s with dbound := true, dslot := t })

/-- DRST F: "restart the decoder at the root of its tree, and flush the bit buffer when F = 1" (R132). -/
def execDrst (f : Bool) (s : State) : Result :=
  complete { restartPass s with bitbuf := if f then [] else s.bitbuf }

/-- DBYTE b: "append the 8 bits of byte b to the bit buffer, most significant first"; with fewer than 8
bits of space the byte is dropped whole and BITBUF_OVERFLOW raised (R133). -/
def execDbyte (b : Byte) (s : State) : Result :=
  if s.cfg.bitcap < bitcnt s + 8 then
    complete (raise .bitbufOverflow (infoBitbuf (bitcnt s) b) s)
  else complete (appendByte b s)

/-- What one `dstep()` answers (R134), with the state it leaves. -/
inductive DStep where
  /-- EMITTED. -/
  | emitted (s : State)
  /-- CONTINUE. -/
  | more (s : State)
  /-- STOP. -/
  | stop (s : State)
  /-- The walk has no value (see `Fault`). -/
  | undefinedWalk (r : Fault)
  deriving DecidableEq, Repr

/-- The node the cursor stands on: walk(root of TREE[DSLOT], CPATH/CDEPTH) (R30). -/
def cursorNode (root : Node) (s : State) : Option Node :=
  walk root (pathBits s.cpath.toNat s.cdepth.val)

/-- DECODE_ON_LEAF: no bit consumed, the pass dead (R134). The branch is "unreachable by rule R136"
(DESIGN CHOICE to keep it, notes/assumptions/10.md). -/
def stopOnLeaf (s : State) : State :=
  killPass (raise .decodeOnLeaf (infoCursor s.dslot s.cdepth s.cpath) s)

/-- INCOMPLETE_TREE: the failing path holds the bit b that selected `Empty`; the pass is dead and the
cursor back at the root (R134, R137). -/
def stopIncomplete (b : Bool) (s : State) : State :=
  cursorToRoot (killPass
    (raise .incompleteTree (infoIncomplete s.dslot (s.cdepth.val + 1) (extendPath s.cpath b)) s))

/-- `dstep()` on the tree `root` bound to the cursor, where b is the head of BITBUF and `rest` what
follows it (R134). -/
def dstep (root : Node) (b : Bool) (rest : List Bool) (s : State) : DStep :=
  match cursorNode root s with
  | some (.leaf _) => .stop (stopOnLeaf s)
  | some (.interior c0 c1) =>
      match child (.interior c0 c1) b with
      | .empty => .stop (stopIncomplete b { s with bitbuf := rest })
      | .leaf v => .emitted (emitSymbol v { s with bitbuf := rest })
      | .interior _ _ =>
          if h : s.cdepth.val + 1 < 16 then
            .more { s with bitbuf := rest, cpath := extendPath s.cpath b, cdepth := ⟨s.cdepth.val + 1, h⟩ }
          else .undefinedWalk .cursorOverflow
  | _ => .undefinedWalk .walkUndefined

/-- DSTARVED <- 1: the bits ran out (R135, R139). -/
def starve (s : State) : State := { s with dstarved := true }

/-- The loop of R135 with budget n. `fuel` is BITCNT at entry: each turn that does not stop consumes a
bit (R261), so BITBUF is empty when the fuel is (DEDUCED, notes/assumptions/14.md). -/
def ddecLoop (root : Node) (n : Nat) : Nat → State → Result
  | 0, s => if budgetReached n s.nemit then .next s else .next (starve s)
  | fuel + 1, s =>
      if budgetReached n s.nemit then .next s
      else
        match s.bitbuf with
        | [] => .next (starve s)
        | b :: rest =>
            match dstep root b rest s with
            | .emitted s' => ddecLoop root n fuel s'
            | .more s' => ddecLoop root n fuel s'
            | .stop s' => .next s'
            | .undefinedWalk r => .fault r

/-- What every DDEC does first: NEMIT <- 0 and DSTARVED <- 0 (R135). -/
def beginDecode (s : State) : State := { s with nemit := 0, dstarved := false }

/-- DDEC n: "decode symbols from the bit buffer" (R135). PASS_DEAD is checked before NO_TABLE (R207). -/
def execDdec (n : Byte) (s : State) : Result :=
  if s.ddead then complete (raise .passDead (infoDead s.dslot) (beginDecode s))
  else
    match boundTree s with
    | none => complete (raise .noTable (infoNoTable s.dslot s.dbound) (beginDecode s))
    | some root => completeWith (ddecLoop root n.toNat (bitcnt s) (beginDecode s))

end Sys2Proof.Machine
end

