-- ==== Sys2Proof/Machine/Huffman.lean ====
section
/-! DEFINITION. The Huffman builder's commands (40_huffman_build.md): HCLR, HCNT, HSYM, HBUILD. -/

namespace Sys2Proof.Machine

/-- HCLR: "clear the code-length table" (R101). -/
def execHclr (s : State) : Result := complete (clearStaging s)

/-- HCNT L, n: "set the count of codes of length L" (R102), with l4 = L − 1 (R83). -/
def execHcnt (l4 : Fin 16) (n : Byte) (s : State) : Result := complete (setCount l4 n s)

/-- HSYM v: "append one symbol value to the symbol list"; with 256 symbols staged the symbol is dropped,
the table is poisoned and SYMBUF_OVERFLOW raised (R103). -/
def execHsym (v : Byte) (s : State) : Result :=
  if h : s.symcnt.val < 256 then complete (pushSymbol v s h)
  else complete (raise .symbufOverflow (infoSymbuf v) { s with hpoison := true })

/-- The mid-code rebuild hazard holds for slot t (R112 step 1, R250). -/
def rebuildHazard (t : Slot) (s : State) : Bool := s.dbound && s.dslot == t && decide (0 < s.cdepth.val)

/-- R112 step 1: a rebuild of the bound slot mid-code raises CURSOR_INVALIDATED, kills the pass and
resets the cursor. The information word holds the cursor "both before the reset" (R203). -/
def invalidateCursor (t : Slot) (s : State) : State :=
  if rebuildHazard t s then
    cursorToRoot (killPass (raise .cursorInvalidated (infoCursor t s.cdepth s.cpath) s))
  else s

/-- R112 steps 2 and 3: the structural checks in R207's order, then placement. Answers the tree, or the
error with its information word. -/
def buildOutcome (t : Slot) (s : State) : Except (ErrCode × Word) Node :=
  if s.hpoison = true ∨ 256 < sumcnt s then .error (.totalGt256, infoTotal t s.hpoison (sumcnt s))
  else if s.symcnt.val ≠ sumcnt s then .error (.symCountMismatch, infoMismatch t (sumcnt s) s.symcnt)
  else
    match build s with
    | .fail k len sym => .error (.noSlot, infoNoSlot t len k sym)
    | .tree root => .ok root

/-- R112 steps 2 to 4 up to the discarding of the staged table: the tree into slot t, or the error
raised and the slot emptied. -/
def publish (t : Slot) (s : State) : State :=
  match buildOutcome t s with
  | .ok root => storeTree t (some root) s
  | .error (code, info) => storeTree t none (raise code info s)

/-- HBUILD t: "build a tree from the staged table and store it in slot t" (R112). -/
def execHbuild (t : Slot) (s : State) : Result :=
  complete (clearStaging (publish t (invalidateCursor t s)))

end Sys2Proof.Machine
end

