-- ==== Sys2Proof/Machine/System.lean ====
section
/-! DEFINITION. The system command ECLR and the execution of an illegal word (43_status.md). -/

namespace Sys2Proof.Machine

/-- ECLR: "clear the error record" (R180). -/
def execEclr (s : State) : Result := complete (clearRecord s)

/-- An illegal word: it raises ILLEGAL_CMD with the word itself, changes nothing else, and "the command
index still advances" (R181). -/
def execIllegal (w : Word) (s : State) : Result := complete (raise .illegalCmd (infoIllegal w) s)

end Sys2Proof.Machine
end

