-- ==== Sys2Proof/Machine/ZigZag.lean ====
section
/-! DEFINITION. The zig-zag reorder (42_zigzag.md): the table ZZ, the walk that defines it, and ZCLR,
ZPUSH, ZRUN, ZMAP. -/

namespace Sys2Proof.Machine

/-- The zig-zag table of R160, read row by row. -/
def zzTable : Vector (Fin 64) 64 :=
  (#v[0, 1, 8, 16, 9, 2, 3, 10] : Vector (Fin 64) 8) ++
  (#v[17, 24, 32, 25, 18, 11, 4, 5] : Vector (Fin 64) 8) ++
  (#v[12, 19, 26, 33, 40, 48, 41, 34] : Vector (Fin 64) 8) ++
  (#v[27, 20, 13, 6, 7, 14, 21, 28] : Vector (Fin 64) 8) ++
  (#v[35, 42, 49, 56, 57, 50, 43, 36] : Vector (Fin 64) 8) ++
  (#v[29, 22, 15, 23, 30, 37, 44, 51] : Vector (Fin 64) 8) ++
  (#v[58, 59, 52, 45, 38, 31, 39, 46] : Vector (Fin 64) 8) ++
  (#v[53, 60, 61, 54, 47, 55, 62, 63] : Vector (Fin 64) 8)

/-- ZZ(k), the natural index of zig-zag index k (R160). -/
def zz (k : Fin 64) : Fin 64 := zzTable[k]

/-! ### The walk (R161) -/

/-- The walk's position and direction. -/
structure ZWalk where
  i  : Int
  j  : Int
  di : Int
  dj : Int
  deriving DecidableEq, Repr

/-- (i, j) is inside a rows × cols block. -/
def ZWalk.inside (rows cols : Nat) (p : ZWalk) : Bool :=
  decide (0 ≤ p.i) && decide (p.i < rows) && decide (0 ≤ p.j) && decide (p.j < cols)

/-- The inner loop of R161: append positions while inside the block. A diagonal holds at most
rows + cols positions, which `fuel` counts (DEDUCED, notes/assumptions/19.md). -/
def zigzagDiagonal (rows cols : Nat) : Nat → ZWalk → List (Int × Int) × ZWalk
  | 0, p => ([], p)
  | fuel + 1, p =>
      if p.inside rows cols then
        let r := zigzagDiagonal rows cols fuel { p with i := p.i + p.di, j := p.j + p.dj }
        ((p.i, p.j) :: r.1, r.2)
      else ([], p)

/-- What R161 does after a diagonal: "step back to the last in-bounds position", "flip direction", then
advance the column at the top or bottom row unless at the last column, and otherwise the row
(90_conflicts.md C1). -/
def zigzagTurn (rows cols : Nat) (p : ZWalk) : ZWalk :=
  let i := p.i - p.di
  let j := p.j - p.dj
  if (i = 0 ∨ i = rows - 1) ∧ j < cols - 1 then { i := i, j := j + 1, di := -p.di, dj := -p.dj }
  else { i := i + 1, j := j, di := -p.di, dj := -p.dj }

/-- The outer loop of R161, over a number of diagonals. -/
def zigzagDiagonals (rows cols : Nat) : Nat → ZWalk → List (Int × Int)
  | 0, _ => []
  | m + 1, p =>
      let r := zigzagDiagonal rows cols (rows + cols) p
      r.1 ++ zigzagDiagonals rows cols m (zigzagTurn rows cols r.2)

/-- `zigzag_walk(rows, cols)`: the positions in visit order (R161). -/
def zigzagWalk (rows cols : Nat) : List (Int × Int) :=
  zigzagDiagonals rows cols (rows + cols - 1) { i := 0, j := 0, di := -1, dj := 1 }

/-! ### Commands -/

/-- The block with ZIN[k] at natural index ZZ(k), for k = 0 to 63, over the block as it was (R164). -/
def placeBlock (zin block : Vector Elem 64) : Vector Elem 64 :=
  (zzTable.toList.zip zin.toList).foldl (fun blk p => blk.set p.1 p.2) block

/-- ZCLR: "clear the flat input sequence" (R162). -/
def execZclr (s : State) : Result := complete (clearInput s)

/-- ZPUSH v: "append one 16-bit value to the flat input sequence"; with 64 values loaded the value is
dropped, the input is poisoned and ZZ_OVERFLOW raised (R163). -/
def execZpush (v : Elem) (s : State) : Result :=
  if h : s.zcnt.val < 64 then complete (pushValue v s h)
  else complete (raise .zzOverflow (infoPush v) { s with zpoison := true })

/-- What ZRUN does before it discards the input (R164): ZZ_OVERFLOW is checked before ZZ_SHORT (R207),
and either leaves the block slot invalid. -/
def runBlock (q : QSlot) (s : State) : State :=
  if s.zpoison then invalidateBlock q (raise .zzOverflow (infoRun q) s)
  else if s.zcnt.val < 64 then invalidateBlock q (raise .zzShort (infoShort q s.zcnt) s)
  else storeBlock q (placeBlock s.zin s.qblk[q]) s

/-- ZRUN q: "place the 64 loaded values into block slot q in natural order" (R164). -/
def execZrun (q : QSlot) (s : State) : Result := complete (clearInput (runBlock q s))

/-- ZMAP k: "translate zig-zag index k to its natural address" (R165). -/
def execZmap (k : Fin 64) (s : State) : Result := complete { s with zres := zz k }

end Sys2Proof.Machine
end

