-- ==== Sys2Proof/Machine/Dispatch.lean ====
section
/-! DEFINITION. Which meaning each command has: one arm per constructor of `Instr`. -/

namespace Sys2Proof.Machine

def exec (i : Instr) (s : State) : Host.Outcome State Fault Refusal :=
  match i with
  | .hclr => Sys2Proof.Machine.execHclr s
  | .hcnt l4 n => Sys2Proof.Machine.execHcnt l4 n s
  | .hsym v => Sys2Proof.Machine.execHsym v s
  | .hbuild t => Sys2Proof.Machine.execHbuild t s
  | .dsel t => Sys2Proof.Machine.execDsel t s
  | .drst f => Sys2Proof.Machine.execDrst f s
  | .dbyte b => Sys2Proof.Machine.execDbyte b s
  | .ddec n => Sys2Proof.Machine.execDdec n s
  | .zclr => Sys2Proof.Machine.execZclr s
  | .zpush v => Sys2Proof.Machine.execZpush v s
  | .zrun q => Sys2Proof.Machine.execZrun q s
  | .zmap k => Sys2Proof.Machine.execZmap k s
  | .eclr => Sys2Proof.Machine.execEclr s

end Sys2Proof.Machine
end

