-- ==== Sys2Proof/WellFormed.lean ====
section
/-! DEFINITION. Commands as a programmer writes them (R90, R91), with natural numbers as operands,
and the check that each operand is in its range: "An operand outside its range is an assembly
error" (R90). `Instr` itself has no value out of range; `Instr.source` shows each command as a
source line, and `Instr.wellFormed` is the check on that line. -/

namespace Sys2Proof

/-- The slot operand of HBUILD and DSEL: a number, or a name `DC0` to `DC3` or `AC0` to `AC3` (R90). -/
inductive SlotName where
  | num (t : Nat)
  | dc (i : Nat)
  | ac (i : Nat)
  deriving DecidableEq, Repr

/-- The slot number a slot operand names: t = 4·class + index (R9, R90). -/
def SlotName.number : SlotName → Nat
  | .num t => t
  | .dc i => i
  | .ac i => 4 + i

/-- The range of a slot operand: 0 to 7, or the names of R90. -/
def SlotName.wellFormed : SlotName → Bool
  | .num t => decide (t ≤ 7)
  | .dc i => decide (i ≤ 3)
  | .ac i => decide (i ≤ 3)

/-- A source line: a command with the operands as written (R90), or a pseudo-instruction (R91). -/
inductive Source where
  | hclr
  | hcnt (len n : Nat)
  | hsym (v : Nat)
  | hbuild (t : SlotName)
  | dsel (t : SlotName)
  | drst (f : Nat)
  | dbyte (b : Nat)
  | ddec (n : Nat)
  | zclr
  | zpush (v : Nat)
  | zrun (q : Nat)
  | zmap (k : Nat)
  | eclr
  | htable (t : SlotName) (counts syms : List Nat)
  | dfeed (bytes : List Nat)
  | ddrain
  | drstf
  | zload (values : List Nat)
  deriving DecidableEq, Repr

/-- The operand ranges of R90 and, for a pseudo-instruction, of the commands it expands to (R91):
HTABLE takes one count for each of the 16 lengths and ZLOAD the 64 values of a block. -/
def Source.wellFormed : Source → Bool
  | .hclr => true
  | .hcnt len n => decide (1 ≤ len) && decide (len ≤ 16) && decide (n ≤ 255)
  | .hsym v => decide (v ≤ 255)
  | .hbuild t => t.wellFormed
  | .dsel t => t.wellFormed
  | .drst f => decide (f ≤ 1)
  | .dbyte b => decide (b ≤ 255)
  | .ddec n => decide (n ≤ 255)
  | .zclr => true
  | .zpush v => decide (v ≤ 65535)
  | .zrun q => decide (q ≤ 3)
  | .zmap k => decide (k ≤ 63)
  | .eclr => true
  | .htable t counts syms =>
      t.wellFormed && decide (counts.length = 16) && counts.all (fun c => decide (c ≤ 255)) &&
        syms.all (fun v => decide (v ≤ 255))
  | .dfeed bytes => bytes.all (fun b => decide (b ≤ 255))
  | .ddrain => true
  | .drstf => true
  | .zload values => decide (values.length = 64) && values.all (fun v => decide (v ≤ 65535))

/-- The command as a source line, its operands as numbers (R90). -/
def Instr.source : Instr → Source
  | .hclr => .hclr
  | .hcnt l4 n => .hcnt (l4.val + 1) n.toNat
  | .hsym v => .hsym v.toNat
  | .hbuild t => .hbuild (.num t.val)
  | .dsel t => .dsel (.num t.val)
  | .drst f => .drst f.toNat
  | .dbyte b => .dbyte b.toNat
  | .ddec n => .ddec n.toNat
  | .zclr => .zclr
  | .zpush v => .zpush v.toNat
  | .zrun q => .zrun q.val
  | .zmap k => .zmap k.val
  | .eclr => .eclr

/-- Every operand of the command is in the range R90 gives it. -/
def Instr.wellFormed (i : Instr) : Bool := i.source.wellFormed

end Sys2Proof
end

