-- ==== Sys2Proof/Decode.lean ====
section
/-! DEFINITION. The encoding of commands (30_encoding.md, R80 to R88) and the order of a word's bytes
on a byte-wide link (R65, R66): the decoder, then the encoder written from the same table. -/

namespace Sys2Proof

/-- Why a word is no command (R87), or why there is no word at all (R66). -/
inductive DecodeError where
  /-- R87(a): the opcode is 0x0, 0xD or 0xF. -/
  | reservedOpcode
  /-- R87(b): a reserved bit of the opcode's format is 1. -/
  | reservedBits
  /-- R66: fewer than 4 bytes of the word arrived. -/
  | partialWord
  deriving DecidableEq, Repr

/-- The operand formats of R81. -/
inductive Format where
  | N | LC | B8 | S3 | F1 | V16 | Q2 | K6
  deriving DecidableEq, Repr

/-- The reserved bits of a format, which must be 0: the last column of R81. -/
def Format.reserved : Format → Word
  | .N => 0x0FFFFFFF#32
  | .LC => 0x0FFFF000#32
  | .B8 => 0x0FFFFF00#32
  | .S3 => 0x0FFFFFF8#32
  | .F1 => 0x0FFFFFFE#32
  | .V16 => 0x0FFF0000#32
  | .Q2 => 0x0FFFFFFC#32
  | .K6 => 0x0FFFFFC0#32

/-! ### Fields of a word (R81) -/

/-- OPC, bits 31:28. -/
def opcode (w : Word) : BitVec 4 := w.extractLsb' 28 4

/-- l4, bits 11:8 of format LC (R83). -/
def fieldL4 (w : Word) : Fin 16 := (w.extractLsb' 8 4).toFin

/-- imm8 of format B8 and n8 of format LC, bits 7:0. -/
def fieldImm8 (w : Word) : Byte := w.extractLsb' 0 8

/-- t3, bits 2:0 of format S3 (R84). -/
def fieldT3 (w : Word) : Slot := (w.extractLsb' 0 3).toFin

/-- f1, bit 0 of format F1. -/
def fieldF1 (w : Word) : Bool := w.getLsbD 0

/-- v16, bits 15:0 of format V16. -/
def fieldV16 (w : Word) : Elem := w.extractLsb' 0 16

/-- q2, bits 1:0 of format Q2. -/
def fieldQ2 (w : Word) : QSlot := (w.extractLsb' 0 2).toFin

/-- k6, bits 5:0 of format K6. -/
def fieldK6 (w : Word) : Fin 64 := (w.extractLsb' 0 6).toFin

/-! ### The decoder -/

/-- The command `i` if no reserved bit of its format is set in `w` (R81, R87(b)). -/
def checkReserved (f : Format) (w : Word) (i : Instr) : Except DecodeError Instr :=
  if w &&& f.reserved = 0#32 then .ok i else .error .reservedBits

/-- The command a word stands for: the row of R86 its OPC selects, if its reserved bits are 0. -/
def decode (w : Word) : Except DecodeError Instr :=
  match (opcode w).toNat with
  | 0x1 => checkReserved .N w .hclr
  | 0x2 => checkReserved .LC w (.hcnt (fieldL4 w) (fieldImm8 w))
  | 0x3 => checkReserved .B8 w (.hsym (fieldImm8 w))
  | 0x4 => checkReserved .S3 w (.hbuild (fieldT3 w))
  | 0x5 => checkReserved .S3 w (.dsel (fieldT3 w))
  | 0x6 => checkReserved .F1 w (.drst (fieldF1 w))
  | 0x7 => checkReserved .B8 w (.dbyte (fieldImm8 w))
  | 0x8 => checkReserved .B8 w (.ddec (fieldImm8 w))
  | 0x9 => checkReserved .N w .zclr
  | 0xA => checkReserved .V16 w (.zpush (fieldV16 w))
  | 0xB => checkReserved .Q2 w (.zrun (fieldQ2 w))
  | 0xC => checkReserved .K6 w (.zmap (fieldK6 w))
  | 0xE => checkReserved .N w .eclr
  | _ => .error .reservedOpcode

/-! ### Bytes on a byte-wide link (R65, R66) -/

/-- Four bytes as a word, most significant byte first (R65). -/
def wordOfBytes (b0 b1 b2 b3 : Byte) : Word := b0 ++ b1 ++ b2 ++ b3

/-- The bytes of a command word or of a host read word, most significant first (R65). -/
def bytesOfWord (w : Word) : List Byte :=
  [w.extractLsb' 24 8, w.extractLsb' 16 8, w.extractLsb' 8 8, w.extractLsb' 0 8]

/-- The command at the head of a byte stream, and the bytes after it. Fewer than 4 bytes are no
command (R66). -/
def decodeBytes : List Byte → Except DecodeError (Instr × List Byte)
  | b0 :: b1 :: b2 :: b3 :: rest => (decode (wordOfBytes b0 b1 b2 b3)).map (fun i => (i, rest))
  | _ => .error .partialWord

/-- The command this decoder reads from an instruction whose bits are `w`, numbered as
spec/opcode_table.json numbers them; bits at `nbits` and above are 0. -/
def decodeTableWord (nbits w : Nat) : Option Instr :=
  match decodeBytes (bytesOfWord (BitVec.ofNat 32 (w % 2 ^ nbits))) with
  | .ok (i, _) => some i
  | .error _ => none

/-! ### The encoder -/

/-- The word of a command: OPC in bits 31:28, the operand fields of its format, and 0 in every
reserved bit (R81, R86). -/
def encode : Instr → Word
  | .hclr => 0x1#4 ++ 0#28
  | .hcnt l4 n => 0x2#4 ++ 0#16 ++ BitVec.ofFin (w := 4) l4 ++ n
  | .hsym v => 0x3#4 ++ 0#20 ++ v
  | .hbuild t => 0x4#4 ++ 0#25 ++ BitVec.ofFin (w := 3) t
  | .dsel t => 0x5#4 ++ 0#25 ++ BitVec.ofFin (w := 3) t
  | .drst f => 0x6#4 ++ 0#27 ++ BitVec.ofBool f
  | .dbyte b => 0x7#4 ++ 0#20 ++ b
  | .ddec n => 0x8#4 ++ 0#20 ++ n
  | .zclr => 0x9#4 ++ 0#28
  | .zpush v => 0xA#4 ++ 0#12 ++ v
  | .zrun q => 0xB#4 ++ 0#26 ++ BitVec.ofFin (w := 2) q
  | .zmap k => 0xC#4 ++ 0#22 ++ BitVec.ofFin (w := 6) k
  | .eclr => 0xE#4 ++ 0#28

/-- A command's bytes on a byte-wide link (R65). -/
def encodeBytes (i : Instr) : List Byte := bytesOfWord (encode i)

/-! ### The match and mask columns of R86 -/

/-- The match column of R86 for a command's row. -/
def Instr.matchWord : Instr → Word
  | .hclr => 0x10000000#32
  | .hcnt _ _ => 0x20000000#32
  | .hsym _ => 0x30000000#32
  | .hbuild _ => 0x40000000#32
  | .dsel _ => 0x50000000#32
  | .drst _ => 0x60000000#32
  | .dbyte _ => 0x70000000#32
  | .ddec _ => 0x80000000#32
  | .zclr => 0x90000000#32
  | .zpush _ => 0xA0000000#32
  | .zrun _ => 0xB0000000#32
  | .zmap _ => 0xC0000000#32
  | .eclr => 0xE0000000#32

/-- The mask column of R86 for a command's row. -/
def Instr.maskWord : Instr → Word
  | .hclr => 0xFFFFFFFF#32
  | .hcnt _ _ => 0xFFFFF000#32
  | .hsym _ => 0xFFFFFF00#32
  | .hbuild _ => 0xFFFFFFF8#32
  | .dsel _ => 0xFFFFFFF8#32
  | .drst _ => 0xFFFFFFFE#32
  | .dbyte _ => 0xFFFFFF00#32
  | .ddec _ => 0xFFFFFF00#32
  | .zclr => 0xFFFFFFFF#32
  | .zpush _ => 0xFFFF0000#32
  | .zrun _ => 0xFFFFFFFC#32
  | .zmap _ => 0xFFFFFFC0#32
  | .eclr => 0xFFFFFFFF#32

end Sys2Proof
end

