-- ==== Sys2Proof/Machine/Fetch.lean ====
section
/-! DEFINITION. The word a step executes: word CI of the program (R21). HCT itself fetches nothing from
memory (R75); the words come from the command port (R60). -/

namespace Sys2Proof.Machine

/-- The command word at the command index, if the host has delivered one. -/
def currentWord (s : State) : Option Word := s.prog[s.ci]?

/-- The program with `w` as the word at index `ci`; words missing before it are filled with 0
(DESIGN CHOICE, notes/assumptions/17.md). -/
def programWithWord (prog : List Word) (ci : Nat) (w : Word) : List Word :=
  prog.take ci ++ List.replicate (ci - prog.length) 0#32 ++ [w] ++ prog.drop (ci + 1)

end Sys2Proof.Machine
end

