-- ==== Sys2Proof/Machine/Step.lean ====
section
/-! DEFINITION. One step of HCT: the execution of one command word (R20, R21). -/

namespace Sys2Proof.Machine

/-- Execute the word at the command index: the command it stands for, or an illegal word as R181 says.
While no word is waiting, HCT "is idle and keeps all state"
(R235, R242; DEDUCED, notes/assumptions/7.md). -/
def step (s : State) : Host.Outcome State Fault Refusal :=
  match currentWord s with
  | none => .next s
  | some w =>
      match decode w with
      | .ok i => exec i s
      | .error _ => execIllegal w s

/-- The state with the instruction whose bits are `w`, numbered as spec/opcode_table.json numbers them,
as the word at the command index, so that the next step executes it. -/
def State.withFetchWord (s : State) (nbits w : Nat) : State :=
  { s with prog := programWithWord s.prog s.ci (BitVec.ofNat 32 (w % 2 ^ nbits)) }

end Sys2Proof.Machine
end

