-- ==== Sys2Proof/Machine/Assembler.lean ====
section
/-! DEFINITION. The assembler of R90 and R91: the text of a line as a `Source`, and a `Source` as the
commands it stands for. It emits no word for a line with an operand out of range. What R90 leaves open of the
text is settled in notes/assumptions/15.md (DESIGN CHOICE). -/

namespace Sys2Proof.Machine

/-! ### Commands of a source line (R90, R91) -/

/-- `HCNT L, cL` for each L with cL ≠ 0, in increasing L from `len` on (R91). -/
def countCommands : Nat → List Nat → List Instr
  | _, [] => []
  | len, c :: cs =>
      (if c = 0 then [] else [.hcnt (Fin.ofNat 16 (len - 1)) (BitVec.ofNat 8 c)]) ++
        countCommands (len + 1) cs

/-- The slot a well-formed slot operand names. -/
def slotOf (t : SlotName) : Slot := Fin.ofNat 8 t.number

/-- The commands of a well-formed source line: one, or a pseudo-instruction's expansion (R90, R91). -/
def expand : Source → List Instr
  | .hclr => [.hclr]
  | .hcnt len n => [.hcnt (Fin.ofNat 16 (len - 1)) (BitVec.ofNat 8 n)]
  | .hsym v => [.hsym (BitVec.ofNat 8 v)]
  | .hbuild t => [.hbuild (slotOf t)]
  | .dsel t => [.dsel (slotOf t)]
  | .drst f => [.drst (f == 1)]
  | .dbyte b => [.dbyte (BitVec.ofNat 8 b)]
  | .ddec n => [.ddec (BitVec.ofNat 8 n)]
  | .zclr => [.zclr]
  | .zpush v => [.zpush (BitVec.ofNat 16 v)]
  | .zrun q => [.zrun (Fin.ofNat 4 q)]
  | .zmap k => [.zmap (Fin.ofNat 64 k)]
  | .eclr => [.eclr]
  | .htable t counts syms =>
      [.hclr] ++ countCommands 1 counts ++ syms.map (fun v => .hsym (BitVec.ofNat 8 v)) ++
        [.hbuild (slotOf t)]
  | .dfeed bytes => bytes.map (fun b => .dbyte (BitVec.ofNat 8 b))
  | .ddrain => [.ddec 0#8]
  | .drstf => [.drst true]
  | .zload values => [.zclr] ++ values.map (fun v => .zpush (BitVec.ofNat 16 v))

/-- The commands of a source line, or none for an assembly error (R90). -/
def assemble (l : Source) : Option (List Instr) := if l.wellFormed then some (expand l) else none

/-- The command words of a source line (R90, R91). -/
def assembleWords (l : Source) : Option (List Word) := (assemble l).map (List.map encode)

/-! ### The text of a line (R90) -/

/-- The pieces of a line. -/
inductive Token where
  | word (cs : List Char)
  | comma
  | openList
  | closeList
  deriving DecidableEq, Repr

/-- The token for the letters and digits read so far, if there are any. -/
def pendingWord : List Char → List Token
  | [] => []
  | cs => [.word cs]

/-- The tokens of a line, where `cs` is the word being read. "A comment runs from `;` to the end of the
line." -/
def tokens (cs : List Char) : List Char → Option (List Token)
  | [] => some (pendingWord cs)
  | c :: rest =>
      if c = ';' then some (pendingWord cs)
      else if c = ' ' ∨ c = '\t' then (tokens [] rest).map (pendingWord cs ++ ·)
      else if c = ',' then (tokens [] rest).map (pendingWord cs ++ .comma :: ·)
      else if c = '[' then (tokens [] rest).map (pendingWord cs ++ .openList :: ·)
      else if c = ']' then (tokens [] rest).map (pendingWord cs ++ .closeList :: ·)
      else if c.isAlphanum then tokens (cs ++ [c]) rest
      else none

/-- The value of a hexadecimal digit. -/
def hexDigit (c : Char) : Option Nat :=
  if c.isDigit then some (c.toNat - '0'.toNat)
  else if 'a' ≤ c ∧ c ≤ 'f' then some (c.toNat - 'a'.toNat + 10)
  else if 'A' ≤ c ∧ c ≤ 'F' then some (c.toNat - 'A'.toNat + 10)
  else none

/-- The number of a string of digits in a base, most significant first. -/
def digits (base acc : Nat) : List Char → Option Nat
  | [] => some acc
  | c :: cs =>
      match hexDigit c with
      | some d => if d < base then digits base (base * acc + d) cs else none
      | none => none

/-- "Numbers are decimal, or hexadecimal with a `0x` prefix." Leading zeros are taken
(DESIGN CHOICE, notes/assumptions/15.md). -/
def number : List Char → Option Nat
  | [] => none
  | ['0', 'x'] => none
  | '0' :: 'x' :: cs => digits 16 0 cs
  | cs => digits 10 0 cs

/-- A slot operand: a name or a number. A name is DC or AC and one digit, so that the eight names of R90 are
the only ones taken: `DC4` is out of range, and `DC00` or `AC0x3` is no name. -/
def slotName : List Char → Option SlotName
  | ['D', 'C', c] => (number [c]).map .dc
  | ['A', 'C', c] => (number [c]).map .ac
  | cs => (number cs).map .num

/-- An operand: a word or a bracketed list of numbers. -/
inductive Operand where
  | word (cs : List Char)
  | list (ns : List Nat)
  deriving DecidableEq, Repr

/-- The numbers of a bracketed list after its opening bracket, and what follows the closing one. -/
def listItems : List Token → Option (List Nat × List Token)
  | .closeList :: rest => some ([], rest)
  | .word cs :: .closeList :: rest => (number cs).map (fun n => ([n], rest))
  | .word cs :: .comma :: .word cs' :: rest =>
      match number cs, listItems (.word cs' :: rest) with
      | some n, some (ns, rest') => some (n :: ns, rest')
      | _, _ => none
  | _ => none

/-- The operands of a line, separated by commas. `fuel` bounds their number by that of the tokens. -/
def operandList : Nat → List Token → Option (List Operand)
  | 0, _ => none
  | _ + 1, [.word cs] => some [.word cs]
  | fuel + 1, .word cs :: .comma :: rest => (operandList fuel rest).map (.word cs :: ·)
  | fuel + 1, .openList :: rest =>
      match listItems rest with
      | some (ns, []) => some [.list ns]
      | some (ns, .comma :: rest') => (operandList fuel rest').map (.list ns :: ·)
      | _ => none
  | _ + 1, _ => none

/-- The operands after a mnemonic; there may be none. -/
def operands : List Token → Option (List Operand)
  | [] => some []
  | ts => operandList ts.length ts

/-- The numbers of an operand list that holds only numbers. -/
def numberOperands : List Operand → Option (List Nat)
  | [] => some []
  | .word cs :: rest =>
      match number cs, numberOperands rest with
      | some n, some ns => some (n :: ns)
      | _, _ => none
  | .list _ :: _ => none

/-- A line whose only operand is a number. -/
def oneNumber (f : Nat → Source) : List Operand → Option Source
  | [.word cs] => (number cs).map f
  | _ => none

/-- A line whose only operand is a slot. -/
def oneSlot (f : SlotName → Source) : List Operand → Option Source
  | [.word cs] => (slotName cs).map f
  | _ => none

/-- A line without operands. -/
def noOperand (l : Source) : List Operand → Option Source
  | [] => some l
  | _ => none

/-- A line with one or more numbers. -/
def someNumbers (f : List Nat → Source) (ops : List Operand) : Option Source :=
  match numberOperands ops with
  | some (n :: ns) => some (f (n :: ns))
  | _ => none

/-- HCNT's two numbers. -/
def twoNumbers (f : Nat → Nat → Source) (ops : List Operand) : Option Source :=
  match numberOperands ops with
  | some [a, b] => some (f a b)
  | _ => none

/-- "`DRST` means F = 0, and `DRST 1` means F = 1." -/
def drstOperand : List Operand → Option Source
  | [] => some (.drst 0)
  | ops => oneNumber .drst ops

/-- HTABLE's slot and two lists (R91). -/
def tableOperands : List Operand → Option Source
  | [.word cs, .list counts, .list syms] => (slotName cs).map (fun t => .htable t counts syms)
  | _ => none

/-- The operand form of each mnemonic (R90, R91). -/
def mnemonicForm : List Char → Option (List Operand → Option Source)
  | ['H', 'C', 'L', 'R'] => some (noOperand .hclr)
  | ['H', 'C', 'N', 'T'] => some (twoNumbers .hcnt)
  | ['H', 'S', 'Y', 'M'] => some (oneNumber .hsym)
  | ['H', 'B', 'U', 'I', 'L', 'D'] => some (oneSlot .hbuild)
  | ['D', 'S', 'E', 'L'] => some (oneSlot .dsel)
  | ['D', 'R', 'S', 'T'] => some drstOperand
  | ['D', 'B', 'Y', 'T', 'E'] => some (oneNumber .dbyte)
  | ['D', 'D', 'E', 'C'] => some (oneNumber .ddec)
  | ['Z', 'C', 'L', 'R'] => some (noOperand .zclr)
  | ['Z', 'P', 'U', 'S', 'H'] => some (oneNumber .zpush)
  | ['Z', 'R', 'U', 'N'] => some (oneNumber .zrun)
  | ['Z', 'M', 'A', 'P'] => some (oneNumber .zmap)
  | ['E', 'C', 'L', 'R'] => some (noOperand .eclr)
  | ['H', 'T', 'A', 'B', 'L', 'E'] => some tableOperands
  | ['D', 'F', 'E', 'E', 'D'] => some (someNumbers .dfeed)
  | ['D', 'D', 'R', 'A', 'I', 'N'] => some (noOperand .ddrain)
  | ['D', 'R', 'S', 'T', 'F'] => some (noOperand .drstf)
  | ['Z', 'L', 'O', 'A', 'D'] => some (someNumbers .zload)
  | _ => none

/-- The command words of one line of text: "each line holds one command: the mnemonic, then its operands
separated by commas" (R90). A line with nothing but a comment has no words; none is an assembly
error. -/
def assembleLine (line : List Char) : Option (List Word) :=
  match tokens [] line with
  | some [] => some []
  | some (.word m :: ts) =>
      match mnemonicForm m, operands ts with
      | some form, some ops => (form ops).bind assembleWords
      | _, _ => none
  | _ => none

end Sys2Proof.Machine
end

