-- ==== Sys2Proof/Machine/HostPort.lean ====
section
/-! DEFINITION. What the outside does to HCT (20_memory.md, R47, R48, R60 to R68, R241): delivering command
words, whole or byte by byte; reading the host read space; and the reset input. None of these is a
step of HCT (R20). -/

namespace Sys2Proof.Machine

/-! ### The command port (R60) -/

/-- The host delivers a command word. -/
def deliver (w : Word) (s : State) : State := { s with prog := s.prog ++ [w] }

/-- A byte of a command word arrives on a byte-wide link. The word is delivered with its fourth byte,
the first byte being bits 31:24 (R65); until then nothing is executed (R66). -/
def deliverByte (b : Byte) (s : State) : State :=
  match s.link with
  | [b0, b1, b2] =>
      { s with link := [], prog := s.prog ++ [b0 ++ b1 ++ b2 ++ b] }
  | bytes => { s with link := bytes ++ [b] }

/-- The port is ready for the next word: every word delivered has been executed (R60). -/
def portReady (s : State) : Bool := decide (s.prog.length ≤ s.ci)

/-- The reset input (R240, R241): every element takes its reset value, and nothing of the program or of
a partly received word survives. Only the parameters (R47) and the model's own draw counter, which
moves on, outlast it (DEDUCED, notes/assumptions/8.md). -/
def resetInput (s : State) : State := { State.resetAt s.cfg with draws := s.draws + 1 }

/-! ### The host read port (R61, R67, R68) -/

/-- An entry of an 8-bit window, zero-extended; unspecified if `specified` is false (R48). -/
def readByteEntry (a : ReadAddr) (specified : Bool) (v : Byte) (s : State) : Word :=
  0#24 ++ (if specified then v else Config.freeByte s.ci s.draws a)

/-- An entry of a 16-bit window, zero-extended; unspecified if `specified` is false (R48). -/
def readElemEntry (a : ReadAddr) (specified : Bool) (v : Elem) (s : State) : Word :=
  0#16 ++ (if specified then v else Config.freeElem s.ci s.draws a)

/-- The array windows of R48; an address in none of them is reserved and reads 0 (R61). -/
def readWindow (a : ReadAddr) (s : State) : Word :=
  if h : 0x010 ≤ a.toNat ∧ a.toNat < 0x020 then
    readByteEntry a true (s.hcount[a.toNat - 0x010]'(by omega)) s
  else if h : 0x040 ≤ a.toNat ∧ a.toNat < 0x080 then
    readElemEntry a (decide (a.toNat - 0x040 < s.zcnt.val)) (s.zin[a.toNat - 0x040]'(by omega)) s
  else if h : 0x100 ≤ a.toNat ∧ a.toNat < 0x200 then
    readByteEntry a (decide (a.toNat - 0x100 < s.symcnt.val)) (s.symbuf[a.toNat - 0x100]'(by omega)) s
  else if h : 0x200 ≤ a.toNat ∧ a.toNat < 0x300 then
    readElemEntry a (s.qvalid[(a.toNat - 0x200) / 64]'(by omega))
      ((s.qblk[(a.toNat - 0x200) / 64]'(by omega))[(a.toNat - 0x200) % 64]'(by omega)) s
  else 0#32

/-- The single registers at addresses 0x000 to 0x00A, by number (R42 to R47). -/
def readRegister (n : Nat) (s : State) : Word :=
  match n with
  | 0x000 => statusWord s
  | 0x001 => s.errinfo
  | 0x002 => symoutWord s
  | 0x003 => dcurWord s
  | 0x004 => bitcntWord s
  | 0x005 => tvalidWord s
  | 0x006 => hstatWord s
  | 0x007 => zstatWord s
  | 0x008 => zresWord s
  | 0x009 => Config.idWord
  | 0x00A => s.cfg.paramWord
  | _ => 0#32

/-- The word at address a of the host read space (R42 to R48, R61). -/
def readWord (a : ReadAddr) (s : State) : Word :=
  if a.toNat < 0x00B then readRegister a.toNat s else readWindow a s

/-- The read of address a is not one of the "three kinds of read" that "return an unspecified value"
(R48). -/
def specifiedRead (a : ReadAddr) (s : State) : Bool :=
  if 0x040 ≤ a.toNat ∧ a.toNat < 0x080 then decide (a.toNat - 0x040 < s.zcnt.val)
  else if 0x100 ≤ a.toNat ∧ a.toNat < 0x200 then decide (a.toNat - 0x100 < s.symcnt.val)
  else if h : 0x200 ≤ a.toNat ∧ a.toNat < 0x300 then s.qvalid[(a.toNat - 0x200) / 64]'(by omega)
  else true

/-- `HostRead(a)`: the word, and the state after the read. A read "has no side effect on any state
element or on OUT" (R68); only the model's own draw counter moves, so that "two reads of the same
unspecified entry need not agree" (R48; DEDUCED, notes/assumptions/18.md). -/
def hostRead (a : ReadAddr) (s : State) : Word × State :=
  (readWord a s, { s with draws := s.draws + 1 })

end Sys2Proof.Machine
end

