-- ==== Sys2Proof/Safety.lean ====
section
/-! DEFINITION. What the claims about HCT are stated in terms of: the states a run can be in (`Inv`), runs
of command words (R262), and the spec's own tables of which command raises which error (R202). -/

namespace Sys2Proof.Machine

/-- The invariant of HCT: it holds at reset and every step keeps it. -/
structure Inv (s : State) : Prop where
  /-- CI counts executed commands, so it is never past the program (R21). -/
  index : s.ci ≤ s.prog.length
  /-- A partly received word has fewer than 4 bytes (R66). -/
  link : s.link.length < 4
  /-- HPOISON is set only when SYMBUF is full (R26). -/
  poisoned : s.hpoison = true → s.symcnt.val = 256
  /-- Every tree in a slot is one a successful HBUILD stores (R27, R28, R113). -/
  trees : ∀ (t : Slot) (root : Node), s.tree[t] = some root → storedTree root = true
  /-- An unbound cursor stands at the root (R29, R30). -/
  unbound : s.dbound = false → s.cdepth.val = 0
  /-- "Bits CPATH[15:CDEPTH] are 0" (R30). -/
  path : s.cpath.toNat < 2 ^ s.cdepth.val
  /-- The errors that kill a pass leave the cursor at the root (R134, R112). -/
  dead : s.ddead = true → s.cdepth.val = 0
  /-- The cursor invariant (R31). -/
  cursor : ∀ root, boundTree s = some root → s.ddead = false →
    ∃ c0 c1, cursorNode root s = some (.interior c0 c1)
  /-- BITBUF holds at most BITCAP bits (R33, R252). -/
  buffer : bitcnt s ≤ s.cfg.bitcap
  /-- NEMIT fits its 16 bits (R12, R35). -/
  emitted : s.nemit ≤ s.cfg.bitcap
  /-- ZPOISON is set only when ZIN is full (R38). -/
  overloaded : s.zpoison = true → s.zcnt.val = 64
  /-- With no error recorded ERRINFO is 0 (R41, R180). -/
  noError : s.err = none → s.errinfo = 0#32
  /-- The error recorded is one of those in OUT (R205). -/
  recorded : ∀ c, s.err = some c → .err c s.errinfo ∈ s.out

/-- A run of the command words `ws` from the state s (R262): the host delivers them after the words
already executed, and the run ends when the last has completed. -/
def runOf (ws : List Word) (s : State) : Result :=
  Host.Core.run core ws.length { s with prog := s.prog.take s.ci ++ ws }

/-- The structural checks of R112 step 2 pass. -/
structure Staged (s : State) : Prop where
  clean : s.hpoison = false
  total : sumcnt s ≤ 256
  count : s.symcnt.val = sumcnt s

/-- The rebuild hazard of R250: the cursor is bound to slot t and holds a partial code. -/
structure MidCode (t : Slot) (s : State) : Prop where
  bound : s.dbound = true
  slot : s.dslot = t
  depth : 0 < s.cdepth.val

/-- DDEC decodes: the pass is alive and the bound slot holds the tree `root` (R135). -/
structure Decoding (root : Node) (s : State) : Prop where
  alive : s.ddead = false
  bound : s.dbound = true
  table : s.tree[s.dslot] = some root

/-- The first error among some events. -/
def firstError : List Event → Option (ErrCode × Word)
  | [] => none
  | .sym _ _ :: es => firstError es
  | .err c info :: _ => some (c, info)

/-- The number of errors among some events. -/
def errorCount : List Event → Nat
  | [] => 0
  | .sym _ _ :: es => errorCount es
  | .err _ _ :: es => errorCount es + 1

/-- The "raised by" column of R202's table: the command i may raise the code c. -/
def mayRaise : Instr → ErrCode → Bool
  | .hsym _, .symbufOverflow => true
  | .hbuild _, .totalGt256 => true
  | .hbuild _, .symCountMismatch => true
  | .hbuild _, .noSlot => true
  | .hbuild _, .cursorInvalidated => true
  | .dbyte _, .bitbufOverflow => true
  | .ddec _, .incompleteTree => true
  | .ddec _, .decodeOnLeaf => true
  | .ddec _, .noTable => true
  | .ddec _, .passDead => true
  | .zpush _, .zzOverflow => true
  | .zrun _, .zzOverflow => true
  | .zrun _, .zzShort => true
  | _, _ => false

/-- Σ_{l=1..L} HCOUNT[l−1]·2^(L−l): the codes of length L that the symbols of length up to L take up
(R115). -/
def kraftUpTo (hcount : Vector Byte 16) (L : Nat) : Nat :=
  (hcount.toList.take L).foldl (fun c n => 2 * c + n.toNat) 0

/-- Σ_{l=1..L} HCOUNT[l−1]: the symbols of length up to L (R24, R115). -/
def symbolsUpTo (hcount : Vector Byte 16) (L : Nat) : Nat :=
  ((hcount.toList.take L).map BitVec.toNat).sum

/-- The canonical code of SYMBUF[k], C_k as an L_k-bit string (R114); none where k is no symbol's index. -/
def canonicalCode (hcount : Vector Byte 16) (k : Nat) : Option (List Bool) :=
  match (canonicalCodes hcount)[k]?, (codeLengths hcount)[k]? with
  | some code, some len => some (pathBits code len)
  | _, _ => none

end Sys2Proof.Machine
end

