-- ==== Sys2Proof/Certificates/Slice0/Obligations.lean ====
section
/-! DEFINITION. The statements for the provers. Each docstring names the rules of spec/ it formalises. -/

set_option autoImplicit false

open Sys2Proof Sys2Proof.Machine

/-! ### Reset, the command index and one step -/

/-- R240, R12, R21, R47: the reset input, and the state HCT-1 has after it. The unspecified arrays SYMBUF,
ZIN and QBLK are not spoken of. That the reset input puts CI to 0 is the model's reading
(notes/assumptions/8.md), and BITCAP stands in the state by the model's choice (notes/assumptions/1.md). -/
def Obligations.ResetGivesTheResetValues : Prop :=
  State.reset.cfg.bitcap = 256 ∧
  ∀ s t : State, (t = resetInput s ∨ t = State.reset) →
    t.ci = 0 ∧ (∀ i : Fin 16, t.hcount[i] = 0#8) ∧ t.symcnt.val = 0 ∧ t.hpoison = false ∧
    (∀ k : Slot, t.tree[k] = none ∧ tvalid t k = false) ∧ t.dbound = false ∧ t.dslot.val = 0 ∧
    t.cdepth.val = 0 ∧ t.cpath = 0#16 ∧ t.ddead = false ∧ t.bitbuf = [] ∧ bitcnt t = 0 ∧
    t.symout = 0#8 ∧ t.symv = false ∧ t.nemit = 0 ∧ t.dstarved = false ∧ t.zcnt.val = 0 ∧
    t.zpoison = false ∧ (∀ q : QSlot, t.qvalid[q] = false) ∧ t.zres.val = 0 ∧ t.err = none ∧
    errByte t = 0#8 ∧ t.errinfo = 0#32 ∧ t.out = [] ∧
    readWord 0x009#10 (resetInput s) = readWord 0x009#10 s ∧
    readWord 0x00A#10 (resetInput s) = readWord 0x00A#10 s

/-- R243: "the first command after reset may be any command": each completes, and the rule's three
examples come out as it says. BITCAP is any legal value (notes/assumptions/1.md). -/
def Obligations.FirstCommandsAfterReset : Prop :=
  ∀ (c : Config), let r := State.resetAt c
    (∀ i, ∃ t, exec i r = .next t) ∧
    (∀ n, exec (.ddec n) r = .next { raise .noTable 0#32 r with ci := 1 }) ∧
    (∀ q : QSlot, exec (.zrun q) r =
      .next { raise .zzShort (BitVec.ofNat 8 q.val ++ 0#24) r with ci := 1 }) ∧
    (∀ t : Slot, exec (.hbuild t) r =
      .next { r with tree := r.tree.set t (some (.interior .empty .empty)), ci := 1 })

/-- R20, R21: a step runs the command the word at the command index stands for. -/
def Obligations.StepExecutesTheCurrentCommand : Prop :=
  ∀ (s : State) (w : Word) (i : Instr),
    s.prog[s.ci]? = some w → decode w = .ok i → step s = exec i s

/-- R181: an illegal word raises ILLEGAL_CMD with the word, changes nothing else, and CI advances. -/
def Obligations.IllegalWordOnlyRaises : Prop :=
  ∀ (s : State) (w : Word) (e : DecodeError),
    s.prog[s.ci]? = some w → decode w = .error e →
    step s = .next { raise .illegalCmd w s with ci := s.ci + 1 }

/-- R20, R235, R242: between commands HCT "is idle and keeps all state". That a step with no word waiting is
one that answers the same state is the model's reading (notes/assumptions/7.md). -/
def Obligations.IdleKeepsAllState : Prop :=
  ∀ s : State, s.prog.length ≤ s.ci → step s = .next s

/-- R21: "each executed command, including one that raises an error, advances CI by exactly 1", and the
host cannot read CI: no read whose value is specified depends on it. -/
def Obligations.EachCommandAdvancesTheIndexByOne : Prop :=
  (∀ (s t : State) (w : Word), s.prog[s.ci]? = some w → step s = .next t →
    t.ci = s.ci + 1 ∧ t.prog = s.prog) ∧
  (∀ (s : State) (a : ReadAddr) (n : Nat), specifiedRead a s = true →
    readWord a { s with ci := n } = readWord a s)

/-- R50: "Configuration is not state … No command changes them." With it the model's own link bytes and
draw counter stay (notes/assumptions/1.md, 2.md, 5.md). -/
def Obligations.NoCommandChangesTheConfiguration : Prop :=
  ∀ (i : Instr) (s t : State), exec i s = .next t →
    t.cfg = s.cfg ∧ t.link = s.link ∧ t.draws = s.draws ∧
    readWord 0x009#10 t = readWord 0x009#10 s ∧ readWord 0x00A#10 t = readWord 0x00A#10 s

/-! ### Encoding -/

/-- R81 to R86: every command, with every value of its operands, is read back from its own word and from
its own bytes, whatever follows them. -/
def Obligations.DecodeReadsBackEncode : Prop :=
  ∀ (i : Instr) (rest : List Byte), i.wellFormed = true ∧ decode (encode i) = .ok i ∧
    decodeBytes (encodeBytes i ++ rest) = .ok (i, rest) ∧
    decodeTableWord 32 (encode i).toNat = some i

/-- R81, R86: a word that decodes is the encoding of its command and matches its row. -/
def Obligations.DecodedWordIsItsEncoding : Prop :=
  ∀ (w : Word) (i : Instr), decode w = .ok i →
    encode i = w ∧ w &&& i.maskWord = i.matchWord

/-- R87, R88: a word is illegal exactly when it matches no row, and no word matches two rows; OPC 0x0, 0xD
and 0xF are case (a), and a set reserved bit under another OPC is case (b). -/
def Obligations.IllegalExactlyWhenNoRowMatches : Prop :=
  ∀ w : Word,
    ((∃ e, decode w = .error e) ↔ ∀ i : Instr, w &&& i.maskWord ≠ i.matchWord) ∧
    (∀ i j : Instr, w &&& i.maskWord = i.matchWord → w &&& j.maskWord = j.matchWord →
      i.matchWord = j.matchWord ∧ i.maskWord = j.maskWord) ∧
    (decode w = .error .reservedOpcode ↔ opcode w = 0x0#4 ∨ opcode w = 0xD#4 ∨ opcode w = 0xF#4) ∧
    decode w ≠ .error .partialWord

/-- R92: the encoding examples. -/
def Obligations.EncodingExamples : Prop :=
  decode 0x20000103#32 = .ok (.hcnt 1 3#8) ∧ decode 0x30000041#32 = .ok (.hsym 0x41#8) ∧
  decode 0x40000005#32 = .ok (.hbuild 5) ∧ decode 0x50000005#32 = .ok (.dsel 5) ∧
  decode 0x60000001#32 = .ok (.drst true) ∧ decode 0x700000A5#32 = .ok (.dbyte 0xA5#8) ∧
  decode 0x80000000#32 = .ok (.ddec 0#8) ∧ decode 0xA0001234#32 = .ok (.zpush 0x1234#16) ∧
  decode 0xB0000003#32 = .ok (.zrun 3) ∧ decode 0xC000003F#32 = .ok (.zmap 63) ∧
  decode 0xE0000000#32 = .ok .eclr ∧ decode 0x20001000#32 = .error .reservedBits

/-- R65, R66: four bytes, most significant first, deliver one word; fewer deliver nothing and decode to
nothing. The bytes kept for a word are the model's own field (notes/assumptions/5.md). -/
def Obligations.BytesDeliverWholeWords : Prop :=
  (∀ (s : State) (w : Word), s.link = [] →
    (bytesOfWord w).foldl (fun s b => deliverByte b s) s = deliver w s) ∧
  (∀ (s : State) (b : Byte), s.link.length < 3 →
    deliverByte b s = { s with link := s.link ++ [b] }) ∧
  (∀ bytes : List Byte, bytes.length < 4 → decodeBytes bytes = .error .partialWord)

/-- R90: a command written with its own operands assembles to itself; an operand form emits no word exactly
when an operand is outside the range the rule gives it, and a slot name stands for its number. The ranges
of a pseudo-instruction's operands are notes/assumptions/15.md's. -/
def Obligations.SourceLinesAssemble : Prop :=
  (∀ i : Instr, assembleWords i.source = some [encode i]) ∧
  (∀ L n, assembleWords (.hcnt L n) = none ↔ L < 1 ∨ 16 < L ∨ 255 < n) ∧
  (∀ v, (assembleWords (.hsym v) = none ↔ 255 < v) ∧ (assembleWords (.dbyte v) = none ↔ 255 < v) ∧
    (assembleWords (.ddec v) = none ↔ 255 < v) ∧ (assembleWords (.zpush v) = none ↔ 65535 < v) ∧
    (assembleWords (.zrun v) = none ↔ 3 < v) ∧ (assembleWords (.zmap v) = none ↔ 63 < v) ∧
    (assembleWords (.drst v) = none ↔ 1 < v)) ∧
  (∀ t, (assembleWords (.hbuild (.num t)) = none ↔ 7 < t) ∧ (assembleWords (.dsel (.num t)) = none ↔ 7 < t)) ∧
  (∀ k, (assembleWords (.hbuild (.dc k)) = none ↔ 3 < k) ∧ (assembleWords (.dsel (.dc k)) = none ↔ 3 < k) ∧
    (assembleWords (.hbuild (.ac k)) = none ↔ 3 < k) ∧ (assembleWords (.dsel (.ac k)) = none ↔ 3 < k)) ∧
  (∀ t : Slot, let name := if t.val < 4 then SlotName.dc t.val else SlotName.ac (t.val - 4)
    assembleWords (.hbuild name) = some [encode (.hbuild t)] ∧
      assembleWords (.dsel name) = some [encode (.dsel t)]) ∧
  (∀ l : Source, l.wellFormed = false → assembleWords l = none)

/-- R91: the expansions of the pseudo-instructions. -/
def Obligations.PseudoInstructionsExpand : Prop :=
  (∀ t counts syms, Source.wellFormed (.htable t counts syms) = true →
    ∃ cs, assemble (.htable t counts syms) =
        some ([.hclr] ++ cs ++ syms.map (fun v => .hsym (BitVec.ofNat 8 v)) ++ [.hbuild (slotOf t)]) ∧
      cs = (List.finRange 16).filterMap (fun L =>
        if counts[L.val]?.getD 0 = 0 then none
        else some (.hcnt L (BitVec.ofNat 8 (counts[L.val]?.getD 0))))) ∧
  (∀ bytes, Source.wellFormed (.dfeed bytes) = true →
    assemble (.dfeed bytes) = some (bytes.map (fun b => .dbyte (BitVec.ofNat 8 b)))) ∧
  assemble .ddrain = some [.ddec 0#8] ∧ assemble .drstf = some [.drst true] ∧
  (∀ vs, Source.wellFormed (.zload vs) = true →
    assemble (.zload vs) = some (.zclr :: vs.map (fun v => .zpush (BitVec.ofNat 16 v))))

/-! ### The Huffman builder -/

/-- R101: HCLR, with its frame. -/
def Obligations.HclrClearsTheStagedTable : Prop :=
  ∀ s : State, exec .hclr s =
    .next { s with hcount := Vector.replicate 16 0#8, symcnt := 0, hpoison := false, ci := s.ci + 1 }

/-- R102, R83: HCNT L, n writes HCOUNT[L − 1] and nothing else; SUMCNT changes with it. -/
def Obligations.HcntSetsOneCount : Prop :=
  ∀ (s : State) (l4 : Fin 16) (n : Byte), ∃ t, exec (.hcnt l4 n) s = .next t ∧
    t = { s with hcount := t.hcount, ci := s.ci + 1 } ∧ t.hcount[l4] = n ∧
    (∀ j : Fin 16, j ≠ l4 → t.hcount[j] = s.hcount[j]) ∧
    sumcnt t + s.hcount[l4].toNat = sumcnt s + n.toNat

/-- R103: HSYM appends while SYMBUF has room, and otherwise drops the symbol, poisons the table and
raises SYMBUF_OVERFLOW. -/
def Obligations.HsymAppendsOrPoisons : Prop :=
  (∀ (s : State) (v : Byte) (h : s.symcnt.val < 256),
    exec (.hsym v) s =
      .next { s with
        symbuf := s.symbuf.set s.symcnt.val v
        symcnt := ⟨s.symcnt.val + 1, by omega⟩
        ci := s.ci + 1 }) ∧
  (∀ (s : State) (v : Byte), s.symcnt.val = 256 →
    exec (.hsym v) s =
      .next { raise .symbufOverflow (v.setWidth 32) s with hpoison := true, ci := s.ci + 1 })

/-- R112 step 1, R250: a rebuild of the bound slot mid-code raises CURSOR_INVALIDATED with the cursor as
it was, kills the pass and resets the cursor; the rest is the HBUILD of the state this leaves. -/
def Obligations.HbuildInvalidatesACursorMidCode : Prop :=
  ∀ (s : State) (t : Slot), MidCode t s →
    exec (.hbuild t) s =
      exec (.hbuild t)
        { raise .cursorInvalidated (infoCursor t s.cdepth s.cpath) s with
          ddead := true, cdepth := 0, cpath := 0#16 }

/-- R112 step 2, R207: a poisoned table, or one of more than 256 symbols, raises TOTAL_GT_256; otherwise
a number of symbols that is not SUMCNT raises SYM_COUNT_MISMATCH. Either empties the slot. -/
def Obligations.HbuildRefusesABadCodeLengthTable : Prop :=
  (∀ (s : State) (t : Slot), ¬ MidCode t s → (s.hpoison = true ∨ 256 < sumcnt s) →
    exec (.hbuild t) s =
      .next { raise .totalGt256 (infoTotal t s.hpoison (sumcnt s)) s with
        tree := s.tree.set t none
        hcount := Vector.replicate 16 0#8
        symcnt := 0
        hpoison := false
        ci := s.ci + 1 }) ∧
  (∀ (s : State) (t : Slot), ¬ MidCode t s → s.hpoison = false → sumcnt s ≤ 256 →
    s.symcnt.val ≠ sumcnt s →
    exec (.hbuild t) s =
      .next { raise .symCountMismatch (infoMismatch t (sumcnt s) s.symcnt) s with
        tree := s.tree.set t none
        hcount := Vector.replicate 16 0#8
        symcnt := 0
        hpoison := false
        ci := s.ci + 1 })

/-- R112, R113, R114, R115: a staged table within the Kraft inequality builds. The slot then holds a tree
of the shape R28 gives, with SUMCNT leaves, SYMBUF[k] at its canonical code, and nothing else changes
but the discarded staging. -/
def Obligations.HbuildBuildsTheCanonicalCode : Prop :=
  ∀ (s : State) (t : Slot), ¬ MidCode t s → Staged s → kraftSum s.hcount ≤ 65536 →
    ∃ root, exec (.hbuild t) s =
        .next { s with
          tree := s.tree.set t (some root)
          hcount := Vector.replicate 16 0#8
          symcnt := 0
          hpoison := false
          ci := s.ci + 1 } ∧
      storedTree root = true ∧ leafCount root = sumcnt s ∧
      ∀ (k : Nat) (hk : k < 256), k < sumcnt s →
        ∃ code, canonicalCode s.hcount k = some code ∧ walk root code = some (.leaf s.symbuf[k])

/-- R115: a staged table builds exactly when it is within the Kraft inequality. Beyond it, placement fails
at the length and the symbol index the rule computes, the first symbol whose canonical code needs more
bits than its length; NO_SLOT is raised and the slot emptied. -/
def Obligations.HbuildSucceedsExactlyWithinKraft : Prop :=
  ∀ (s : State) (t : Slot), ¬ MidCode t s → Staged s →
    ((∃ u, exec (.hbuild t) s = .next u ∧ u.tree[t].isSome = true) ↔ kraftSum s.hcount ≤ 65536) ∧
    (65536 < kraftSum s.hcount →
      ∃ (L k : Nat) (hk : k < 256), 1 ≤ L ∧ L ≤ 16 ∧ 2 ^ L < kraftUpTo s.hcount L ∧
        (∀ M, 1 ≤ M → M < L → kraftUpTo s.hcount M ≤ 2 ^ M) ∧
        k = symbolsUpTo s.hcount (L - 1) + 2 ^ L - 2 * kraftUpTo s.hcount (L - 1) ∧
        (codeLengths s.hcount)[k]? = some L ∧ (canonicalCodes s.hcount)[k]? = some (2 ^ L) ∧
        (∀ j, j < k → ∃ code len, (canonicalCodes s.hcount)[j]? = some code ∧
          (codeLengths s.hcount)[j]? = some len ∧ code < 2 ^ len) ∧
        exec (.hbuild t) s =
          .next { raise .noSlot (infoNoSlot t L k s.symbuf[k]) s with
            tree := s.tree.set t none
            hcount := Vector.replicate 16 0#8
            symcnt := 0
            hpoison := false
            ci := s.ci + 1 })

/-- R72: every HBUILD completes, leaves the other slots alone, and either publishes a whole tree or empties
the slot; it empties it exactly when it raised a builder error. -/
def Obligations.HbuildPublishesOrEmpties : Prop :=
  ∀ (s : State) (t : Slot), ∃ u evs, exec (.hbuild t) s = .next u ∧ u.out = s.out ++ evs ∧
    (∀ t' : Slot, t' ≠ t → u.tree[t'] = s.tree[t']) ∧
    (∀ root, u.tree[t] = some root → storedTree root = true ∧ leafCount root = sumcnt s) ∧
    (u.tree[t] = none ↔ ∃ code info, .err code info ∈ evs ∧
      (code = .totalGt256 ∨ code = .symCountMismatch ∨ code = .noSlot))

/-- R254: "every HBUILD clears HCOUNT, SYMCNT and HPOISON, and every ZRUN clears ZCNT and ZPOISON, whether
or not it succeeded." -/
def Obligations.StagedInputsAreConsumed : Prop :=
  (∀ (s : State) (t : Slot), ∃ u, exec (.hbuild t) s = .next u ∧
    u.hcount = Vector.replicate 16 0#8 ∧ u.symcnt.val = 0 ∧ u.hpoison = false ∧ u.symbuf = s.symbuf) ∧
  (∀ (s : State) (q : QSlot), ∃ u, exec (.zrun q) s = .next u ∧
    u.zcnt.val = 0 ∧ u.zpoison = false ∧ u.zin = s.zin)

/-- R113: the tree a successful HBUILD stores. Every `Interior` lies at depth 15 or less and, but for the
root, has a leaf below it (a, e); SYMBUF[k] lies at the depth of its length (b); no leaf's path is a
prefix of another's (c); there are SUMCNT leaves (d). -/
def Obligations.HbuildStoresAProperCode : Prop :=
  ∀ (s u : State) (t : Slot) (root : Node), exec (.hbuild t) s = .next u → u.tree[t] = some root →
    (∃ c0 c1, root = .interior c0 c1) ∧
    (∀ p c0 c1, walk root p = some (.interior c0 c1) →
      p.length ≤ 15 ∧ (p ≠ [] → ∃ q v, walk root (p ++ q) = some (.leaf v))) ∧
    (∀ (k : Nat) (hk : k < 256), k < sumcnt s →
      ∃ p, (codeLengths s.hcount)[k]? = some p.length ∧ walk root p = some (.leaf s.symbuf[k])) ∧
    (∀ p q v w, walk root p = some (.leaf v) → walk root (p ++ q) = some (.leaf w) → q = []) ∧
    leafCount root = sumcnt s

/-- R117: the leaves and `Interior` nodes of the tree a successful HBUILD stores, and the bounds for any
tree a slot may hold. -/
def Obligations.StoredTreesFitTheStorageBound : Prop :=
  (∀ (s u : State) (t : Slot) (root : Node), exec (.hbuild t) s = .next u → u.tree[t] = some root →
    leafCount root ≤ sumcnt s ∧ sumcnt s ≤ 256 ∧
    interiorCount root ≤ 1 + ((codeLengths s.hcount).map (· - 1)).sum ∧
    1 + ((codeLengths s.hcount).map (· - 1)).sum ≤ 3841) ∧
  (∀ root : Node, storedTree root = true → leafCount root ≤ 256 ∧ interiorCount root ≤ 3841)

/-- R116: any bit string fed to a stored tree from the root reaches a leaf or a missing child within 16
bits, through `Interior` nodes only. -/
def Obligations.WalksEndWithinSixteenBits : Prop :=
  ∀ (root : Node) (bits : List Bool), storedTree root = true → bits.length = 16 →
    ∃ d, 1 ≤ d ∧ d ≤ 16 ∧
      ((∃ v, walk root (bits.take d) = some (.leaf v)) ∨ walk root (bits.take d) = some .empty) ∧
      ∀ e, e < d → ∃ c0 c1, walk root (bits.take e) = some (.interior c0 c1)

/-! ### The decoder -/

/-- R131: DSEL, with its frame; "DSEL to the slot already bound acts as DRST 0". -/
def Obligations.DselBindsTheCursor : Prop :=
  ∀ (s : State) (t : Slot),
    exec (.dsel t) s =
      .next { s with
        dbound := true, dslot := t, cdepth := 0, cpath := 0#16, ddead := false, dstarved := false
        ci := s.ci + 1 } ∧
    (s.dbound = true → s.dslot = t → exec (.dsel t) s = exec (.drst false) s)

/-- R132: DRST 0 and DRST 1, with their frames. -/
def Obligations.DrstRestartsThePass : Prop :=
  (∀ s : State, exec (.drst false) s =
    .next { s with cdepth := 0, cpath := 0#16, ddead := false, dstarved := false, ci := s.ci + 1 }) ∧
  (∀ s : State, exec (.drst true) s =
    .next { s with
      cdepth := 0, cpath := 0#16, ddead := false, dstarved := false, bitbuf := [], ci := s.ci + 1 })

/-- R64, R133, R252: DBYTE appends the byte's bits, most significant first, if they fit BITCAP, and
otherwise drops the byte whole and raises BITBUF_OVERFLOW. -/
def Obligations.DbyteAppendsOrDrops : Prop :=
  (∀ (s : State) (b : Byte), bitcnt s + 8 ≤ s.cfg.bitcap → ∃ bits, exec (.dbyte b) s =
      .next { s with bitbuf := s.bitbuf ++ bits, ci := s.ci + 1 } ∧
    bits.length = 8 ∧ ∀ j : Fin 8, bits[j.val]? = some (b.getLsbD (7 - j.val))) ∧
  (∀ (s : State) (b : Byte), s.cfg.bitcap < bitcnt s + 8 → exec (.dbyte b) s =
    .next { raise .bitbufOverflow (0#8 ++ BitVec.ofNat 16 (bitcnt s) ++ b) s with ci := s.ci + 1 })

/-- R135, R207: on a dead pass DDEC raises PASS_DEAD, whatever the table; on a live one with no table
bound it raises NO_TABLE. Both first clear NEMIT and DSTARVED. -/
def Obligations.DdecRefusesADeadPassOrNoTable : Prop :=
  (∀ (s : State) (n : Byte), s.ddead = true → exec (.ddec n) s =
    .next { raise .passDead (infoDead s.dslot) s with nemit := 0, dstarved := false, ci := s.ci + 1 }) ∧
  (∀ (s : State) (n : Byte), s.ddead = false → (s.dbound = false ∨ s.tree[s.dslot] = none) →
    exec (.ddec n) s =
      .next { raise .noTable (infoNoTable s.dslot s.dbound) s with
        nemit := 0, dstarved := false, ci := s.ci + 1 })

/-- R85, R134, R135, R138, R139: what DDEC reads on a live pass, from wherever the cursor stands. The bits of the
partial code and of BITBUF are some whole codes of the bound tree and a rest, and the codes' symbols are
emitted in order. A budget of as many symbols stops there. A greater budget, or a drain, goes on: a rest
that leads to an `Interior` is kept as the partial code with DSTARVED, and one that selects `Empty` ends the
pass with INCOMPLETE_TREE after the symbols. Every bit string is some codes and such a rest. -/
def Obligations.DdecEmitsTheSymbolsOfItsCodes : Prop :=
  (∀ (s : State) (root : Node) (codes : List (List Bool × Byte)) (rest : List Bool) (n : Byte),
    Decoding root s → storedTree root = true → s.cpath.toNat < 2 ^ s.cdepth.val →
    (∃ c0 c1, cursorNode root s = some (.interior c0 c1)) →
    (∀ c ∈ codes, walk root c.1 = some (.leaf c.2)) →
    pathBits s.cpath.toNat s.cdepth.val ++ s.bitbuf = codes.flatMap (·.1) ++ rest →
    let t := { s with
      symout := (codes.getLast?.map (·.2)).getD s.symout
      symv := s.symv || !codes.isEmpty
      nemit := codes.length
      dstarved := false
      out := s.out ++ codes.map (fun c => .sym s.dslot c.2)
      ci := s.ci + 1 }
    (n.toNat ≠ 0 → n.toNat = codes.length →
      exec (.ddec n) s = .next { t with bitbuf := rest, cdepth := 0, cpath := 0#16 }) ∧
    ((n.toNat = 0 ∨ codes.length < n.toNat) →
      (∀ c0 c1, walk root rest = some (.interior c0 c1) → ∃ h : rest.length < 16,
        exec (.ddec n) s = .next { t with
          bitbuf := []
          cdepth := ⟨rest.length, h⟩
          cpath := BitVec.ofNat 16 (pathNumber rest)
          dstarved := true }) ∧
      (∀ q b tail, rest = q ++ b :: tail → walk root (q ++ [b]) = some .empty →
        exec (.ddec n) s =
          .next { raise .incompleteTree
              (infoIncomplete s.dslot (q.length + 1) (BitVec.ofNat 16 (pathNumber (q ++ [b])))) t with
            bitbuf := tail
            ddead := true
            cdepth := 0
            cpath := 0#16 }))) ∧
  (∀ (root : Node) (bits : List Bool), storedTree root = true →
    ∃ (codes : List (List Bool × Byte)) (rest : List Bool), bits = codes.flatMap (·.1) ++ rest ∧
      (∀ c ∈ codes, walk root c.1 = some (.leaf c.2)) ∧
      ((∃ c0 c1, walk root rest = some (.interior c0 c1)) ∨
        ∃ q b tail, rest = q ++ b :: tail ∧ walk root (q ++ [b]) = some .empty))

/-- R139: bits that lead from the cursor to an `Interior` are kept as a partial code, with DSTARVED and no
error. Without bits this is R135's first corner case. -/
def Obligations.DdecKeepsAPartialCode : Prop :=
  ∀ (s : State) (root c0 c1 : Node) (n : Byte) (h : s.cdepth.val + s.bitbuf.length < 16),
    Decoding root s → s.cpath.toNat < 2 ^ s.cdepth.val →
    walk root (pathBits s.cpath.toNat s.cdepth.val ++ s.bitbuf) = some (.interior c0 c1) →
    exec (.ddec n) s =
      .next { s with
        bitbuf := []
        cdepth := ⟨s.cdepth.val + s.bitbuf.length, h⟩
        cpath := BitVec.ofNat 16 (pathNumber (pathBits s.cpath.toNat s.cdepth.val ++ s.bitbuf))
        nemit := 0
        dstarved := true
        ci := s.ci + 1 }

/-- R134, R137: a bit that selects `Empty` is consumed, the pass is dead, the cursor at the root and the
tree unchanged; INCOMPLETE_TREE holds the failing depth and path, that bit included. -/
def Obligations.DdecEndsAtAMissingChild : Prop :=
  ∀ (s : State) (root : Node) (n : Byte) (q rest : List Bool) (b : Bool),
    Decoding root s → s.cpath.toNat < 2 ^ s.cdepth.val → s.cdepth.val + q.length < 16 →
    s.bitbuf = q ++ b :: rest →
    walk root (pathBits s.cpath.toNat s.cdepth.val ++ q ++ [b]) = some .empty →
    exec (.ddec n) s =
      .next { raise .incompleteTree
          (infoIncomplete s.dslot (s.cdepth.val + q.length + 1)
            (BitVec.ofNat 16 (pathNumber (pathBits s.cpath.toNat s.cdepth.val ++ q ++ [b])))) s with
        bitbuf := rest
        ddead := true
        cdepth := 0
        cpath := 0#16
        nemit := 0
        dstarved := false
        ci := s.ci + 1 }

/-- R139: a drain that no error stops ends with the bits used up and DSTARVED, and a code split between two
drains "decodes as if the bits had arrived together". -/
def Obligations.SplitBitsDecodeAsIfTogether : Prop :=
  ∀ (s t1 t2 : State) (root : Node) (xs ys : List Bool),
    Decoding root s →
    exec (.ddec 0#8) { s with bitbuf := xs } = .next t1 → t1.ddead = false →
    t1.bitbuf = [] ∧ t1.dstarved = true ∧ t1.err = s.err ∧ t1.errinfo = s.errinfo ∧
    (exec (.ddec 0#8) { t1 with bitbuf := ys } = .next t2 →
      exec (.ddec 0#8) { s with bitbuf := xs ++ ys } =
        .next { t2 with nemit := t1.nemit + t2.nemit, ci := s.ci + 1 })

/-- R142: the round trip. A tree a successful HBUILD stored, bound with the cursor at the root, decodes the
concatenation of canonical codes to the symbols they belong to, and consumes exactly their bits. -/
def Obligations.BuiltTableRoundTrip : Prop :=
  ∀ (s u v : State) (t : Slot) (ks : List (Fin 256)) (codes : List (List Bool)) (rest : List Bool) (m : Byte),
    ¬ MidCode t s → Staged s → exec (.hbuild t) s = .next u → u.tree[t].isSome = true →
    v.tree[t] = u.tree[t] → v.dbound = true → v.dslot = t → v.ddead = false → v.cdepth.val = 0 →
    ks.map (fun k => canonicalCode s.hcount k.val) = codes.map some →
    m.toNat = ks.length → ks ≠ [] → v.bitbuf = codes.flatten ++ rest →
    ∃ w, exec (.ddec m) v = .next w ∧ w.out = v.out ++ ks.map (fun k => .sym t s.symbuf[k]) ∧
      w.bitbuf = rest ∧ w.cdepth.val = 0 ∧ w.ddead = false

/-- R33, R34, R35, R134, R135, R206, R207, R261: in every state of the invariant DDEC completes. It emits
symbols of the bound slot and then raises at most one error; it takes its bits from the head of BITBUF; it
stops at its budget, at the end of the bits, or at an error; and it changes nothing but the decoder's
elements, OUT and the error record. The symbols are those of the bound tree's codes that the bits read
make up, and what they leave is the new partial code, or the path to the missing child. -/
def Obligations.DdecCompletesAndStopsForAReason : Prop :=
  ∀ (s : State) (n : Byte), Inv s → ∃ t used vs errs, exec (.ddec n) s = .next t ∧
    t = { s with
      bitbuf := t.bitbuf, symout := t.symout, symv := t.symv, nemit := t.nemit, dstarved := t.dstarved
      ddead := t.ddead, cdepth := t.cdepth, cpath := t.cpath, out := t.out, err := t.err
      errinfo := t.errinfo, ci := s.ci + 1 } ∧
    s.bitbuf = used ++ t.bitbuf ∧ t.out = s.out ++ vs.map (.sym s.dslot) ++ errs ∧
    t.nemit = vs.length ∧ vs.length ≤ used.length ∧ (n.toNat ≠ 0 → vs.length ≤ n.toNat) ∧
    t.symout = vs.getLast?.getD s.symout ∧ t.symv = (s.symv || vs != []) ∧
    (∀ root, boundTree s = some root → s.ddead = false →
      ∃ (codes : List (List Bool × Byte)) (left : List Bool), codes.map (·.2) = vs ∧
        (∀ c ∈ codes, walk root c.1 = some (.leaf c.2)) ∧
        pathBits s.cpath.toNat s.cdepth.val ++ used = codes.flatMap (·.1) ++ left ∧
        (t.ddead = false → pathBits t.cpath.toNat t.cdepth.val = left) ∧
        (t.ddead = true → walk root left = some .empty)) ∧
    ((errs = [] ∧ t.ddead = s.ddead ∧ t.dstarved = true ∧ t.bitbuf = []) ∨
      (errs = [] ∧ t.ddead = s.ddead ∧ t.dstarved = false ∧ n.toNat ≠ 0 ∧ vs.length = n.toNat) ∨
      ((∃ info, errs = [.err .incompleteTree info]) ∧ t.ddead = true ∧ t.dstarved = false ∧
        t.cdepth.val = 0) ∨
      ((∃ code info, errs = [.err code info] ∧ (code = .passDead ∨ code = .noTable)) ∧
        vs = [] ∧ used = [] ∧ t.dstarved = false ∧ t.ddead = s.ddead ∧ t.cdepth = s.cdepth ∧
        t.cpath = s.cpath))

/-! ### The zig-zag reorder -/

/-- R160, R161: ZZ is what the walk produces at 8×8, and a bijection. -/
def Obligations.ZigZagTableIsTheWalk : Prop :=
  (zigzagWalk 8 8).length = 64 ∧
  (∀ k : Fin 64, (zigzagWalk 8 8)[k.val]? =
    some ((((zz k).val / 8 : Nat) : Int), (((zz k).val % 8 : Nat) : Int))) ∧
  (∀ j k : Fin 64, zz j = zz k → j = k)

/-- R167: the anti-diagonals of the table and the direction each is walked in. -/
def Obligations.ZigZagDiagonals : Prop :=
  ∀ k : Fin 64, let r := (zz k).val / 8; let c := (zz k).val % 8; let d := r + c
    (d ≤ 7 → d * (d + 1) / 2 ≤ k.val ∧ k.val ≤ d * (d + 1) / 2 + d) ∧
    (8 ≤ d → 64 - (15 - d) * (16 - d) / 2 ≤ k.val ∧ k.val < 64 - (14 - d) * (15 - d) / 2) ∧
    (∀ k' : Fin 64, k'.val = k.val + 1 → (zz k').val / 8 + (zz k').val % 8 = d →
      if d % 2 = 0 then (zz k').val / 8 + 1 = r else (zz k').val / 8 = r + 1)

/-- R162: ZCLR, with its frame. -/
def Obligations.ZclrClearsTheFlatInput : Prop :=
  ∀ s : State, exec .zclr s = .next { s with zcnt := 0, zpoison := false, ci := s.ci + 1 }

/-- R163: ZPUSH appends while ZIN has room, and otherwise drops the value, poisons the input and raises
ZZ_OVERFLOW. -/
def Obligations.ZpushAppendsOrPoisons : Prop :=
  (∀ (s : State) (v : Elem) (h : s.zcnt.val < 64),
    exec (.zpush v) s =
      .next { s with
        zin := s.zin.set s.zcnt.val v
        zcnt := ⟨s.zcnt.val + 1, by omega⟩
        ci := s.ci + 1 }) ∧
  (∀ (s : State) (v : Elem), s.zcnt.val = 64 →
    exec (.zpush v) s =
      .next { raise .zzOverflow (v.setWidth 32) s with zpoison := true, ci := s.ci + 1 })

/-- R164: with 64 values and no poison ZRUN puts ZIN[k] at natural index ZZ(k) of slot q, makes it valid,
and consumes the input. On a poisoned input, and otherwise on a short one, it raises its error, writes
no block, makes the slot invalid, and still consumes the input. -/
def Obligations.ZrunPlacesOrRefuses : Prop :=
  (∀ (s : State) (q : QSlot), s.zpoison = false → s.zcnt.val = 64 →
    ∃ block : Vector Elem 64, exec (.zrun q) s =
        .next { s with
          qblk := s.qblk.set q block
          qvalid := s.qvalid.set q true
          zcnt := 0
          zpoison := false
          ci := s.ci + 1 } ∧
      ∀ k : Fin 64, block[zz k] = s.zin[k]) ∧
  (∀ (s : State) (q : QSlot), (s.zpoison = true ∨ s.zcnt.val < 64) →
    exec (.zrun q) s =
      .next { raise (if s.zpoison then .zzOverflow else .zzShort)
          (if s.zpoison then infoRun q else infoShort q s.zcnt) s with
        qvalid := s.qvalid.set q false
        zcnt := 0
        zpoison := false
        ci := s.ci + 1 })

/-- R165, R40: ZMAP writes ZZ(k) = 8·row + col to ZRES and nothing else. -/
def Obligations.ZmapTranslatesAnIndex : Prop :=
  ∀ (s : State) (k : Fin 64), exec (.zmap k) s = .next { s with zres := zz k, ci := s.ci + 1 }

/-- R166: the flat input 0, 1, …, 63 ends at the positions the source names. -/
def Obligations.ZrunOfTheCountingSequence : Prop :=
  ∀ (s t : State) (q : QSlot), s.zpoison = false → s.zcnt.val = 64 →
    (∀ k : Fin 64, s.zin[k] = BitVec.ofNat 16 k.val) → exec (.zrun q) s = .next t →
    (∀ k : Fin 64, t.qblk[q][zz k] = BitVec.ofNat 16 k.val) ∧
    t.qblk[q][0] = 0#16 ∧ t.qblk[q][1] = 1#16 ∧ t.qblk[q][8] = 2#16 ∧ t.qblk[q][2] = 5#16 ∧
    t.qblk[q][63] = 63#16

/-! ### Errors and whole-machine rules -/

/-- R180: ECLR, with its frame. -/
def Obligations.EclrClearsTheErrorRecord : Prop :=
  ∀ s : State, exec .eclr s = .next { s with err := none, errinfo := 0#32, ci := s.ci + 1 }

/-- R205, R41, R210: what recording an error writes. -/
def Obligations.RaiseRecordsTheFirstError : Prop :=
  ∀ (s : State) (code : ErrCode) (info : Word),
    (s.err = none → raise code info s =
      { s with out := s.out ++ [.err code info], err := some code, errinfo := info }) ∧
    (s.err ≠ none → raise code info s = { s with out := s.out ++ [.err code info] })

/-- R41, R49, R205, R210: OUT only grows, and over any command but ECLR the record keeps the first error:
the old one if there was one, else the first of the command's own. -/
def Obligations.TheErrorRecordKeepsTheFirstError : Prop :=
  ∀ (i : Instr) (s t : State), exec i s = .next t → ∃ evs, t.out = s.out ++ evs ∧
    (i ≠ .eclr →
      (s.err ≠ none → t.err = s.err ∧ t.errinfo = s.errinfo) ∧
      (s.err = none → ∀ code info, firstError evs = some (code, info) →
        t.err = some code ∧ t.errinfo = info) ∧
      (firstError evs = none → t.err = s.err ∧ t.errinfo = s.errinfo))

/-- R202, R207: each command raises only its own errors, at most one of them, but for HBUILD, which can
raise CURSOR_INVALIDATED before another. -/
def Obligations.CommandsRaiseTheirOwnErrors : Prop :=
  ∀ (i : Instr) (s t : State), exec i s = .next t → ∃ evs, t.out = s.out ++ evs ∧
    (∀ code info, .err code info ∈ evs → mayRaise i code = true) ∧
    errorCount evs ≤ 2 ∧
    (errorCount evs = 2 → (∃ k, i = .hbuild k) ∧ ∃ info, firstError evs = some (.cursorInvalidated, info))

/-- R201, R202: the numbers of the error codes, none of them 0, and the class in bits 7:4. -/
def Obligations.ErrorNumbersAndClasses : Prop :=
  [ErrCode.totalGt256, .symCountMismatch, .symbufOverflow, .zzShort, .zzOverflow, .noSlot,
      .incompleteTree, .decodeOnLeaf, .noTable, .passDead, .cursorInvalidated, .illegalCmd,
      .bitbufOverflow].map ErrCode.toByte =
    [0x11#8, 0x12#8, 0x13#8, 0x14#8, 0x15#8, 0x21#8, 0x31#8, 0x32#8, 0x33#8, 0x34#8, 0x35#8, 0x41#8, 0x42#8] ∧
  (∀ c d : ErrCode, c.toByte = d.toByte → c = d) ∧
  (∀ c : ErrCode, c.toByte ≠ 0#8 ∧ c.toByte.extractLsb' 4 4 ∈ [1#4, 2#4, 3#4, 4#4])

/-- R203: the fields of each information word; bits no row names are 0. -/
def Obligations.InformationWordFields : Prop :=
  (∀ (t : Slot) (p : Bool) (n : Nat), n ≤ 4080 → let w := infoTotal t p n
    (w.extractLsb' 24 8).toNat = t.val ∧ w.getLsbD 12 = p ∧ (w.extractLsb' 0 12).toNat = n ∧
      w.extractLsb' 13 11 = 0#11) ∧
  (∀ (t : Slot) (n : Nat) (m : Fin 257), n ≤ 4080 → let w := infoMismatch t n m
    (w.extractLsb' 24 8).toNat = t.val ∧ (w.extractLsb' 12 12).toNat = n ∧
      (w.extractLsb' 0 9).toNat = m.val ∧ w.extractLsb' 9 3 = 0#3) ∧
  (∀ v : Byte, infoSymbuf v = v.setWidth 32) ∧
  (∀ (q : QSlot) (n : Fin 65), let w := infoShort q n
    (w.extractLsb' 24 8).toNat = q.val ∧ (w.extractLsb' 0 7).toNat = n.val ∧ w.extractLsb' 7 17 = 0#17) ∧
  (∀ v : Elem, infoPush v = v.setWidth 32) ∧
  (∀ q : QSlot, let w := infoRun q
    (w.extractLsb' 24 8).toNat = q.val ∧ w.getLsbD 16 = true ∧ w.extractLsb' 17 7 = 0#7 ∧
      w.extractLsb' 0 16 = 0#16) ∧
  (∀ (t : Slot) (L k : Nat) (v : Byte), 1 ≤ L → L ≤ 16 → k < 256 → let w := infoNoSlot t L k v
    (w.extractLsb' 24 8).toNat = t.val ∧ (w.extractLsb' 16 4).toNat = L - 1 ∧
      (w.extractLsb' 8 8).toNat = k ∧ w.extractLsb' 0 8 = v ∧ w.extractLsb' 20 4 = 0#4) ∧
  (∀ (t : Slot) (d : Nat) (p : BitVec 16), d ≤ 16 → let w := infoIncomplete t d p
    (w.extractLsb' 24 8).toNat = t.val ∧ (w.extractLsb' 16 5).toNat = d ∧ w.extractLsb' 0 16 = p ∧
      w.extractLsb' 21 3 = 0#3) ∧
  (∀ (t : Slot) (d : Fin 16) (p : BitVec 16), let w := infoCursor t d p
    (w.extractLsb' 24 8).toNat = t.val ∧ (w.extractLsb' 16 4).toNat = d.val ∧ w.extractLsb' 0 16 = p ∧
      w.extractLsb' 20 4 = 0#4) ∧
  (∀ (t : Slot) (b : Bool), let w := infoNoTable t b
    (w.extractLsb' 24 8).toNat = t.val ∧ w.getLsbD 0 = b ∧ w.extractLsb' 1 23 = 0#23) ∧
  (∀ t : Slot, let w := infoDead t
    (w.extractLsb' 24 8).toNat = t.val ∧ w.extractLsb' 0 24 = 0#24) ∧
  (∀ w : Word, infoIllegal w = w) ∧
  (∀ (n : Nat) (b : Byte), n ≤ 65528 → let w := infoBitbuf n b
    w.extractLsb' 24 8 = 0#8 ∧ (w.extractLsb' 8 16).toNat = n ∧ w.extractLsb' 0 8 = b)

/-- R22, R24 to R27, R29, R30, R32 to R41, R49, R141: each element is written only by the commands its rule
names; a flag is set by some and cleared by others. Symbols enter OUT by DDEC alone, and the error record
changes only by ECLR or with an error that the command appends. -/
def Obligations.EveryElementHasItsWriters : Prop :=
  ∀ (i : Instr) (s t : State), exec i s = .next t →
    let hbuild := ∃ k, i = .hbuild k
    let dsel := ∃ k, i = .dsel k
    let drst := ∃ f, i = .drst f
    let ddec := ∃ n, i = .ddec n
    let zrun := ∃ q, i = .zrun q
    (t.hcount ≠ s.hcount → i = .hclr ∨ (∃ l n, i = .hcnt l n) ∨ hbuild) ∧
    (t.symbuf ≠ s.symbuf → ∃ v, i = .hsym v) ∧
    (t.symcnt ≠ s.symcnt → (∃ v, i = .hsym v) ∨ i = .hclr ∨ hbuild) ∧
    (t.hpoison ≠ s.hpoison →
      (t.hpoison = true ∧ s.symcnt.val = 256 ∧ ∃ v, i = .hsym v) ∨ (t.hpoison = false ∧ (i = .hclr ∨ hbuild))) ∧
    (t.tree ≠ s.tree → hbuild) ∧
    ((t.dbound, t.dslot) ≠ (s.dbound, s.dslot) → dsel ∧ t.dbound = true) ∧
    ((t.cdepth, t.cpath) ≠ (s.cdepth, s.cpath) → dsel ∨ drst ∨ ddec ∨ hbuild) ∧
    (t.ddead ≠ s.ddead → (t.ddead = true ∧ (ddec ∨ hbuild)) ∨ (t.ddead = false ∧ (dsel ∨ drst))) ∧
    (t.bitbuf ≠ s.bitbuf → (∃ b, i = .dbyte b) ∨ ddec ∨ i = .drst true) ∧
    ((t.symout, t.nemit) ≠ (s.symout, s.nemit) → ddec) ∧
    (t.symv ≠ s.symv → ddec ∧ t.symv = true) ∧
    (t.dstarved ≠ s.dstarved → ddec ∨ (t.dstarved = false ∧ (dsel ∨ drst))) ∧
    (t.zin ≠ s.zin → ∃ v, i = .zpush v) ∧
    (t.zcnt ≠ s.zcnt → (∃ v, i = .zpush v) ∨ i = .zclr ∨ zrun) ∧
    (t.zpoison ≠ s.zpoison →
      (t.zpoison = true ∧ s.zcnt.val = 64 ∧ ∃ v, i = .zpush v) ∨ (t.zpoison = false ∧ (i = .zclr ∨ zrun))) ∧
    ((t.qblk, t.qvalid) ≠ (s.qblk, s.qvalid) → zrun) ∧
    (t.zres ≠ s.zres → ∃ k, i = .zmap k) ∧
    ∃ evs, t.out = s.out ++ evs ∧ (∀ k v, .sym k v ∈ evs → ddec) ∧
      ((t.err, t.errinfo) ≠ (s.err, s.errinfo) → i = .eclr ∨ ∃ code info, .err code info ∈ evs)

/-- R136: in the states of the invariant no step raises DECODE_ON_LEAF, and no run from reset does. -/
def Obligations.DecodeOnLeafIsNeverRaised : Prop :=
  (∀ s t : State, Inv s → step s = .next t →
    ∃ evs, t.out = s.out ++ evs ∧ ∀ info, .err .decodeOnLeaf info ∉ evs) ∧
  (∀ (c : Config) (ws : List Word) (t : State), runOf ws (State.resetAt c) = .next t →
    ∀ info, .err .decodeOnLeaf info ∉ t.out)

/-! ### The host's view -/

/-- R68, R48: a host read changes nothing but the model's own draw counter (notes/assumptions/2.md), and a
specified entry reads the same again, whatever is read in between. -/
def Obligations.HostReadsHaveNoSideEffect : Prop :=
  ∀ (s : State) (a b : ReadAddr),
    (hostRead a s).2 = { s with draws := s.draws + 1 } ∧
    (specifiedRead b s = true → (hostRead b (hostRead a s).2).1 = (hostRead b s).1)

/-- R42: the fields of STATUS, and its reset value. -/
def Obligations.StatusRegisterFields : Prop :=
  (hostRead 0x000#10 State.reset).1 = 0#32 ∧ ∀ s : State, let w := (hostRead 0x000#10 s).1
    w.extractLsb' 0 8 = errByte s ∧ w.getLsbD 8 = s.ddead ∧ w.getLsbD 9 = s.dstarved ∧
    w.getLsbD 10 = s.symv ∧ w.getLsbD 11 = s.hpoison ∧ w.getLsbD 12 = s.zpoison ∧
    w.extractLsb' 13 19 = 0#19

/-- R43 to R47: the fields of the other registers, in the states of the invariant, where NEMIT and BITCNT
fit their 16 bits; and what they read after reset. -/
def Obligations.RegisterMapFields : Prop :=
  (∀ a : ReadAddr, 1 ≤ a.toNat → a.toNat ≤ 8 → (hostRead a State.reset).1 = 0#32) ∧
  (hostRead 0x00A#10 State.reset).1 = 0x00000100#32 ∧
  ∀ s : State, Inv s → let r := fun a => (hostRead a s).1
    r 0x001#10 = s.errinfo ∧
    ((r 0x002#10).extractLsb' 0 8 = s.symout ∧ ((r 0x002#10).extractLsb' 16 16).toNat = s.nemit ∧
      (r 0x002#10).extractLsb' 8 8 = 0#8) ∧
    (((r 0x003#10).extractLsb' 0 3).toNat = s.dslot.val ∧ (r 0x003#10).getLsbD 3 = s.dbound ∧
      ((r 0x003#10).extractLsb' 8 4).toNat = s.cdepth.val ∧ (r 0x003#10).extractLsb' 16 16 = s.cpath ∧
      (r 0x003#10).extractLsb' 4 4 = 0#4 ∧ (r 0x003#10).extractLsb' 12 4 = 0#4) ∧
    (r 0x004#10).toNat = bitcnt s ∧
    ((∀ t : Slot, (r 0x005#10).getLsbD t.val = s.tree[t].isSome) ∧
      (r 0x005#10).extractLsb' 8 24 = 0#24) ∧
    (((r 0x006#10).extractLsb' 0 9).toNat = s.symcnt.val ∧
      ((r 0x006#10).extractLsb' 16 12).toNat = sumcnt s ∧ (r 0x006#10).extractLsb' 9 7 = 0#7 ∧
      (r 0x006#10).extractLsb' 28 4 = 0#4) ∧
    (((r 0x007#10).extractLsb' 0 7).toNat = s.zcnt.val ∧
      (∀ q : QSlot, (r 0x007#10).getLsbD (8 + q.val) = s.qvalid[q]) ∧ (r 0x007#10).getLsbD 7 = false ∧
      (r 0x007#10).extractLsb' 12 20 = 0#20) ∧
    ((r 0x008#10).toNat = s.zres.val ∧ ((r 0x008#10).extractLsb' 3 3).toNat = s.zres.val / 8 ∧
      ((r 0x008#10).extractLsb' 0 3).toNat = s.zres.val % 8) ∧
    r 0x009#10 = 0x48435401#32 ∧ (r 0x00A#10).toNat = s.cfg.bitcap

/-- R48: the array windows, zero-extended, and the three kinds of read whose data bits are unspecified: of
those only the zero extension is known. -/
def Obligations.ArrayWindows : Prop :=
  ∀ s : State,
    (∀ i : Fin 16, readWord (BitVec.ofNat 10 (0x010 + i.val)) s = s.hcount[i].setWidth 32) ∧
    (∀ i : Fin 64, let w := readWord (BitVec.ofNat 10 (0x040 + i.val)) s
      w.extractLsb' 16 16 = 0#16 ∧ (i.val < s.zcnt.val → w = s.zin[i].setWidth 32)) ∧
    (∀ i : Fin 256, let w := readWord (BitVec.ofNat 10 (0x100 + i.val)) s
      w.extractLsb' 8 24 = 0#24 ∧ (i.val < s.symcnt.val → w = s.symbuf[i].setWidth 32)) ∧
    (∀ (q : QSlot) (n : Fin 64), let w := readWord (BitVec.ofNat 10 (0x200 + 64 * q.val + n.val)) s
      w.extractLsb' 16 16 = 0#16 ∧ (s.qvalid[q] = true → w = s.qblk[q][n].setWidth 32))

/-- R61: every address outside R42 to R48 reads 0. -/
def Obligations.ReservedAddressesReadZero : Prop :=
  ∀ (s : State) (a : ReadAddr),
    (0x00B ≤ a.toNat ∧ a.toNat < 0x010) ∨ (0x020 ≤ a.toNat ∧ a.toNat < 0x040) ∨
      (0x080 ≤ a.toNat ∧ a.toNat < 0x100) ∨ 0x300 ≤ a.toNat →
    readWord a s = 0#32

/-! ### The invariant and whole runs -/

/-- The invariant holds after reset, for HCT-1 and for any BITCAP (notes/assumptions/1.md), and after the
reset input (R240). -/
def Obligations.ResetMeetsTheInvariant : Prop :=
  Inv State.reset ∧ (∀ c, Inv (State.resetAt c)) ∧ ∀ s, Inv (resetInput s)

/-- R28, R30, R31, R33, R113, R141: every step keeps the invariant. -/
def Obligations.EveryStepKeepsTheInvariant : Prop :=
  ∀ s t : State, Inv s → step s = .next t → Inv t

/-- R136, R200, R261: in the states of the invariant every command, and every step, answers a next state:
no fault of the model is ever reached. -/
def Obligations.NoStepStopsTheMachine : Prop :=
  ∀ s : State, Inv s → (∀ i, ∃ t, exec i s = .next t) ∧ ∃ t, step s = .next t

/-- R21, R261, R262: from every state of the invariant every finite run of command words, legal or not,
completes; CI has then advanced by their number, and the invariant holds. -/
def Obligations.EveryRunCompletes : Prop :=
  ∀ (s : State) (ws : List Word), Inv s →
    ∃ t, runOf ws s = .next t ∧ t.ci = s.ci + ws.length ∧ Inv t
end

