-- ==== Sys2Proof/Laws/Tree.lean ====
section
/-! SUPPORT. What placement (R110) does to a tree: it fills the tree from the left. `weight p N` is the
number of code values of length p that the leaves below N take up, and `Packed p N` says that they
take up the lowest ones. -/

namespace Sys2Proof.Machine

/-! ### Bit strings -/

@[simp] theorem pathBits_length (path d : Nat) : (pathBits path d).length = d := by
  induction d with
  | zero => rfl
  | succ d ih => simp [pathBits, ih]

/-- Only the low `d` bits of a number are read. -/
theorem pathBits_add_pow (path d : Nat) : pathBits (2 ^ d + path) d = pathBits path d := by
  suffices h : ∀ e, e ≤ d → pathBits (2 ^ d + path) e = pathBits path e from h d le_rfl
  intro e he
  induction e with
  | zero => rfl
  | succ e ih =>
    simp only [pathBits, ih (by omega), List.cons.injEq, and_true]
    exact Nat.testBit_two_pow_add_gt (by omega) path

theorem pathBits_succ_of_lt {path d : Nat} (h : path < 2 ^ d) :
    pathBits path (d + 1) = false :: pathBits path d := by
  simp [pathBits, Nat.testBit_lt_two_pow h]

theorem pathBits_succ_add_pow {path d : Nat} (h : path < 2 ^ d) :
    pathBits (2 ^ d + path) (d + 1) = true :: pathBits path d := by
  rw [pathBits, pathBits_add_pow]
  simp [Nat.testBit_two_pow_add_eq, Nat.testBit_lt_two_pow h]

/-! ### Walks -/

@[simp] theorem walk_nil (N : Node) : walk N [] = some N := by cases N <;> rfl

@[simp] theorem walk_interior_cons (a b : Node) (i : Bool) (p : List Bool) :
    walk (.interior a b) (i :: p) = walk (if i then b else a) p := rfl

@[simp] theorem walk_leaf_cons (v : Byte) (i : Bool) (p : List Bool) : walk (.leaf v) (i :: p) = none := rfl

@[simp] theorem walk_empty_cons (i : Bool) (p : List Bool) : walk .empty (i :: p) = none := rfl

/-- A walk along p ++ q is the walk along q from where p leads. -/
theorem walk_append (N : Node) (p q : List Bool) : walk N (p ++ q) = (walk N p).bind (walk · q) := by
  induction p generalizing N with
  | nil => simp
  | cons i p ih => cases N <;> simp [ih]

/-! ### Weight and packing -/

/-- The number of codes of length p that the leaves below a node take up. -/
def weight : Nat → Node → Nat
  | p, .leaf _ => 2 ^ p
  | _, .empty => 0
  | 0, .interior _ _ => 0
  | p + 1, .interior a b => weight p a + weight p b

/-- A node below the root is packed in p levels: child 1 exists only beside a child 0 that is full, every
`Interior` has a child 0, and no `Interior` stands p or more levels down. -/
def Packed : Nat → Node → Prop
  | _, .leaf _ => True
  | _, .empty => True
  | 0, .interior _ _ => False
  | p + 1, .interior a b => a ≠ .empty ∧ Packed p a ∧ Packed p b ∧ (b = .empty ∨ weight p a = 2 ^ p)

/-- A root is packed: it is the fresh `Interior(Empty, Empty)` or packed as any other node. -/
def PackedRoot (p : Nat) (N : Node) : Prop :=
  N = freshInterior ∨ ∃ a b, N = .interior a b ∧ Packed p N

@[simp] theorem weight_empty (p : Nat) : weight p .empty = 0 := by cases p <;> rfl

@[simp] theorem weight_leaf (p : Nat) (v : Byte) : weight p (.leaf v) = 2 ^ p := by cases p <;> rfl

@[simp] theorem weight_interior (p : Nat) (a b : Node) :
    weight (p + 1) (.interior a b) = weight p a + weight p b := rfl

@[simp] theorem weight_fresh (p : Nat) : weight p freshInterior = 0 := by cases p <;> simp [freshInterior, weight]

@[simp] theorem packed_empty (p : Nat) : Packed p .empty := by cases p <;> trivial

@[simp] theorem packed_leaf (p : Nat) (v : Byte) : Packed p (.leaf v) := by cases p <;> trivial

@[simp] theorem not_packed_zero (a b : Node) : ¬ Packed 0 (.interior a b) := fun h => h

theorem packed_interior {p : Nat} {a b : Node} :
    Packed (p + 1) (.interior a b) ↔
      a ≠ .empty ∧ Packed p a ∧ Packed p b ∧ (b = .empty ∨ weight p a = 2 ^ p) := Iff.rfl

theorem packed_weight_le {p : Nat} {N : Node} (h : Packed p N) : weight p N ≤ 2 ^ p := by
  induction p generalizing N with
  | zero => cases N <;> simp_all [weight]
  | succ p ih =>
    cases N with
    | leaf v => simp
    | empty => simp
    | interior a b =>
      obtain ⟨-, ha, hb, -⟩ := h
      have := ih ha
      have := ih hb
      rw [weight_interior, Nat.pow_succ]
      omega

theorem packed_weight_pos {p : Nat} {N : Node} (h : Packed p N) (hN : N ≠ .empty) : 0 < weight p N := by
  induction p generalizing N with
  | zero => cases N <;> simp_all
  | succ p ih =>
    cases N with
    | leaf v => simp
    | empty => exact absurd rfl hN
    | interior a b =>
      obtain ⟨ha0, ha, -, -⟩ := h
      have := ih ha ha0
      rw [weight_interior]
      omega

/-- One more level below a packed node doubles the codes its leaves take up. -/
theorem packed_succ {p : Nat} {N : Node} (h : Packed p N) :
    Packed (p + 1) N ∧ weight (p + 1) N = 2 * weight p N := by
  induction p generalizing N with
  | zero => cases N <;> simp_all
  | succ p ih =>
    cases N with
    | leaf v => exact ⟨packed_leaf _ _, by rw [weight_leaf, weight_leaf, Nat.pow_succ]; omega⟩
    | empty => simp
    | interior a b =>
      obtain ⟨ha0, ha, hb, hab⟩ := h
      obtain ⟨ha', wa⟩ := ih ha
      obtain ⟨hb', wb⟩ := ih hb
      refine ⟨packed_interior.2 ⟨ha0, ha', hb', hab.imp id fun h => ?_⟩, ?_⟩
      · rw [wa, h, Nat.pow_succ]; omega
      · rw [weight_interior, weight_interior, wa, wb]; omega

theorem packedRoot_succ {p : Nat} {N : Node} (h : PackedRoot p N) :
    PackedRoot (p + 1) N ∧ weight (p + 1) N = 2 * weight p N := by
  obtain rfl | ⟨a, b, rfl, h⟩ := h
  · simp [PackedRoot]
  · obtain ⟨h1, h2⟩ := packed_succ h
    exact ⟨.inr ⟨a, b, rfl, h1⟩, h2⟩

theorem packedRoot_weight_le {p : Nat} {N : Node} (h : PackedRoot p N) : weight p N ≤ 2 ^ p := by
  obtain rfl | ⟨a, b, rfl, h⟩ := h
  · simp
  · exact packed_weight_le h

/-! ### Placement -/

@[simp] theorem place_leaf (sym : Byte) (pos : Nat) (v : Byte) : place sym pos (.leaf v) = (false, .leaf v) := by
  cases pos <;> rfl

@[simp] theorem place_empty (sym : Byte) (pos : Nat) : place sym pos .empty = (false, .empty) := by
  cases pos <;> rfl

theorem placeBelow_existing {rec : Node → Bool × Node} {a b : Node} {i : Bool}
    (h : nchildren (.interior a b) ≠ i.toNat) :
    placeBelow rec (.interior a b) i =
      if i then ((rec b).1, .interior a (rec b).2) else ((rec a).1, .interior (rec a).2 b) := by
  simp only [placeBelow, if_neg h]
  cases i <;> rfl

theorem placeBelow_created {rec : Node → Bool × Node} {a b : Node} {i : Bool}
    (h : nchildren (.interior a b) = i.toNat) :
    placeBelow rec (.interior a b) i =
      if i then ((rec freshInterior).1, .interior a (rec freshInterior).2)
      else ((rec freshInterior).1, .interior (rec freshInterior).2 b) := by
  simp only [placeBelow, if_pos h]
  cases i <;> rfl

/-- The search when child 0 is there and takes the symbol, or turns it away unchanged and child 1 is
then tried; child 1 is created if it is not there. -/
theorem place_succ {sym : Byte} {pos : Nat} {a b : Node} (ha : a ≠ .empty) :
    place sym (pos + 1) (.interior a b) =
      if (place sym pos a).1 then (true, .interior (place sym pos a).2 b)
      else placeBelow (place sym pos) (.interior (place sym pos a).2 b) true := by
  have turn0 : placeBelow (place sym pos) (.interior a b) false
      = ((place sym pos a).1, .interior (place sym pos a).2 b) :=
    placeBelow_existing (by simp [nchildren, ha])
  simp only [place, turn0]
  cases (place sym pos a).1 <;> rfl

/-- Every leaf of N is a leaf of N' at the same place. -/
def KeepsLeaves (N N' : Node) : Prop :=
  ∀ path v, walk N path = some (.leaf v) → walk N' path = some (.leaf v)

theorem keepsLeaves_refl (N : Node) : KeepsLeaves N N := fun _ _ h => h

theorem keepsLeaves_trans {N N' N'' : Node} (h : KeepsLeaves N N') (h' : KeepsLeaves N' N'') :
    KeepsLeaves N N'' := fun p v hp => h' p v (h p v hp)

theorem keepsLeaves_interior {a b a' b' : Node} (ha : KeepsLeaves a a') (hb : KeepsLeaves b b') :
    KeepsLeaves (.interior a b) (.interior a' b') := by
  intro path v h
  cases path with
  | nil => simp at h
  | cons i p => cases i <;> simp at h ⊢ <;> [exact ha _ _ h; exact hb _ _ h]

theorem keepsLeaves_empty (N : Node) : KeepsLeaves .empty N := by
  intro path v h
  cases path <;> simp at h

theorem keepsLeaves_fresh (a b : Node) : KeepsLeaves freshInterior (.interior a b) :=
  keepsLeaves_interior (keepsLeaves_empty a) (keepsLeaves_empty b)

/-- What a search that places its symbol leaves: the new leaf has the first code that was free, and
every other leaf stays where it was. -/
structure Placed (p : Nat) (sym : Byte) (N N' : Node) : Prop where
  packed : Packed p N'
  interior : ∃ a b, N' = .interior a b
  weight : weight p N' = weight p N + 1
  leaves : leafCount N' = leafCount N + 1
  nodes : interiorCount N' + 1 ≤ interiorCount N + p
  leaf : walk N' (pathBits (Machine.weight p N) p) = some (.leaf sym)
  keeps : KeepsLeaves N N'

theorem place_full_or_placed (sym : Byte) (pos : Nat) (N : Node) (h : PackedRoot (pos + 1) N) :
    if weight (pos + 1) N < 2 ^ (pos + 1)
    then (place sym pos N).1 = true ∧ Placed (pos + 1) sym N (place sym pos N).2
    else place sym pos N = (false, N) := by
  induction pos generalizing N with
  | zero =>
    obtain rfl | ⟨a, b, rfl, h⟩ := h
    · refine ⟨rfl, ⟨?_, ⟨_, _, rfl⟩, rfl, rfl, le_rfl, rfl, keepsLeaves_fresh _ _⟩⟩
      simp [place, freshInterior, nchildren, setChild, packed_interior]
    · obtain ⟨ha0, ha, hb, -⟩ := h
      cases a with
      | empty => exact absurd rfl ha0
      | interior => exact absurd ha (not_packed_zero _ _)
      | leaf v =>
        cases b with
        | interior => exact absurd hb (not_packed_zero _ _)
        | leaf w => simp [weight, place, nchildren]
        | empty =>
          refine ⟨rfl, ⟨?_, ⟨_, _, rfl⟩, rfl, rfl, le_rfl, ?_,
            keepsLeaves_interior (keepsLeaves_refl _) (keepsLeaves_empty _)⟩⟩
          · simp [place, nchildren, setChild, packed_interior]
          · simp [place, nchildren, setChild, weight, pathBits]
  | succ pos ih =>
    have fresh := ih freshInterior (.inl rfl)
    rw [if_pos (by simp)] at fresh
    obtain ⟨fok, f⟩ := fresh
    obtain rfl | ⟨a, b, rfl, h⟩ := h
    · -- the root has no child: child 0 is created
      have hp : place sym (pos + 1) freshInterior = (true, .interior (place sym pos freshInterior).2 .empty) := by
        simp only [place, freshInterior] at fok ⊢
        rw [placeBelow_created rfl]
        simp only [freshInterior, fok]
        rfl
      rw [if_pos (by simp), hp]
      refine ⟨rfl, ⟨?_, ⟨_, _, rfl⟩, ?_, ?_, ?_, ?_, keepsLeaves_fresh _ _⟩⟩
      · obtain ⟨x, y, hxy⟩ := f.interior
        exact packed_interior.2 ⟨by simp [hxy], f.packed, packed_empty _, .inl rfl⟩
      · simp [f.weight]
      · simpa [leafCount, freshInterior] using f.leaves
      · have := f.nodes
        simp only [interiorCount, freshInterior] at this ⊢
        omega
      · have := f.leaf
        rw [weight_fresh] at this
        rw [weight_fresh, pathBits_succ_of_lt (by positivity)]
        simpa using this
    · obtain ⟨ha0, ha, hb, hab⟩ := h
      have wa := packed_weight_le ha
      have wb := packed_weight_le hb
      have hpow : 2 ^ (pos + 1 + 1) = 2 ^ (pos + 1) + 2 ^ (pos + 1) := by rw [Nat.pow_succ]; omega
      rw [weight_interior]
      by_cases hlt : weight (pos + 1) a < 2 ^ (pos + 1)
      · -- child 0 has room, so child 1 does not exist yet
        have hb0 : b = .empty := hab.resolve_right (by omega)
        subst hb0
        have ha' : PackedRoot (pos + 1) a := by
          cases a with
          | empty => exact absurd rfl ha0
          | leaf v => simp at hlt
          | interior x y => exact .inr ⟨x, y, rfl, ha⟩
        have := ih a ha'
        rw [if_pos hlt] at this
        obtain ⟨ok, g⟩ := this
        have hroom : weight (pos + 1) a + weight (pos + 1) .empty < 2 ^ (pos + 1 + 1) := by
          rw [weight_empty]; omega
        rw [if_pos hroom, place_succ ha0, if_pos ok]
        refine ⟨rfl, ⟨?_, ⟨_, _, rfl⟩, ?_, ?_, ?_, ?_, keepsLeaves_interior g.keeps (keepsLeaves_refl _)⟩⟩
        · obtain ⟨x, y, hxy⟩ := g.interior
          exact packed_interior.2 ⟨by simp [hxy], g.packed, packed_empty _, .inl rfl⟩
        · simp [g.weight]
        · simp [leafCount, g.leaves]
        · have := g.nodes
          simp only [interiorCount] at this ⊢
          omega
        · rw [weight_interior, weight_empty, Nat.add_zero, pathBits_succ_of_lt hlt]
          simpa using g.leaf
      · -- child 0 is full, so the search goes on in child 1
        have wa' : weight (pos + 1) a = 2 ^ (pos + 1) := by omega
        have hfull : place sym pos a = (false, a) := by
          cases a with
          | empty => exact absurd rfl ha0
          | leaf v => simp
          | interior x y =>
            have := ih _ (.inr ⟨x, y, rfl, ha⟩)
            rwa [if_neg hlt] at this
        have hp : place sym (pos + 1) (.interior a b) = placeBelow (place sym pos) (.interior a b) true := by
          rw [place_succ ha0, hfull]; rfl
        rw [hp]
        by_cases hb0 : b = .empty
        · -- child 1 is created
          subst hb0
          have hroom : weight (pos + 1) a + weight (pos + 1) .empty < 2 ^ (pos + 1 + 1) := by
            have : 0 < 2 ^ (pos + 1) := by positivity
            rw [weight_empty]; omega
          rw [if_pos hroom, placeBelow_created (by simp [nchildren, ha0]), if_pos rfl]
          refine ⟨fok, ⟨packed_interior.2 ⟨ha0, ha, f.packed, .inr wa'⟩, ⟨_, _, rfl⟩, ?_, ?_, ?_, ?_,
            keepsLeaves_interior (keepsLeaves_refl _) (keepsLeaves_empty _)⟩⟩
          · simp [f.weight]
          · have := f.leaves
            simp only [freshInterior, leafCount, Nat.add_zero, Nat.zero_add] at this ⊢
            omega
          · have := f.nodes
            simp only [interiorCount, freshInterior] at this ⊢
            omega
          · have := f.leaf
            rw [weight_fresh] at this
            rw [weight_interior, weight_empty, wa', pathBits_succ_add_pow (by positivity)]
            simpa using this
        · rw [placeBelow_existing (by simp [nchildren, ha0, hb0]), if_pos rfl]
          by_cases hlt' : weight (pos + 1) b < 2 ^ (pos + 1)
          · have hb' : PackedRoot (pos + 1) b := by
              cases b with
              | empty => exact absurd rfl hb0
              | leaf v => simp at hlt'
              | interior x y => exact .inr ⟨x, y, rfl, hb⟩
            have := ih b hb'
            rw [if_pos hlt'] at this
            obtain ⟨ok, g⟩ := this
            rw [if_pos (show weight (pos + 1) a + weight (pos + 1) b < 2 ^ (pos + 1 + 1) by omega)]
            refine ⟨ok, ⟨packed_interior.2 ⟨ha0, ha, g.packed, .inr wa'⟩, ⟨_, _, rfl⟩, ?_, ?_, ?_, ?_,
              keepsLeaves_interior (keepsLeaves_refl _) g.keeps⟩⟩
            · rw [weight_interior, weight_interior, g.weight]; omega
            · simp only [leafCount, g.leaves]; omega
            · have := g.nodes
              simp only [interiorCount] at this ⊢
              omega
            · rw [weight_interior, wa', pathBits_succ_add_pow hlt']
              simpa using g.leaf
          · have hfull' : place sym pos b = (false, b) := by
              cases b with
              | empty => exact absurd rfl hb0
              | leaf v => simp
              | interior x y =>
                have := ih _ (.inr ⟨x, y, rfl, hb⟩)
                rwa [if_neg hlt'] at this
            rw [hfull', if_neg (show ¬ weight (pos + 1) a + weight (pos + 1) b < 2 ^ (pos + 1 + 1) by omega)]

/-- A packed root with a free code of length L = pos + 1 takes the symbol at the first one. -/
theorem place_placed {sym : Byte} {pos : Nat} {N : Node} (h : PackedRoot (pos + 1) N)
    (hw : weight (pos + 1) N < 2 ^ (pos + 1)) :
    (place sym pos N).1 = true ∧ Placed (pos + 1) sym N (place sym pos N).2 := by
  have := place_full_or_placed sym pos N h
  rwa [if_pos hw] at this

/-- A packed root with no free code of length L = pos + 1 turns the symbol away and stays as it is
(R113(a): no search creates a node and then fails). -/
theorem place_full {sym : Byte} {pos : Nat} {N : Node} (h : PackedRoot (pos + 1) N)
    (hw : ¬ weight (pos + 1) N < 2 ^ (pos + 1)) : place sym pos N = (false, N) := by
  have := place_full_or_placed sym pos N h
  rwa [if_neg hw] at this

end Sys2Proof.Machine
end

