-- ==== Sys2Proof/Laws/Build.lean ====
section
/-! SUPPORT. What the construction of a tree (R111) answers: while the codes of R114 fit their lengths
every symbol is placed at its canonical code, and the first that does not fit is the one that fails
(R115). -/

namespace Sys2Proof.Machine

/-- `buildFrom` on symbols that were placed before others. -/
theorem buildFrom_cons {len k : Nat} {sym : Byte} {rest : List (Nat × Byte)} {root : Node} :
    buildFrom ((len, sym) :: rest) k root =
      if (place sym (len - 1) root).1 then buildFrom rest (k + 1) (place sym (len - 1) root).2
      else .fail k len sym := by
  rw [buildFrom]
  rcases place sym (len - 1) root with ⟨ok, r⟩
  cases ok <;> rfl

/-- What placing the symbols `xs`, all of length p, does to the root. -/
structure PlacedAll (p : Nat) (xs : List Byte) (root root' : Node) : Prop where
  packed : PackedRoot p root'
  weight : weight p root' = weight p root + xs.length
  leaves : leafCount root' = leafCount root + xs.length
  nodes : interiorCount root' ≤ interiorCount root + xs.length * (p - 1)
  keeps : KeepsLeaves root root'
  leaf : ∀ j v, xs[j]? = some v → walk root' (pathBits (Machine.weight p root + j) p) = some (.leaf v)

/-- The symbols of one length, while they fit. -/
theorem buildFrom_placedAll {pos : Nat} (xs : List Byte) {root : Node} (h : PackedRoot (pos + 1) root)
    (hw : weight (pos + 1) root + xs.length ≤ 2 ^ (pos + 1)) :
    ∃ root', PlacedAll (pos + 1) xs root root' ∧ ∀ rest k,
      buildFrom ((List.replicate xs.length (pos + 1)).zip xs ++ rest) k root =
        buildFrom rest (k + xs.length) root' := by
  induction xs generalizing root with
  | nil => exact ⟨root, ⟨h, rfl, rfl, by simp, keepsLeaves_refl _, by simp⟩, by simp⟩
  | cons x xs ih =>
    simp only [List.length_cons] at hw
    obtain ⟨ok, g⟩ := place_placed (sym := x) h (by omega)
    obtain ⟨a, b, hab⟩ := g.interior
    obtain ⟨root', r, hr⟩ := ih (root := (place x pos root).2) (.inr ⟨a, b, hab, g.packed⟩)
      (by rw [g.weight]; omega)
    refine ⟨root', ⟨r.packed, ?_, ?_, ?_, keepsLeaves_trans g.keeps r.keeps, ?_⟩, ?_⟩
    · rw [r.weight, g.weight, List.length_cons]; omega
    · rw [r.leaves, g.leaves, List.length_cons]; omega
    · have h1 := r.nodes
      have h2 := g.nodes
      rw [Nat.add_sub_cancel] at h1 ⊢
      rw [List.length_cons, Nat.add_mul, Nat.one_mul]
      omega
    · intro j v hj
      cases j with
      | zero =>
        simp only [List.getElem?_cons_zero, Option.some.injEq] at hj
        subst hj
        exact r.keeps _ _ (by simpa using g.leaf)
      | succ j =>
        have := r.leaf j v (by simpa using hj)
        rwa [g.weight, show weight (pos + 1) root + 1 + j = weight (pos + 1) root + (j + 1) by omega] at this
    · intro rest k
      simp only [List.length_cons, List.replicate_succ, List.zip_cons_cons, List.cons_append,
        buildFrom_cons, Nat.add_sub_cancel, ok, if_true, hr]
      congr 1
      omega

/-- The symbols of one length, when they do not all fit: the first that finds no slot fails. -/
theorem buildFrom_overfull {pos : Nat} (xs : List Byte) {root : Node} (h : PackedRoot (pos + 1) root)
    (hw : 2 ^ (pos + 1) < weight (pos + 1) root + xs.length) :
    ∃ v, xs[2 ^ (pos + 1) - weight (pos + 1) root]? = some v ∧ ∀ rest k,
      buildFrom ((List.replicate xs.length (pos + 1)).zip xs ++ rest) k root =
        .fail (k + (2 ^ (pos + 1) - weight (pos + 1) root)) (pos + 1) v := by
  induction xs generalizing root with
  | nil => have := packedRoot_weight_le h; simp at hw; omega
  | cons x xs ih =>
    simp only [List.length_cons] at hw
    by_cases hlt : weight (pos + 1) root < 2 ^ (pos + 1)
    · obtain ⟨ok, g⟩ := place_placed (sym := x) h hlt
      obtain ⟨a, b, hab⟩ := g.interior
      obtain ⟨v, hv, hr⟩ := ih (root := (place x pos root).2) (.inr ⟨a, b, hab, g.packed⟩)
        (by rw [g.weight]; omega)
      rw [g.weight] at hv hr
      have e : 2 ^ (pos + 1) - weight (pos + 1) root
          = 2 ^ (pos + 1) - (weight (pos + 1) root + 1) + 1 := by omega
      refine ⟨v, by rw [e]; simpa using hv, fun rest k => ?_⟩
      simp only [List.length_cons, List.replicate_succ, List.zip_cons_cons, List.cons_append,
        buildFrom_cons, Nat.add_sub_cancel, ok, if_true, hr, BuildResult.fail.injEq, and_true]
      omega
    · have hle := packedRoot_weight_le h
      have e : 2 ^ (pos + 1) - weight (pos + 1) root = 0 := by omega
      refine ⟨x, by simp [e], fun rest k => ?_⟩
      simp only [List.length_cons, List.replicate_succ, List.zip_cons_cons, List.cons_append,
        buildFrom_cons, Nat.add_sub_cancel, place_full h hlt, e]
      simp

/-! ### All lengths -/

/-- The codes of R114's procedure fit: at each length from L on, the code after the last one is at most
2^L, where `code` is the first code of length L. -/
def Fits : Nat → Nat → List Byte → Prop
  | _, _, [] => True
  | L, code, n :: ns => code + n.toNat ≤ 2 ^ L ∧ Fits (L + 1) (2 * (code + n.toNat)) ns

@[simp] theorem lengthsFrom_length (L : Nat) (ns : List Byte) :
    (lengthsFrom L ns).length = (ns.map BitVec.toNat).sum := by
  induction ns generalizing L with
  | nil => rfl
  | cons n ns ih => simp [lengthsFrom, ih]

@[simp] theorem canonicalFrom_length (code : Nat) (ns : List Byte) :
    (canonicalFrom code ns).length = (ns.map BitVec.toNat).sum := by
  induction ns generalizing code with
  | nil => rfl
  | cons n ns ih => simp [canonicalFrom, ih]

/-- The symbols of the next length, cut off from the rest of the list. -/
theorem zip_lengthsFrom_cons (L : Nat) (n : Byte) (ns : List Byte) (xs ys : List Byte)
    (h : xs.length = n.toNat) :
    (lengthsFrom L (n :: ns)).zip (xs ++ ys) =
      (List.replicate xs.length L).zip xs ++ (lengthsFrom (L + 1) ns).zip ys := by
  rw [lengthsFrom, List.zip_append (by simp [h]), h]

/-- What a build that succeeds makes of a root: a packed root with every symbol at its canonical code. -/
structure Built (p : Nat) (ns syms : List Byte) (root root' : Node) : Prop where
  packed : PackedRoot (p + ns.length) root'
  leaves : leafCount root' = leafCount root + (ns.map BitVec.toNat).sum
  nodes : interiorCount root' ≤ interiorCount root + ((lengthsFrom (p + 1) ns).map (· - 1)).sum
  keeps : KeepsLeaves root root'
  leaf : ∀ (j c len : Nat) (v : Byte), (canonicalFrom (2 * weight p root) ns)[j]? = some c →
    (lengthsFrom (p + 1) ns)[j]? = some len → syms[j]? = some v →
    walk root' (pathBits c len) = some (.leaf v)

theorem buildFrom_built {p : Nat} (ns syms : List Byte) {root : Node} (h : PackedRoot p root)
    (hlen : syms.length = (ns.map BitVec.toNat).sum) (hfit : Fits (p + 1) (2 * weight p root) ns) (k : Nat) :
    ∃ root', buildFrom ((lengthsFrom (p + 1) ns).zip syms) k root = .tree root' ∧
      Built p ns syms root root' := by
  induction ns generalizing p root syms k with
  | nil => exact ⟨root, rfl, ⟨h, rfl, by simp, keepsLeaves_refl _, by simp [canonicalFrom]⟩⟩
  | cons n ns ih =>
    obtain ⟨hn, hfit⟩ := hfit
    simp only [List.map_cons, List.sum_cons] at hlen
    obtain ⟨h1, w1⟩ := packedRoot_succ h
    have hx : (syms.take n.toNat).length = n.toNat := by rw [List.length_take]; omega
    obtain ⟨r1, g1, b1⟩ := buildFrom_placedAll (syms.take n.toNat) h1 (by rw [w1, hx]; exact hn)
    have w2 : 2 * weight (p + 1) r1 = 2 * (2 * weight p root + n.toNat) := by rw [g1.weight, w1, hx]
    obtain ⟨r2, b2, g2⟩ := ih (syms.drop n.toNat) g1.packed (by rw [List.length_drop]; omega)
      (by rw [w2]; exact hfit) (k + n.toNat)
    refine ⟨r2, ?_, ⟨?_, ?_, ?_, keepsLeaves_trans g1.keeps g2.keeps, ?_⟩⟩
    · rw [← List.take_append_drop n.toNat syms, zip_lengthsFrom_cons _ _ _ _ _ hx, b1, hx, b2]
    · have := g2.packed
      rwa [List.length_cons, show p + (ns.length + 1) = p + 1 + ns.length by omega]
    · rw [g2.leaves, g1.leaves, hx, List.map_cons, List.sum_cons]; omega
    · have h1 := g1.nodes
      have h2 := g2.nodes
      rw [hx] at h1
      simp only [lengthsFrom, List.map_append, List.sum_append, List.map_replicate, List.sum_replicate,
        smul_eq_mul]
      omega
    · intro j c len v hc hl hv
      by_cases hj : j < n.toNat
      · rw [canonicalFrom, List.getElem?_append_left (by simpa using hj), List.getElem?_map,
          List.getElem?_range hj] at hc
        rw [lengthsFrom, List.getElem?_append_left (by simpa using hj), List.getElem?_replicate,
          if_pos hj] at hl
        simp only [Option.map_some, Option.some.injEq] at hc hl
        subst hc hl
        have := g1.leaf j v (by rw [List.getElem?_take_of_lt hj]; exact hv)
        rw [w1] at this
        exact g2.keeps _ _ this
      · rw [canonicalFrom, List.getElem?_append_right (by simpa using hj)] at hc
        rw [lengthsFrom, List.getElem?_append_right (by simpa using hj)] at hl
        simp only [List.length_map, List.length_range, List.length_replicate] at hc hl
        refine g2.leaf (j - n.toNat) c len v (by rw [w2]; exact hc) hl ?_
        rw [List.getElem?_drop, show n.toNat + (j - n.toNat) = j by omega]
        exact hv

/-- The first code of the length `i` places on from the length whose first code is `code` (R114). -/
def codeAfter (code : Nat) (ns : List Byte) (i : Nat) : Nat :=
  (ns.take i).foldl (fun c n => 2 * (c + n.toNat)) code

theorem buildFrom_failed {p : Nat} (i : Nat) (ns syms : List Byte) (n : Byte) {root : Node}
    (h : PackedRoot p root) (hlen : syms.length = (ns.map BitVec.toNat).sum)
    (hfit : Fits (p + 1) (2 * weight p root) (ns.take i)) (hn : ns[i]? = some n)
    (hover : 2 ^ (p + 1 + i) < codeAfter (2 * weight p root) ns i + n.toNat) (k : Nat) :
    ∃ v, syms[((ns.take i).map BitVec.toNat).sum + (2 ^ (p + 1 + i) - codeAfter (2 * weight p root) ns i)]? = some v ∧
      buildFrom ((lengthsFrom (p + 1) ns).zip syms) k root =
        .fail (k + ((ns.take i).map BitVec.toNat).sum
          + (2 ^ (p + 1 + i) - codeAfter (2 * weight p root) ns i)) (p + 1 + i) v := by
  induction i generalizing p root ns syms k with
  | zero =>
    cases ns with
    | nil => simp at hn
    | cons n' ns =>
      simp only [List.getElem?_cons_zero, Option.some.injEq] at hn
      subst hn
      simp only [List.map_cons, List.sum_cons] at hlen
      obtain ⟨h1, w1⟩ := packedRoot_succ h
      have hx : (syms.take n'.toNat).length = n'.toNat := by rw [List.length_take]; omega
      have hc : codeAfter (2 * weight p root) (n' :: ns) 0 = weight (p + 1) root := by simp [codeAfter, w1]
      rw [hc, Nat.add_zero] at hover
      obtain ⟨v, hv, b⟩ := buildFrom_overfull (syms.take n'.toNat) h1 (by rw [hx]; exact hover)
      refine ⟨v, ?_, ?_⟩
      · rw [List.getElem?_take] at hv
        split at hv
        · simpa [hc] using hv
        · cases hv
      · conv_lhs => rw [← List.take_append_drop n'.toNat syms]
        rw [zip_lengthsFrom_cons _ _ _ _ _ hx, b, hc]
        simp
  | succ i ih =>
    cases ns with
    | nil => simp at hn
    | cons n' ns =>
      simp only [List.map_cons, List.sum_cons] at hlen
      rw [List.take_succ_cons] at hfit
      obtain ⟨hn', hfit⟩ := hfit
      obtain ⟨h1, w1⟩ := packedRoot_succ h
      have hx : (syms.take n'.toNat).length = n'.toNat := by rw [List.length_take]; omega
      obtain ⟨r1, g1, b1⟩ := buildFrom_placedAll (syms.take n'.toNat) h1 (by rw [w1, hx]; exact hn')
      have w2 : 2 * weight (p + 1) r1 = 2 * (2 * weight p root + n'.toNat) := by rw [g1.weight, w1, hx]
      have hc : codeAfter (2 * weight p root) (n' :: ns) (i + 1) = codeAfter (2 * weight (p + 1) r1) ns i := by
        simp [codeAfter, w2]
      have he : p + 1 + (i + 1) = p + 1 + 1 + i := by omega
      rw [hc, he] at hover
      obtain ⟨v, hv, b2⟩ := ih ns (syms.drop n'.toNat) g1.packed (by rw [List.length_drop]; omega)
        (by rw [w2]; exact hfit) (by simpa using hn) hover (k + n'.toNat)
      refine ⟨v, ?_, ?_⟩
      · rw [List.getElem?_drop] at hv
        rw [hc, he, List.take_succ_cons, List.map_cons, List.sum_cons, Nat.add_assoc]
        exact hv
      · conv_lhs => rw [← List.take_append_drop n'.toNat syms]
        rw [zip_lengthsFrom_cons _ _ _ _ _ hx, b1, hx, b2, hc, he, List.take_succ_cons, List.map_cons,
          List.sum_cons]
        congr 1
        omega

/-! ### The Kraft sum -/

/-- The codes of the lengths from L on fit exactly when their Kraft sum does (R115). -/
theorem fits_iff_kraft (L code : Nat) (n : Byte) (ns : List Byte) :
    Fits L code (n :: ns) ↔ code * 2 ^ ns.length + kraftFrom (n :: ns) ≤ 2 ^ (L + ns.length) := by
  induction ns generalizing L code n with
  | nil => simp [Fits, kraftFrom]
  | cons m ns ih =>
    rw [Fits, ih]
    simp only [kraftFrom, List.length_cons]
    have e1 : 2 * (code + n.toNat) * 2 ^ ns.length = code * 2 ^ (ns.length + 1) + n.toNat * 2 ^ (ns.length + 1) := by
      rw [Nat.pow_succ]; ring
    have e2 : L + 1 + ns.length = L + (ns.length + 1) := by omega
    rw [e1, e2]
    constructor
    · rintro ⟨-, h⟩
      omega
    · intro h
      refine ⟨?_, by omega⟩
      have h3 : (code + n.toNat) * 2 ^ (ns.length + 1) ≤ 2 ^ L * 2 ^ (ns.length + 1) := by
        rw [Nat.add_mul, ← Nat.pow_add]
        omega
      exact Nat.le_of_mul_le_mul_right h3 (by positivity)

/-! ### The shape of a built tree -/

theorem packed_leafCount_pos {p : Nat} {N : Node} (h : Packed p N) (hN : N ≠ .empty) : 0 < leafCount N := by
  induction p generalizing N with
  | zero => cases N <;> simp_all [leafCount]
  | succ p ih =>
    cases N with
    | leaf v => simp [leafCount]
    | empty => exact absurd rfl hN
    | interior a b =>
      have := ih h.2.1 h.1
      rw [leafCount]
      omega

theorem packed_properBelow {p : Nat} {N : Node} (h : Packed p N) : properBelow p N = true := by
  induction p generalizing N with
  | zero => cases N <;> simp_all [properBelow]
  | succ p ih =>
    cases N with
    | leaf v => rfl
    | empty => rfl
    | interior a b =>
      have hpos := packed_leafCount_pos h (by simp)
      obtain ⟨ha0, ha, hb, -⟩ := h
      simp [properBelow, ih ha, ih hb, ha0, hpos]

/-- A root packed in 16 levels with at most 256 leaves is what a slot may hold (R28, R113). -/
theorem packedRoot_storedTree {N : Node} (h : PackedRoot 16 N) (hl : leafCount N ≤ 256) :
    storedTree N = true := by
  obtain rfl | ⟨a, b, rfl, h⟩ := h
  · rfl
  · obtain ⟨ha0, ha, hb, -⟩ := h
    simp [storedTree, packed_properBelow ha, packed_properBelow hb, ha0, hl]

end Sys2Proof.Machine
end

