-- ==== Sys2Proof/Laws/Shape.lean ====
section
/-! SUPPORT. What the shape of a stored tree (R28, R113) says about walks in it and about its size. -/

namespace Sys2Proof.Machine

theorem properBelow_interior {room : Nat} {a b : Node} (h : properBelow room (.interior a b) = true) :
    ∃ r, room = r + 1 ∧ (a ≠ .empty ∨ b = .empty) ∧ 0 < leafCount (.interior a b) ∧
      properBelow r a = true ∧ properBelow r b = true := by
  cases room with
  | zero => simp [properBelow] at h
  | succ r =>
    simp only [properBelow, Bool.and_eq_true, Bool.or_eq_true, bne_iff_ne, ne_eq, beq_iff_eq,
      decide_eq_true_eq] at h
    exact ⟨r, rfl, h.1.1.1, h.1.1.2, h.1.2, h.2⟩

theorem storedTree_interior {root : Node} (h : storedTree root = true) :
    ∃ a b, root = .interior a b ∧ (a ≠ .empty ∨ b = .empty) ∧ properBelow 15 a = true ∧
      properBelow 15 b = true ∧ leafCount root ≤ 256 := by
  cases root with
  | interior a b =>
    simp only [storedTree, Bool.and_eq_true, Bool.or_eq_true, bne_iff_ne, ne_eq, beq_iff_eq,
      decide_eq_true_eq] at h
    exact ⟨a, b, rfl, h.1.1.1, h.1.1.2, h.1.2, h.2⟩
  | leaf v => simp [storedTree] at h
  | empty => simp [storedTree] at h

/-- Below a node with `room` levels, every walk to a node lands on one with the levels that are left. -/
theorem properBelow_walk {room : Nat} {N M : Node} {p : List Bool} (h : properBelow room N = true)
    (hw : walk N p = some M) : p.length ≤ room ∧ properBelow (room - p.length) M = true := by
  induction p generalizing room N with
  | nil => rw [walk_nil] at hw; cases hw; simpa using h
  | cons i p ih =>
    cases N with
    | interior a b =>
      obtain ⟨r, rfl, -, -, ha, hb⟩ := properBelow_interior h
      rw [walk_interior_cons] at hw
      have := ih (room := r) (by cases i <;> simpa) hw
      simp only [List.length_cons, Nat.add_le_add_iff_right, Nat.add_sub_add_right]
      exact this
    | leaf v => simp at hw
    | empty => simp at hw

theorem storedTree_walk {root M : Node} {i : Bool} {p : List Bool} (h : storedTree root = true)
    (hw : walk root (i :: p) = some M) : p.length ≤ 15 ∧ properBelow (15 - p.length) M = true := by
  obtain ⟨a, b, rfl, -, ha, hb, -⟩ := storedTree_interior h
  rw [walk_interior_cons] at hw
  exact properBelow_walk (by cases i <;> simpa) hw

/-- Every `Interior` of a stored tree lies at depth 15 or less (R113(e)). -/
theorem storedTree_depth {root a b : Node} {p : List Bool} (h : storedTree root = true)
    (hw : walk root p = some (.interior a b)) : p.length ≤ 15 := by
  cases p with
  | nil => simp
  | cons i p =>
    obtain ⟨hl, hp⟩ := storedTree_walk h hw
    obtain ⟨r, hr, -⟩ := properBelow_interior hp
    simp only [List.length_cons]
    omega

/-- Every leaf of a stored tree lies at depth 1 to 16 (R28(b)). -/
theorem storedTree_leaf_depth {root : Node} {v : Byte} {p : List Bool} (h : storedTree root = true)
    (hw : walk root p = some (.leaf v)) : 1 ≤ p.length ∧ p.length ≤ 16 := by
  cases p with
  | nil => obtain ⟨a, b, rfl, -⟩ := storedTree_interior h; simp at hw
  | cons i p =>
    have := (storedTree_walk h hw).1
    simp only [List.length_cons]
    omega

/-- A node with a leaf below it has one at the end of some walk. -/
theorem exists_leaf {N : Node} (h : 0 < leafCount N) : ∃ q v, walk N q = some (.leaf v) := by
  induction N with
  | leaf v => exact ⟨[], v, rfl⟩
  | empty => simp [leafCount] at h
  | interior a b iha ihb =>
    rw [leafCount] at h
    by_cases ha : 0 < leafCount a
    · obtain ⟨q, v, hq⟩ := iha ha
      exact ⟨false :: q, v, by simpa using hq⟩
    · obtain ⟨q, v, hq⟩ := ihb (by omega)
      exact ⟨true :: q, v, by simpa using hq⟩

/-- Every `Interior` of a stored tree other than its root has a leaf below it (R113(a)). -/
theorem storedTree_leaf_below {root a b : Node} {i : Bool} {p : List Bool} (h : storedTree root = true)
    (hw : walk root (i :: p) = some (.interior a b)) : ∃ q v, walk root (i :: p ++ q) = some (.leaf v) := by
  obtain ⟨r, -, -, hl, -⟩ := properBelow_interior (storedTree_walk h hw).2
  obtain ⟨q, v, hq⟩ := exists_leaf hl
  exact ⟨q, v, by rw [walk_append, hw]; exact hq⟩

/-- No walk goes on past a leaf (R113(c)). -/
theorem walk_past_leaf {root M : Node} {v : Byte} {p q : List Bool} (hp : walk root p = some (.leaf v))
    (hq : walk root (p ++ q) = some M) : q = [] := by
  rw [walk_append, hp] at hq
  cases q with
  | nil => rfl
  | cons i q => simp at hq

/-- Bits as long as the levels below a node lead to a leaf or to a missing child, through `Interior`s. -/
theorem properBelow_walk_ends {room : Nat} {N : Node} {bits : List Bool} (h : properBelow room N = true)
    (hb : room ≤ bits.length) : ∃ d, d ≤ room ∧
      ((∃ v, walk N (bits.take d) = some (.leaf v)) ∨ walk N (bits.take d) = some .empty) ∧
      ∀ e, e < d → ∃ a b, walk N (bits.take e) = some (.interior a b) := by
  induction room generalizing N bits with
  | zero =>
    refine ⟨0, Nat.le_refl 0, ?_, by omega⟩
    cases N with
    | interior a b => simp [properBelow] at h
    | leaf v => exact .inl ⟨v, by simp⟩
    | empty => exact .inr (by simp)
  | succ r ih =>
    cases N with
    | leaf v => exact ⟨0, by omega, .inl ⟨v, by simp⟩, by omega⟩
    | empty => exact ⟨0, by omega, .inr (by simp), by omega⟩
    | interior a b =>
      obtain ⟨r', hr, -, -, ha, hb'⟩ := properBelow_interior h
      cases bits with
      | nil => simp at hb
      | cons i bits =>
        obtain rfl : r = r' := by omega
        simp only [List.length_cons, Nat.add_le_add_iff_right] at hb
        obtain ⟨d, hd, hl, he⟩ := ih (N := if i then b else a) (by cases i <;> simpa) hb
        refine ⟨d + 1, by omega, by simpa using hl, ?_⟩
        intro e hlt
        cases e with
        | zero => exact ⟨a, b, by simp⟩
        | succ e => simpa using he e (by omega)

/-- A node has at most as many `Interior`s as its leaves have levels above them. -/
theorem properBelow_interiorCount {room : Nat} {N : Node} (h : properBelow room N = true) :
    interiorCount N ≤ leafCount N * room := by
  induction room generalizing N with
  | zero => cases N <;> simp_all [properBelow, interiorCount]
  | succ r ih =>
    cases N with
    | leaf v => simp [interiorCount]
    | empty => simp [interiorCount]
    | interior a b =>
      obtain ⟨r', hr, -, hl, ha, hb⟩ := properBelow_interior h
      obtain rfl : r = r' := by omega
      have h1 := ih ha
      have h2 := ih hb
      rw [leafCount] at hl ⊢
      rw [interiorCount, Nat.mul_succ, Nat.add_mul]
      omega

/-- The bounds of R117 for any tree a slot may hold. -/
theorem storedTree_interiorCount {root : Node} (h : storedTree root = true) :
    interiorCount root ≤ 1 + leafCount root * 15 := by
  obtain ⟨a, b, rfl, -, ha, hb, -⟩ := storedTree_interior h
  have h1 := properBelow_interiorCount ha
  have h2 := properBelow_interiorCount hb
  rw [interiorCount, leafCount, Nat.add_mul]
  omega

end Sys2Proof.Machine
end

