-- ==== Sys2Proof/Laws/State.lean ====
section
/-! SUPPORT. What each named operation does to each field of the state: one lemma per field per
operation, true by rfl, so that no proof unfolds a record update. -/

namespace Sys2Proof.Machine

variable (s : State)

/-! ### `raise` -/

@[simp] theorem raise_cfg (c : ErrCode) (info : Word) : (raise c info s).cfg = s.cfg := rfl
@[simp] theorem raise_prog (c : ErrCode) (info : Word) : (raise c info s).prog = s.prog := rfl
@[simp] theorem raise_ci (c : ErrCode) (info : Word) : (raise c info s).ci = s.ci := rfl
@[simp] theorem raise_link (c : ErrCode) (info : Word) : (raise c info s).link = s.link := rfl
@[simp] theorem raise_hcount (c : ErrCode) (info : Word) : (raise c info s).hcount = s.hcount := rfl
@[simp] theorem raise_symbuf (c : ErrCode) (info : Word) : (raise c info s).symbuf = s.symbuf := rfl
@[simp] theorem raise_symcnt (c : ErrCode) (info : Word) : (raise c info s).symcnt = s.symcnt := rfl
@[simp] theorem raise_hpoison (c : ErrCode) (info : Word) : (raise c info s).hpoison = s.hpoison := rfl
@[simp] theorem raise_tree (c : ErrCode) (info : Word) : (raise c info s).tree = s.tree := rfl
@[simp] theorem raise_dbound (c : ErrCode) (info : Word) : (raise c info s).dbound = s.dbound := rfl
@[simp] theorem raise_dslot (c : ErrCode) (info : Word) : (raise c info s).dslot = s.dslot := rfl
@[simp] theorem raise_cdepth (c : ErrCode) (info : Word) : (raise c info s).cdepth = s.cdepth := rfl
@[simp] theorem raise_cpath (c : ErrCode) (info : Word) : (raise c info s).cpath = s.cpath := rfl
@[simp] theorem raise_ddead (c : ErrCode) (info : Word) : (raise c info s).ddead = s.ddead := rfl
@[simp] theorem raise_bitbuf (c : ErrCode) (info : Word) : (raise c info s).bitbuf = s.bitbuf := rfl
@[simp] theorem raise_symout (c : ErrCode) (info : Word) : (raise c info s).symout = s.symout := rfl
@[simp] theorem raise_symv (c : ErrCode) (info : Word) : (raise c info s).symv = s.symv := rfl
@[simp] theorem raise_nemit (c : ErrCode) (info : Word) : (raise c info s).nemit = s.nemit := rfl
@[simp] theorem raise_dstarved (c : ErrCode) (info : Word) : (raise c info s).dstarved = s.dstarved := rfl
@[simp] theorem raise_zin (c : ErrCode) (info : Word) : (raise c info s).zin = s.zin := rfl
@[simp] theorem raise_zcnt (c : ErrCode) (info : Word) : (raise c info s).zcnt = s.zcnt := rfl
@[simp] theorem raise_zpoison (c : ErrCode) (info : Word) : (raise c info s).zpoison = s.zpoison := rfl
@[simp] theorem raise_qblk (c : ErrCode) (info : Word) : (raise c info s).qblk = s.qblk := rfl
@[simp] theorem raise_qvalid (c : ErrCode) (info : Word) : (raise c info s).qvalid = s.qvalid := rfl
@[simp] theorem raise_zres (c : ErrCode) (info : Word) : (raise c info s).zres = s.zres := rfl
@[simp] theorem raise_err (c : ErrCode) (info : Word) : (raise c info s).err = if s.err = none then some c else s.err := rfl
@[simp] theorem raise_errinfo (c : ErrCode) (info : Word) : (raise c info s).errinfo = if s.err = none then info else s.errinfo := rfl
@[simp] theorem raise_out (c : ErrCode) (info : Word) : (raise c info s).out = s.out ++ [.err c info] := rfl
@[simp] theorem raise_draws (c : ErrCode) (info : Word) : (raise c info s).draws = s.draws := rfl

/-! ### `clearRecord` -/

@[simp] theorem clearRecord_cfg : (clearRecord s).cfg = s.cfg := rfl
@[simp] theorem clearRecord_prog : (clearRecord s).prog = s.prog := rfl
@[simp] theorem clearRecord_ci : (clearRecord s).ci = s.ci := rfl
@[simp] theorem clearRecord_link : (clearRecord s).link = s.link := rfl
@[simp] theorem clearRecord_hcount : (clearRecord s).hcount = s.hcount := rfl
@[simp] theorem clearRecord_symbuf : (clearRecord s).symbuf = s.symbuf := rfl
@[simp] theorem clearRecord_symcnt : (clearRecord s).symcnt = s.symcnt := rfl
@[simp] theorem clearRecord_hpoison : (clearRecord s).hpoison = s.hpoison := rfl
@[simp] theorem clearRecord_tree : (clearRecord s).tree = s.tree := rfl
@[simp] theorem clearRecord_dbound : (clearRecord s).dbound = s.dbound := rfl
@[simp] theorem clearRecord_dslot : (clearRecord s).dslot = s.dslot := rfl
@[simp] theorem clearRecord_cdepth : (clearRecord s).cdepth = s.cdepth := rfl
@[simp] theorem clearRecord_cpath : (clearRecord s).cpath = s.cpath := rfl
@[simp] theorem clearRecord_ddead : (clearRecord s).ddead = s.ddead := rfl
@[simp] theorem clearRecord_bitbuf : (clearRecord s).bitbuf = s.bitbuf := rfl
@[simp] theorem clearRecord_symout : (clearRecord s).symout = s.symout := rfl
@[simp] theorem clearRecord_symv : (clearRecord s).symv = s.symv := rfl
@[simp] theorem clearRecord_nemit : (clearRecord s).nemit = s.nemit := rfl
@[simp] theorem clearRecord_dstarved : (clearRecord s).dstarved = s.dstarved := rfl
@[simp] theorem clearRecord_zin : (clearRecord s).zin = s.zin := rfl
@[simp] theorem clearRecord_zcnt : (clearRecord s).zcnt = s.zcnt := rfl
@[simp] theorem clearRecord_zpoison : (clearRecord s).zpoison = s.zpoison := rfl
@[simp] theorem clearRecord_qblk : (clearRecord s).qblk = s.qblk := rfl
@[simp] theorem clearRecord_qvalid : (clearRecord s).qvalid = s.qvalid := rfl
@[simp] theorem clearRecord_zres : (clearRecord s).zres = s.zres := rfl
@[simp] theorem clearRecord_err : (clearRecord s).err = none := rfl
@[simp] theorem clearRecord_errinfo : (clearRecord s).errinfo = 0#32 := rfl
@[simp] theorem clearRecord_out : (clearRecord s).out = s.out := rfl
@[simp] theorem clearRecord_draws : (clearRecord s).draws = s.draws := rfl

/-! ### `advance` -/

@[simp] theorem advance_cfg : (advance s).cfg = s.cfg := rfl
@[simp] theorem advance_prog : (advance s).prog = s.prog := rfl
@[simp] theorem advance_ci : (advance s).ci = s.ci + 1 := rfl
@[simp] theorem advance_link : (advance s).link = s.link := rfl
@[simp] theorem advance_hcount : (advance s).hcount = s.hcount := rfl
@[simp] theorem advance_symbuf : (advance s).symbuf = s.symbuf := rfl
@[simp] theorem advance_symcnt : (advance s).symcnt = s.symcnt := rfl
@[simp] theorem advance_hpoison : (advance s).hpoison = s.hpoison := rfl
@[simp] theorem advance_tree : (advance s).tree = s.tree := rfl
@[simp] theorem advance_dbound : (advance s).dbound = s.dbound := rfl
@[simp] theorem advance_dslot : (advance s).dslot = s.dslot := rfl
@[simp] theorem advance_cdepth : (advance s).cdepth = s.cdepth := rfl
@[simp] theorem advance_cpath : (advance s).cpath = s.cpath := rfl
@[simp] theorem advance_ddead : (advance s).ddead = s.ddead := rfl
@[simp] theorem advance_bitbuf : (advance s).bitbuf = s.bitbuf := rfl
@[simp] theorem advance_symout : (advance s).symout = s.symout := rfl
@[simp] theorem advance_symv : (advance s).symv = s.symv := rfl
@[simp] theorem advance_nemit : (advance s).nemit = s.nemit := rfl
@[simp] theorem advance_dstarved : (advance s).dstarved = s.dstarved := rfl
@[simp] theorem advance_zin : (advance s).zin = s.zin := rfl
@[simp] theorem advance_zcnt : (advance s).zcnt = s.zcnt := rfl
@[simp] theorem advance_zpoison : (advance s).zpoison = s.zpoison := rfl
@[simp] theorem advance_qblk : (advance s).qblk = s.qblk := rfl
@[simp] theorem advance_qvalid : (advance s).qvalid = s.qvalid := rfl
@[simp] theorem advance_zres : (advance s).zres = s.zres := rfl
@[simp] theorem advance_err : (advance s).err = s.err := rfl
@[simp] theorem advance_errinfo : (advance s).errinfo = s.errinfo := rfl
@[simp] theorem advance_out : (advance s).out = s.out := rfl
@[simp] theorem advance_draws : (advance s).draws = s.draws := rfl

/-! ### `setCount` -/

@[simp] theorem setCount_cfg (i : Fin 16) (n : Byte) : (setCount i n s).cfg = s.cfg := rfl
@[simp] theorem setCount_prog (i : Fin 16) (n : Byte) : (setCount i n s).prog = s.prog := rfl
@[simp] theorem setCount_ci (i : Fin 16) (n : Byte) : (setCount i n s).ci = s.ci := rfl
@[simp] theorem setCount_link (i : Fin 16) (n : Byte) : (setCount i n s).link = s.link := rfl
@[simp] theorem setCount_hcount (i : Fin 16) (n : Byte) : (setCount i n s).hcount = s.hcount.set i n := rfl
@[simp] theorem setCount_symbuf (i : Fin 16) (n : Byte) : (setCount i n s).symbuf = s.symbuf := rfl
@[simp] theorem setCount_symcnt (i : Fin 16) (n : Byte) : (setCount i n s).symcnt = s.symcnt := rfl
@[simp] theorem setCount_hpoison (i : Fin 16) (n : Byte) : (setCount i n s).hpoison = s.hpoison := rfl
@[simp] theorem setCount_tree (i : Fin 16) (n : Byte) : (setCount i n s).tree = s.tree := rfl
@[simp] theorem setCount_dbound (i : Fin 16) (n : Byte) : (setCount i n s).dbound = s.dbound := rfl
@[simp] theorem setCount_dslot (i : Fin 16) (n : Byte) : (setCount i n s).dslot = s.dslot := rfl
@[simp] theorem setCount_cdepth (i : Fin 16) (n : Byte) : (setCount i n s).cdepth = s.cdepth := rfl
@[simp] theorem setCount_cpath (i : Fin 16) (n : Byte) : (setCount i n s).cpath = s.cpath := rfl
@[simp] theorem setCount_ddead (i : Fin 16) (n : Byte) : (setCount i n s).ddead = s.ddead := rfl
@[simp] theorem setCount_bitbuf (i : Fin 16) (n : Byte) : (setCount i n s).bitbuf = s.bitbuf := rfl
@[simp] theorem setCount_symout (i : Fin 16) (n : Byte) : (setCount i n s).symout = s.symout := rfl
@[simp] theorem setCount_symv (i : Fin 16) (n : Byte) : (setCount i n s).symv = s.symv := rfl
@[simp] theorem setCount_nemit (i : Fin 16) (n : Byte) : (setCount i n s).nemit = s.nemit := rfl
@[simp] theorem setCount_dstarved (i : Fin 16) (n : Byte) : (setCount i n s).dstarved = s.dstarved := rfl
@[simp] theorem setCount_zin (i : Fin 16) (n : Byte) : (setCount i n s).zin = s.zin := rfl
@[simp] theorem setCount_zcnt (i : Fin 16) (n : Byte) : (setCount i n s).zcnt = s.zcnt := rfl
@[simp] theorem setCount_zpoison (i : Fin 16) (n : Byte) : (setCount i n s).zpoison = s.zpoison := rfl
@[simp] theorem setCount_qblk (i : Fin 16) (n : Byte) : (setCount i n s).qblk = s.qblk := rfl
@[simp] theorem setCount_qvalid (i : Fin 16) (n : Byte) : (setCount i n s).qvalid = s.qvalid := rfl
@[simp] theorem setCount_zres (i : Fin 16) (n : Byte) : (setCount i n s).zres = s.zres := rfl
@[simp] theorem setCount_err (i : Fin 16) (n : Byte) : (setCount i n s).err = s.err := rfl
@[simp] theorem setCount_errinfo (i : Fin 16) (n : Byte) : (setCount i n s).errinfo = s.errinfo := rfl
@[simp] theorem setCount_out (i : Fin 16) (n : Byte) : (setCount i n s).out = s.out := rfl
@[simp] theorem setCount_draws (i : Fin 16) (n : Byte) : (setCount i n s).draws = s.draws := rfl

/-! ### `pushSymbol` -/

@[simp] theorem pushSymbol_cfg (v : Byte) (h : s.symcnt.val < 256) : (pushSymbol v s h).cfg = s.cfg := rfl
@[simp] theorem pushSymbol_prog (v : Byte) (h : s.symcnt.val < 256) : (pushSymbol v s h).prog = s.prog := rfl
@[simp] theorem pushSymbol_ci (v : Byte) (h : s.symcnt.val < 256) : (pushSymbol v s h).ci = s.ci := rfl
@[simp] theorem pushSymbol_link (v : Byte) (h : s.symcnt.val < 256) : (pushSymbol v s h).link = s.link := rfl
@[simp] theorem pushSymbol_hcount (v : Byte) (h : s.symcnt.val < 256) : (pushSymbol v s h).hcount = s.hcount := rfl
@[simp] theorem pushSymbol_symbuf (v : Byte) (h : s.symcnt.val < 256) : (pushSymbol v s h).symbuf = s.symbuf.set s.symcnt.val v := rfl
@[simp] theorem pushSymbol_symcnt (v : Byte) (h : s.symcnt.val < 256) : (pushSymbol v s h).symcnt = ⟨s.symcnt.val + 1, by omega⟩ := rfl
@[simp] theorem pushSymbol_hpoison (v : Byte) (h : s.symcnt.val < 256) : (pushSymbol v s h).hpoison = s.hpoison := rfl
@[simp] theorem pushSymbol_tree (v : Byte) (h : s.symcnt.val < 256) : (pushSymbol v s h).tree = s.tree := rfl
@[simp] theorem pushSymbol_dbound (v : Byte) (h : s.symcnt.val < 256) : (pushSymbol v s h).dbound = s.dbound := rfl
@[simp] theorem pushSymbol_dslot (v : Byte) (h : s.symcnt.val < 256) : (pushSymbol v s h).dslot = s.dslot := rfl
@[simp] theorem pushSymbol_cdepth (v : Byte) (h : s.symcnt.val < 256) : (pushSymbol v s h).cdepth = s.cdepth := rfl
@[simp] theorem pushSymbol_cpath (v : Byte) (h : s.symcnt.val < 256) : (pushSymbol v s h).cpath = s.cpath := rfl
@[simp] theorem pushSymbol_ddead (v : Byte) (h : s.symcnt.val < 256) : (pushSymbol v s h).ddead = s.ddead := rfl
@[simp] theorem pushSymbol_bitbuf (v : Byte) (h : s.symcnt.val < 256) : (pushSymbol v s h).bitbuf = s.bitbuf := rfl
@[simp] theorem pushSymbol_symout (v : Byte) (h : s.symcnt.val < 256) : (pushSymbol v s h).symout = s.symout := rfl
@[simp] theorem pushSymbol_symv (v : Byte) (h : s.symcnt.val < 256) : (pushSymbol v s h).symv = s.symv := rfl
@[simp] theorem pushSymbol_nemit (v : Byte) (h : s.symcnt.val < 256) : (pushSymbol v s h).nemit = s.nemit := rfl
@[simp] theorem pushSymbol_dstarved (v : Byte) (h : s.symcnt.val < 256) : (pushSymbol v s h).dstarved = s.dstarved := rfl
@[simp] theorem pushSymbol_zin (v : Byte) (h : s.symcnt.val < 256) : (pushSymbol v s h).zin = s.zin := rfl
@[simp] theorem pushSymbol_zcnt (v : Byte) (h : s.symcnt.val < 256) : (pushSymbol v s h).zcnt = s.zcnt := rfl
@[simp] theorem pushSymbol_zpoison (v : Byte) (h : s.symcnt.val < 256) : (pushSymbol v s h).zpoison = s.zpoison := rfl
@[simp] theorem pushSymbol_qblk (v : Byte) (h : s.symcnt.val < 256) : (pushSymbol v s h).qblk = s.qblk := rfl
@[simp] theorem pushSymbol_qvalid (v : Byte) (h : s.symcnt.val < 256) : (pushSymbol v s h).qvalid = s.qvalid := rfl
@[simp] theorem pushSymbol_zres (v : Byte) (h : s.symcnt.val < 256) : (pushSymbol v s h).zres = s.zres := rfl
@[simp] theorem pushSymbol_err (v : Byte) (h : s.symcnt.val < 256) : (pushSymbol v s h).err = s.err := rfl
@[simp] theorem pushSymbol_errinfo (v : Byte) (h : s.symcnt.val < 256) : (pushSymbol v s h).errinfo = s.errinfo := rfl
@[simp] theorem pushSymbol_out (v : Byte) (h : s.symcnt.val < 256) : (pushSymbol v s h).out = s.out := rfl
@[simp] theorem pushSymbol_draws (v : Byte) (h : s.symcnt.val < 256) : (pushSymbol v s h).draws = s.draws := rfl

/-! ### `clearStaging` -/

@[simp] theorem clearStaging_cfg : (clearStaging s).cfg = s.cfg := rfl
@[simp] theorem clearStaging_prog : (clearStaging s).prog = s.prog := rfl
@[simp] theorem clearStaging_ci : (clearStaging s).ci = s.ci := rfl
@[simp] theorem clearStaging_link : (clearStaging s).link = s.link := rfl
@[simp] theorem clearStaging_hcount : (clearStaging s).hcount = Vector.replicate 16 0#8 := rfl
@[simp] theorem clearStaging_symbuf : (clearStaging s).symbuf = s.symbuf := rfl
@[simp] theorem clearStaging_symcnt : (clearStaging s).symcnt = 0 := rfl
@[simp] theorem clearStaging_hpoison : (clearStaging s).hpoison = false := rfl
@[simp] theorem clearStaging_tree : (clearStaging s).tree = s.tree := rfl
@[simp] theorem clearStaging_dbound : (clearStaging s).dbound = s.dbound := rfl
@[simp] theorem clearStaging_dslot : (clearStaging s).dslot = s.dslot := rfl
@[simp] theorem clearStaging_cdepth : (clearStaging s).cdepth = s.cdepth := rfl
@[simp] theorem clearStaging_cpath : (clearStaging s).cpath = s.cpath := rfl
@[simp] theorem clearStaging_ddead : (clearStaging s).ddead = s.ddead := rfl
@[simp] theorem clearStaging_bitbuf : (clearStaging s).bitbuf = s.bitbuf := rfl
@[simp] theorem clearStaging_symout : (clearStaging s).symout = s.symout := rfl
@[simp] theorem clearStaging_symv : (clearStaging s).symv = s.symv := rfl
@[simp] theorem clearStaging_nemit : (clearStaging s).nemit = s.nemit := rfl
@[simp] theorem clearStaging_dstarved : (clearStaging s).dstarved = s.dstarved := rfl
@[simp] theorem clearStaging_zin : (clearStaging s).zin = s.zin := rfl
@[simp] theorem clearStaging_zcnt : (clearStaging s).zcnt = s.zcnt := rfl
@[simp] theorem clearStaging_zpoison : (clearStaging s).zpoison = s.zpoison := rfl
@[simp] theorem clearStaging_qblk : (clearStaging s).qblk = s.qblk := rfl
@[simp] theorem clearStaging_qvalid : (clearStaging s).qvalid = s.qvalid := rfl
@[simp] theorem clearStaging_zres : (clearStaging s).zres = s.zres := rfl
@[simp] theorem clearStaging_err : (clearStaging s).err = s.err := rfl
@[simp] theorem clearStaging_errinfo : (clearStaging s).errinfo = s.errinfo := rfl
@[simp] theorem clearStaging_out : (clearStaging s).out = s.out := rfl
@[simp] theorem clearStaging_draws : (clearStaging s).draws = s.draws := rfl

/-! ### `storeTree` -/

@[simp] theorem storeTree_cfg (t : Slot) (r : Option Node) : (storeTree t r s).cfg = s.cfg := rfl
@[simp] theorem storeTree_prog (t : Slot) (r : Option Node) : (storeTree t r s).prog = s.prog := rfl
@[simp] theorem storeTree_ci (t : Slot) (r : Option Node) : (storeTree t r s).ci = s.ci := rfl
@[simp] theorem storeTree_link (t : Slot) (r : Option Node) : (storeTree t r s).link = s.link := rfl
@[simp] theorem storeTree_hcount (t : Slot) (r : Option Node) : (storeTree t r s).hcount = s.hcount := rfl
@[simp] theorem storeTree_symbuf (t : Slot) (r : Option Node) : (storeTree t r s).symbuf = s.symbuf := rfl
@[simp] theorem storeTree_symcnt (t : Slot) (r : Option Node) : (storeTree t r s).symcnt = s.symcnt := rfl
@[simp] theorem storeTree_hpoison (t : Slot) (r : Option Node) : (storeTree t r s).hpoison = s.hpoison := rfl
@[simp] theorem storeTree_tree (t : Slot) (r : Option Node) : (storeTree t r s).tree = s.tree.set t r := rfl
@[simp] theorem storeTree_dbound (t : Slot) (r : Option Node) : (storeTree t r s).dbound = s.dbound := rfl
@[simp] theorem storeTree_dslot (t : Slot) (r : Option Node) : (storeTree t r s).dslot = s.dslot := rfl
@[simp] theorem storeTree_cdepth (t : Slot) (r : Option Node) : (storeTree t r s).cdepth = s.cdepth := rfl
@[simp] theorem storeTree_cpath (t : Slot) (r : Option Node) : (storeTree t r s).cpath = s.cpath := rfl
@[simp] theorem storeTree_ddead (t : Slot) (r : Option Node) : (storeTree t r s).ddead = s.ddead := rfl
@[simp] theorem storeTree_bitbuf (t : Slot) (r : Option Node) : (storeTree t r s).bitbuf = s.bitbuf := rfl
@[simp] theorem storeTree_symout (t : Slot) (r : Option Node) : (storeTree t r s).symout = s.symout := rfl
@[simp] theorem storeTree_symv (t : Slot) (r : Option Node) : (storeTree t r s).symv = s.symv := rfl
@[simp] theorem storeTree_nemit (t : Slot) (r : Option Node) : (storeTree t r s).nemit = s.nemit := rfl
@[simp] theorem storeTree_dstarved (t : Slot) (r : Option Node) : (storeTree t r s).dstarved = s.dstarved := rfl
@[simp] theorem storeTree_zin (t : Slot) (r : Option Node) : (storeTree t r s).zin = s.zin := rfl
@[simp] theorem storeTree_zcnt (t : Slot) (r : Option Node) : (storeTree t r s).zcnt = s.zcnt := rfl
@[simp] theorem storeTree_zpoison (t : Slot) (r : Option Node) : (storeTree t r s).zpoison = s.zpoison := rfl
@[simp] theorem storeTree_qblk (t : Slot) (r : Option Node) : (storeTree t r s).qblk = s.qblk := rfl
@[simp] theorem storeTree_qvalid (t : Slot) (r : Option Node) : (storeTree t r s).qvalid = s.qvalid := rfl
@[simp] theorem storeTree_zres (t : Slot) (r : Option Node) : (storeTree t r s).zres = s.zres := rfl
@[simp] theorem storeTree_err (t : Slot) (r : Option Node) : (storeTree t r s).err = s.err := rfl
@[simp] theorem storeTree_errinfo (t : Slot) (r : Option Node) : (storeTree t r s).errinfo = s.errinfo := rfl
@[simp] theorem storeTree_out (t : Slot) (r : Option Node) : (storeTree t r s).out = s.out := rfl
@[simp] theorem storeTree_draws (t : Slot) (r : Option Node) : (storeTree t r s).draws = s.draws := rfl

/-! ### `cursorToRoot` -/

@[simp] theorem cursorToRoot_cfg : (cursorToRoot s).cfg = s.cfg := rfl
@[simp] theorem cursorToRoot_prog : (cursorToRoot s).prog = s.prog := rfl
@[simp] theorem cursorToRoot_ci : (cursorToRoot s).ci = s.ci := rfl
@[simp] theorem cursorToRoot_link : (cursorToRoot s).link = s.link := rfl
@[simp] theorem cursorToRoot_hcount : (cursorToRoot s).hcount = s.hcount := rfl
@[simp] theorem cursorToRoot_symbuf : (cursorToRoot s).symbuf = s.symbuf := rfl
@[simp] theorem cursorToRoot_symcnt : (cursorToRoot s).symcnt = s.symcnt := rfl
@[simp] theorem cursorToRoot_hpoison : (cursorToRoot s).hpoison = s.hpoison := rfl
@[simp] theorem cursorToRoot_tree : (cursorToRoot s).tree = s.tree := rfl
@[simp] theorem cursorToRoot_dbound : (cursorToRoot s).dbound = s.dbound := rfl
@[simp] theorem cursorToRoot_dslot : (cursorToRoot s).dslot = s.dslot := rfl
@[simp] theorem cursorToRoot_cdepth : (cursorToRoot s).cdepth = 0 := rfl
@[simp] theorem cursorToRoot_cpath : (cursorToRoot s).cpath = 0#16 := rfl
@[simp] theorem cursorToRoot_ddead : (cursorToRoot s).ddead = s.ddead := rfl
@[simp] theorem cursorToRoot_bitbuf : (cursorToRoot s).bitbuf = s.bitbuf := rfl
@[simp] theorem cursorToRoot_symout : (cursorToRoot s).symout = s.symout := rfl
@[simp] theorem cursorToRoot_symv : (cursorToRoot s).symv = s.symv := rfl
@[simp] theorem cursorToRoot_nemit : (cursorToRoot s).nemit = s.nemit := rfl
@[simp] theorem cursorToRoot_dstarved : (cursorToRoot s).dstarved = s.dstarved := rfl
@[simp] theorem cursorToRoot_zin : (cursorToRoot s).zin = s.zin := rfl
@[simp] theorem cursorToRoot_zcnt : (cursorToRoot s).zcnt = s.zcnt := rfl
@[simp] theorem cursorToRoot_zpoison : (cursorToRoot s).zpoison = s.zpoison := rfl
@[simp] theorem cursorToRoot_qblk : (cursorToRoot s).qblk = s.qblk := rfl
@[simp] theorem cursorToRoot_qvalid : (cursorToRoot s).qvalid = s.qvalid := rfl
@[simp] theorem cursorToRoot_zres : (cursorToRoot s).zres = s.zres := rfl
@[simp] theorem cursorToRoot_err : (cursorToRoot s).err = s.err := rfl
@[simp] theorem cursorToRoot_errinfo : (cursorToRoot s).errinfo = s.errinfo := rfl
@[simp] theorem cursorToRoot_out : (cursorToRoot s).out = s.out := rfl
@[simp] theorem cursorToRoot_draws : (cursorToRoot s).draws = s.draws := rfl

/-! ### `killPass` -/

@[simp] theorem killPass_cfg : (killPass s).cfg = s.cfg := rfl
@[simp] theorem killPass_prog : (killPass s).prog = s.prog := rfl
@[simp] theorem killPass_ci : (killPass s).ci = s.ci := rfl
@[simp] theorem killPass_link : (killPass s).link = s.link := rfl
@[simp] theorem killPass_hcount : (killPass s).hcount = s.hcount := rfl
@[simp] theorem killPass_symbuf : (killPass s).symbuf = s.symbuf := rfl
@[simp] theorem killPass_symcnt : (killPass s).symcnt = s.symcnt := rfl
@[simp] theorem killPass_hpoison : (killPass s).hpoison = s.hpoison := rfl
@[simp] theorem killPass_tree : (killPass s).tree = s.tree := rfl
@[simp] theorem killPass_dbound : (killPass s).dbound = s.dbound := rfl
@[simp] theorem killPass_dslot : (killPass s).dslot = s.dslot := rfl
@[simp] theorem killPass_cdepth : (killPass s).cdepth = s.cdepth := rfl
@[simp] theorem killPass_cpath : (killPass s).cpath = s.cpath := rfl
@[simp] theorem killPass_ddead : (killPass s).ddead = true := rfl
@[simp] theorem killPass_bitbuf : (killPass s).bitbuf = s.bitbuf := rfl
@[simp] theorem killPass_symout : (killPass s).symout = s.symout := rfl
@[simp] theorem killPass_symv : (killPass s).symv = s.symv := rfl
@[simp] theorem killPass_nemit : (killPass s).nemit = s.nemit := rfl
@[simp] theorem killPass_dstarved : (killPass s).dstarved = s.dstarved := rfl
@[simp] theorem killPass_zin : (killPass s).zin = s.zin := rfl
@[simp] theorem killPass_zcnt : (killPass s).zcnt = s.zcnt := rfl
@[simp] theorem killPass_zpoison : (killPass s).zpoison = s.zpoison := rfl
@[simp] theorem killPass_qblk : (killPass s).qblk = s.qblk := rfl
@[simp] theorem killPass_qvalid : (killPass s).qvalid = s.qvalid := rfl
@[simp] theorem killPass_zres : (killPass s).zres = s.zres := rfl
@[simp] theorem killPass_err : (killPass s).err = s.err := rfl
@[simp] theorem killPass_errinfo : (killPass s).errinfo = s.errinfo := rfl
@[simp] theorem killPass_out : (killPass s).out = s.out := rfl
@[simp] theorem killPass_draws : (killPass s).draws = s.draws := rfl

/-! ### `restartPass` -/

@[simp] theorem restartPass_cfg : (restartPass s).cfg = s.cfg := rfl
@[simp] theorem restartPass_prog : (restartPass s).prog = s.prog := rfl
@[simp] theorem restartPass_ci : (restartPass s).ci = s.ci := rfl
@[simp] theorem restartPass_link : (restartPass s).link = s.link := rfl
@[simp] theorem restartPass_hcount : (restartPass s).hcount = s.hcount := rfl
@[simp] theorem restartPass_symbuf : (restartPass s).symbuf = s.symbuf := rfl
@[simp] theorem restartPass_symcnt : (restartPass s).symcnt = s.symcnt := rfl
@[simp] theorem restartPass_hpoison : (restartPass s).hpoison = s.hpoison := rfl
@[simp] theorem restartPass_tree : (restartPass s).tree = s.tree := rfl
@[simp] theorem restartPass_dbound : (restartPass s).dbound = s.dbound := rfl
@[simp] theorem restartPass_dslot : (restartPass s).dslot = s.dslot := rfl
@[simp] theorem restartPass_cdepth : (restartPass s).cdepth = 0 := rfl
@[simp] theorem restartPass_cpath : (restartPass s).cpath = 0#16 := rfl
@[simp] theorem restartPass_ddead : (restartPass s).ddead = false := rfl
@[simp] theorem restartPass_bitbuf : (restartPass s).bitbuf = s.bitbuf := rfl
@[simp] theorem restartPass_symout : (restartPass s).symout = s.symout := rfl
@[simp] theorem restartPass_symv : (restartPass s).symv = s.symv := rfl
@[simp] theorem restartPass_nemit : (restartPass s).nemit = s.nemit := rfl
@[simp] theorem restartPass_dstarved : (restartPass s).dstarved = false := rfl
@[simp] theorem restartPass_zin : (restartPass s).zin = s.zin := rfl
@[simp] theorem restartPass_zcnt : (restartPass s).zcnt = s.zcnt := rfl
@[simp] theorem restartPass_zpoison : (restartPass s).zpoison = s.zpoison := rfl
@[simp] theorem restartPass_qblk : (restartPass s).qblk = s.qblk := rfl
@[simp] theorem restartPass_qvalid : (restartPass s).qvalid = s.qvalid := rfl
@[simp] theorem restartPass_zres : (restartPass s).zres = s.zres := rfl
@[simp] theorem restartPass_err : (restartPass s).err = s.err := rfl
@[simp] theorem restartPass_errinfo : (restartPass s).errinfo = s.errinfo := rfl
@[simp] theorem restartPass_out : (restartPass s).out = s.out := rfl
@[simp] theorem restartPass_draws : (restartPass s).draws = s.draws := rfl

/-! ### `appendByte` -/

@[simp] theorem appendByte_cfg (b : Byte) : (appendByte b s).cfg = s.cfg := rfl
@[simp] theorem appendByte_prog (b : Byte) : (appendByte b s).prog = s.prog := rfl
@[simp] theorem appendByte_ci (b : Byte) : (appendByte b s).ci = s.ci := rfl
@[simp] theorem appendByte_link (b : Byte) : (appendByte b s).link = s.link := rfl
@[simp] theorem appendByte_hcount (b : Byte) : (appendByte b s).hcount = s.hcount := rfl
@[simp] theorem appendByte_symbuf (b : Byte) : (appendByte b s).symbuf = s.symbuf := rfl
@[simp] theorem appendByte_symcnt (b : Byte) : (appendByte b s).symcnt = s.symcnt := rfl
@[simp] theorem appendByte_hpoison (b : Byte) : (appendByte b s).hpoison = s.hpoison := rfl
@[simp] theorem appendByte_tree (b : Byte) : (appendByte b s).tree = s.tree := rfl
@[simp] theorem appendByte_dbound (b : Byte) : (appendByte b s).dbound = s.dbound := rfl
@[simp] theorem appendByte_dslot (b : Byte) : (appendByte b s).dslot = s.dslot := rfl
@[simp] theorem appendByte_cdepth (b : Byte) : (appendByte b s).cdepth = s.cdepth := rfl
@[simp] theorem appendByte_cpath (b : Byte) : (appendByte b s).cpath = s.cpath := rfl
@[simp] theorem appendByte_ddead (b : Byte) : (appendByte b s).ddead = s.ddead := rfl
@[simp] theorem appendByte_bitbuf (b : Byte) : (appendByte b s).bitbuf = s.bitbuf ++ byteBits b := rfl
@[simp] theorem appendByte_symout (b : Byte) : (appendByte b s).symout = s.symout := rfl
@[simp] theorem appendByte_symv (b : Byte) : (appendByte b s).symv = s.symv := rfl
@[simp] theorem appendByte_nemit (b : Byte) : (appendByte b s).nemit = s.nemit := rfl
@[simp] theorem appendByte_dstarved (b : Byte) : (appendByte b s).dstarved = s.dstarved := rfl
@[simp] theorem appendByte_zin (b : Byte) : (appendByte b s).zin = s.zin := rfl
@[simp] theorem appendByte_zcnt (b : Byte) : (appendByte b s).zcnt = s.zcnt := rfl
@[simp] theorem appendByte_zpoison (b : Byte) : (appendByte b s).zpoison = s.zpoison := rfl
@[simp] theorem appendByte_qblk (b : Byte) : (appendByte b s).qblk = s.qblk := rfl
@[simp] theorem appendByte_qvalid (b : Byte) : (appendByte b s).qvalid = s.qvalid := rfl
@[simp] theorem appendByte_zres (b : Byte) : (appendByte b s).zres = s.zres := rfl
@[simp] theorem appendByte_err (b : Byte) : (appendByte b s).err = s.err := rfl
@[simp] theorem appendByte_errinfo (b : Byte) : (appendByte b s).errinfo = s.errinfo := rfl
@[simp] theorem appendByte_out (b : Byte) : (appendByte b s).out = s.out := rfl
@[simp] theorem appendByte_draws (b : Byte) : (appendByte b s).draws = s.draws := rfl

/-! ### `emitSymbol` -/

@[simp] theorem emitSymbol_cfg (v : Byte) : (emitSymbol v s).cfg = s.cfg := rfl
@[simp] theorem emitSymbol_prog (v : Byte) : (emitSymbol v s).prog = s.prog := rfl
@[simp] theorem emitSymbol_ci (v : Byte) : (emitSymbol v s).ci = s.ci := rfl
@[simp] theorem emitSymbol_link (v : Byte) : (emitSymbol v s).link = s.link := rfl
@[simp] theorem emitSymbol_hcount (v : Byte) : (emitSymbol v s).hcount = s.hcount := rfl
@[simp] theorem emitSymbol_symbuf (v : Byte) : (emitSymbol v s).symbuf = s.symbuf := rfl
@[simp] theorem emitSymbol_symcnt (v : Byte) : (emitSymbol v s).symcnt = s.symcnt := rfl
@[simp] theorem emitSymbol_hpoison (v : Byte) : (emitSymbol v s).hpoison = s.hpoison := rfl
@[simp] theorem emitSymbol_tree (v : Byte) : (emitSymbol v s).tree = s.tree := rfl
@[simp] theorem emitSymbol_dbound (v : Byte) : (emitSymbol v s).dbound = s.dbound := rfl
@[simp] theorem emitSymbol_dslot (v : Byte) : (emitSymbol v s).dslot = s.dslot := rfl
@[simp] theorem emitSymbol_cdepth (v : Byte) : (emitSymbol v s).cdepth = 0 := rfl
@[simp] theorem emitSymbol_cpath (v : Byte) : (emitSymbol v s).cpath = 0#16 := rfl
@[simp] theorem emitSymbol_ddead (v : Byte) : (emitSymbol v s).ddead = s.ddead := rfl
@[simp] theorem emitSymbol_bitbuf (v : Byte) : (emitSymbol v s).bitbuf = s.bitbuf := rfl
@[simp] theorem emitSymbol_symout (v : Byte) : (emitSymbol v s).symout = v := rfl
@[simp] theorem emitSymbol_symv (v : Byte) : (emitSymbol v s).symv = true := rfl
@[simp] theorem emitSymbol_nemit (v : Byte) : (emitSymbol v s).nemit = s.nemit + 1 := rfl
@[simp] theorem emitSymbol_dstarved (v : Byte) : (emitSymbol v s).dstarved = s.dstarved := rfl
@[simp] theorem emitSymbol_zin (v : Byte) : (emitSymbol v s).zin = s.zin := rfl
@[simp] theorem emitSymbol_zcnt (v : Byte) : (emitSymbol v s).zcnt = s.zcnt := rfl
@[simp] theorem emitSymbol_zpoison (v : Byte) : (emitSymbol v s).zpoison = s.zpoison := rfl
@[simp] theorem emitSymbol_qblk (v : Byte) : (emitSymbol v s).qblk = s.qblk := rfl
@[simp] theorem emitSymbol_qvalid (v : Byte) : (emitSymbol v s).qvalid = s.qvalid := rfl
@[simp] theorem emitSymbol_zres (v : Byte) : (emitSymbol v s).zres = s.zres := rfl
@[simp] theorem emitSymbol_err (v : Byte) : (emitSymbol v s).err = s.err := rfl
@[simp] theorem emitSymbol_errinfo (v : Byte) : (emitSymbol v s).errinfo = s.errinfo := rfl
@[simp] theorem emitSymbol_out (v : Byte) : (emitSymbol v s).out = s.out ++ [.sym s.dslot v] := rfl
@[simp] theorem emitSymbol_draws (v : Byte) : (emitSymbol v s).draws = s.draws := rfl

/-! ### `pushValue` -/

@[simp] theorem pushValue_cfg (v : Elem) (h : s.zcnt.val < 64) : (pushValue v s h).cfg = s.cfg := rfl
@[simp] theorem pushValue_prog (v : Elem) (h : s.zcnt.val < 64) : (pushValue v s h).prog = s.prog := rfl
@[simp] theorem pushValue_ci (v : Elem) (h : s.zcnt.val < 64) : (pushValue v s h).ci = s.ci := rfl
@[simp] theorem pushValue_link (v : Elem) (h : s.zcnt.val < 64) : (pushValue v s h).link = s.link := rfl
@[simp] theorem pushValue_hcount (v : Elem) (h : s.zcnt.val < 64) : (pushValue v s h).hcount = s.hcount := rfl
@[simp] theorem pushValue_symbuf (v : Elem) (h : s.zcnt.val < 64) : (pushValue v s h).symbuf = s.symbuf := rfl
@[simp] theorem pushValue_symcnt (v : Elem) (h : s.zcnt.val < 64) : (pushValue v s h).symcnt = s.symcnt := rfl
@[simp] theorem pushValue_hpoison (v : Elem) (h : s.zcnt.val < 64) : (pushValue v s h).hpoison = s.hpoison := rfl
@[simp] theorem pushValue_tree (v : Elem) (h : s.zcnt.val < 64) : (pushValue v s h).tree = s.tree := rfl
@[simp] theorem pushValue_dbound (v : Elem) (h : s.zcnt.val < 64) : (pushValue v s h).dbound = s.dbound := rfl
@[simp] theorem pushValue_dslot (v : Elem) (h : s.zcnt.val < 64) : (pushValue v s h).dslot = s.dslot := rfl
@[simp] theorem pushValue_cdepth (v : Elem) (h : s.zcnt.val < 64) : (pushValue v s h).cdepth = s.cdepth := rfl
@[simp] theorem pushValue_cpath (v : Elem) (h : s.zcnt.val < 64) : (pushValue v s h).cpath = s.cpath := rfl
@[simp] theorem pushValue_ddead (v : Elem) (h : s.zcnt.val < 64) : (pushValue v s h).ddead = s.ddead := rfl
@[simp] theorem pushValue_bitbuf (v : Elem) (h : s.zcnt.val < 64) : (pushValue v s h).bitbuf = s.bitbuf := rfl
@[simp] theorem pushValue_symout (v : Elem) (h : s.zcnt.val < 64) : (pushValue v s h).symout = s.symout := rfl
@[simp] theorem pushValue_symv (v : Elem) (h : s.zcnt.val < 64) : (pushValue v s h).symv = s.symv := rfl
@[simp] theorem pushValue_nemit (v : Elem) (h : s.zcnt.val < 64) : (pushValue v s h).nemit = s.nemit := rfl
@[simp] theorem pushValue_dstarved (v : Elem) (h : s.zcnt.val < 64) : (pushValue v s h).dstarved = s.dstarved := rfl
@[simp] theorem pushValue_zin (v : Elem) (h : s.zcnt.val < 64) : (pushValue v s h).zin = s.zin.set s.zcnt.val v := rfl
@[simp] theorem pushValue_zcnt (v : Elem) (h : s.zcnt.val < 64) : (pushValue v s h).zcnt = ⟨s.zcnt.val + 1, by omega⟩ := rfl
@[simp] theorem pushValue_zpoison (v : Elem) (h : s.zcnt.val < 64) : (pushValue v s h).zpoison = s.zpoison := rfl
@[simp] theorem pushValue_qblk (v : Elem) (h : s.zcnt.val < 64) : (pushValue v s h).qblk = s.qblk := rfl
@[simp] theorem pushValue_qvalid (v : Elem) (h : s.zcnt.val < 64) : (pushValue v s h).qvalid = s.qvalid := rfl
@[simp] theorem pushValue_zres (v : Elem) (h : s.zcnt.val < 64) : (pushValue v s h).zres = s.zres := rfl
@[simp] theorem pushValue_err (v : Elem) (h : s.zcnt.val < 64) : (pushValue v s h).err = s.err := rfl
@[simp] theorem pushValue_errinfo (v : Elem) (h : s.zcnt.val < 64) : (pushValue v s h).errinfo = s.errinfo := rfl
@[simp] theorem pushValue_out (v : Elem) (h : s.zcnt.val < 64) : (pushValue v s h).out = s.out := rfl
@[simp] theorem pushValue_draws (v : Elem) (h : s.zcnt.val < 64) : (pushValue v s h).draws = s.draws := rfl

/-! ### `clearInput` -/

@[simp] theorem clearInput_cfg : (clearInput s).cfg = s.cfg := rfl
@[simp] theorem clearInput_prog : (clearInput s).prog = s.prog := rfl
@[simp] theorem clearInput_ci : (clearInput s).ci = s.ci := rfl
@[simp] theorem clearInput_link : (clearInput s).link = s.link := rfl
@[simp] theorem clearInput_hcount : (clearInput s).hcount = s.hcount := rfl
@[simp] theorem clearInput_symbuf : (clearInput s).symbuf = s.symbuf := rfl
@[simp] theorem clearInput_symcnt : (clearInput s).symcnt = s.symcnt := rfl
@[simp] theorem clearInput_hpoison : (clearInput s).hpoison = s.hpoison := rfl
@[simp] theorem clearInput_tree : (clearInput s).tree = s.tree := rfl
@[simp] theorem clearInput_dbound : (clearInput s).dbound = s.dbound := rfl
@[simp] theorem clearInput_dslot : (clearInput s).dslot = s.dslot := rfl
@[simp] theorem clearInput_cdepth : (clearInput s).cdepth = s.cdepth := rfl
@[simp] theorem clearInput_cpath : (clearInput s).cpath = s.cpath := rfl
@[simp] theorem clearInput_ddead : (clearInput s).ddead = s.ddead := rfl
@[simp] theorem clearInput_bitbuf : (clearInput s).bitbuf = s.bitbuf := rfl
@[simp] theorem clearInput_symout : (clearInput s).symout = s.symout := rfl
@[simp] theorem clearInput_symv : (clearInput s).symv = s.symv := rfl
@[simp] theorem clearInput_nemit : (clearInput s).nemit = s.nemit := rfl
@[simp] theorem clearInput_dstarved : (clearInput s).dstarved = s.dstarved := rfl
@[simp] theorem clearInput_zin : (clearInput s).zin = s.zin := rfl
@[simp] theorem clearInput_zcnt : (clearInput s).zcnt = 0 := rfl
@[simp] theorem clearInput_zpoison : (clearInput s).zpoison = false := rfl
@[simp] theorem clearInput_qblk : (clearInput s).qblk = s.qblk := rfl
@[simp] theorem clearInput_qvalid : (clearInput s).qvalid = s.qvalid := rfl
@[simp] theorem clearInput_zres : (clearInput s).zres = s.zres := rfl
@[simp] theorem clearInput_err : (clearInput s).err = s.err := rfl
@[simp] theorem clearInput_errinfo : (clearInput s).errinfo = s.errinfo := rfl
@[simp] theorem clearInput_out : (clearInput s).out = s.out := rfl
@[simp] theorem clearInput_draws : (clearInput s).draws = s.draws := rfl

/-! ### `storeBlock` -/

@[simp] theorem storeBlock_cfg (q : QSlot) (b : Vector Elem 64) : (storeBlock q b s).cfg = s.cfg := rfl
@[simp] theorem storeBlock_prog (q : QSlot) (b : Vector Elem 64) : (storeBlock q b s).prog = s.prog := rfl
@[simp] theorem storeBlock_ci (q : QSlot) (b : Vector Elem 64) : (storeBlock q b s).ci = s.ci := rfl
@[simp] theorem storeBlock_link (q : QSlot) (b : Vector Elem 64) : (storeBlock q b s).link = s.link := rfl
@[simp] theorem storeBlock_hcount (q : QSlot) (b : Vector Elem 64) : (storeBlock q b s).hcount = s.hcount := rfl
@[simp] theorem storeBlock_symbuf (q : QSlot) (b : Vector Elem 64) : (storeBlock q b s).symbuf = s.symbuf := rfl
@[simp] theorem storeBlock_symcnt (q : QSlot) (b : Vector Elem 64) : (storeBlock q b s).symcnt = s.symcnt := rfl
@[simp] theorem storeBlock_hpoison (q : QSlot) (b : Vector Elem 64) : (storeBlock q b s).hpoison = s.hpoison := rfl
@[simp] theorem storeBlock_tree (q : QSlot) (b : Vector Elem 64) : (storeBlock q b s).tree = s.tree := rfl
@[simp] theorem storeBlock_dbound (q : QSlot) (b : Vector Elem 64) : (storeBlock q b s).dbound = s.dbound := rfl
@[simp] theorem storeBlock_dslot (q : QSlot) (b : Vector Elem 64) : (storeBlock q b s).dslot = s.dslot := rfl
@[simp] theorem storeBlock_cdepth (q : QSlot) (b : Vector Elem 64) : (storeBlock q b s).cdepth = s.cdepth := rfl
@[simp] theorem storeBlock_cpath (q : QSlot) (b : Vector Elem 64) : (storeBlock q b s).cpath = s.cpath := rfl
@[simp] theorem storeBlock_ddead (q : QSlot) (b : Vector Elem 64) : (storeBlock q b s).ddead = s.ddead := rfl
@[simp] theorem storeBlock_bitbuf (q : QSlot) (b : Vector Elem 64) : (storeBlock q b s).bitbuf = s.bitbuf := rfl
@[simp] theorem storeBlock_symout (q : QSlot) (b : Vector Elem 64) : (storeBlock q b s).symout = s.symout := rfl
@[simp] theorem storeBlock_symv (q : QSlot) (b : Vector Elem 64) : (storeBlock q b s).symv = s.symv := rfl
@[simp] theorem storeBlock_nemit (q : QSlot) (b : Vector Elem 64) : (storeBlock q b s).nemit = s.nemit := rfl
@[simp] theorem storeBlock_dstarved (q : QSlot) (b : Vector Elem 64) : (storeBlock q b s).dstarved = s.dstarved := rfl
@[simp] theorem storeBlock_zin (q : QSlot) (b : Vector Elem 64) : (storeBlock q b s).zin = s.zin := rfl
@[simp] theorem storeBlock_zcnt (q : QSlot) (b : Vector Elem 64) : (storeBlock q b s).zcnt = s.zcnt := rfl
@[simp] theorem storeBlock_zpoison (q : QSlot) (b : Vector Elem 64) : (storeBlock q b s).zpoison = s.zpoison := rfl
@[simp] theorem storeBlock_qblk (q : QSlot) (b : Vector Elem 64) : (storeBlock q b s).qblk = s.qblk.set q b := rfl
@[simp] theorem storeBlock_qvalid (q : QSlot) (b : Vector Elem 64) : (storeBlock q b s).qvalid = s.qvalid.set q true := rfl
@[simp] theorem storeBlock_zres (q : QSlot) (b : Vector Elem 64) : (storeBlock q b s).zres = s.zres := rfl
@[simp] theorem storeBlock_err (q : QSlot) (b : Vector Elem 64) : (storeBlock q b s).err = s.err := rfl
@[simp] theorem storeBlock_errinfo (q : QSlot) (b : Vector Elem 64) : (storeBlock q b s).errinfo = s.errinfo := rfl
@[simp] theorem storeBlock_out (q : QSlot) (b : Vector Elem 64) : (storeBlock q b s).out = s.out := rfl
@[simp] theorem storeBlock_draws (q : QSlot) (b : Vector Elem 64) : (storeBlock q b s).draws = s.draws := rfl

/-! ### `invalidateBlock` -/

@[simp] theorem invalidateBlock_cfg (q : QSlot) : (invalidateBlock q s).cfg = s.cfg := rfl
@[simp] theorem invalidateBlock_prog (q : QSlot) : (invalidateBlock q s).prog = s.prog := rfl
@[simp] theorem invalidateBlock_ci (q : QSlot) : (invalidateBlock q s).ci = s.ci := rfl
@[simp] theorem invalidateBlock_link (q : QSlot) : (invalidateBlock q s).link = s.link := rfl
@[simp] theorem invalidateBlock_hcount (q : QSlot) : (invalidateBlock q s).hcount = s.hcount := rfl
@[simp] theorem invalidateBlock_symbuf (q : QSlot) : (invalidateBlock q s).symbuf = s.symbuf := rfl
@[simp] theorem invalidateBlock_symcnt (q : QSlot) : (invalidateBlock q s).symcnt = s.symcnt := rfl
@[simp] theorem invalidateBlock_hpoison (q : QSlot) : (invalidateBlock q s).hpoison = s.hpoison := rfl
@[simp] theorem invalidateBlock_tree (q : QSlot) : (invalidateBlock q s).tree = s.tree := rfl
@[simp] theorem invalidateBlock_dbound (q : QSlot) : (invalidateBlock q s).dbound = s.dbound := rfl
@[simp] theorem invalidateBlock_dslot (q : QSlot) : (invalidateBlock q s).dslot = s.dslot := rfl
@[simp] theorem invalidateBlock_cdepth (q : QSlot) : (invalidateBlock q s).cdepth = s.cdepth := rfl
@[simp] theorem invalidateBlock_cpath (q : QSlot) : (invalidateBlock q s).cpath = s.cpath := rfl
@[simp] theorem invalidateBlock_ddead (q : QSlot) : (invalidateBlock q s).ddead = s.ddead := rfl
@[simp] theorem invalidateBlock_bitbuf (q : QSlot) : (invalidateBlock q s).bitbuf = s.bitbuf := rfl
@[simp] theorem invalidateBlock_symout (q : QSlot) : (invalidateBlock q s).symout = s.symout := rfl
@[simp] theorem invalidateBlock_symv (q : QSlot) : (invalidateBlock q s).symv = s.symv := rfl
@[simp] theorem invalidateBlock_nemit (q : QSlot) : (invalidateBlock q s).nemit = s.nemit := rfl
@[simp] theorem invalidateBlock_dstarved (q : QSlot) : (invalidateBlock q s).dstarved = s.dstarved := rfl
@[simp] theorem invalidateBlock_zin (q : QSlot) : (invalidateBlock q s).zin = s.zin := rfl
@[simp] theorem invalidateBlock_zcnt (q : QSlot) : (invalidateBlock q s).zcnt = s.zcnt := rfl
@[simp] theorem invalidateBlock_zpoison (q : QSlot) : (invalidateBlock q s).zpoison = s.zpoison := rfl
@[simp] theorem invalidateBlock_qblk (q : QSlot) : (invalidateBlock q s).qblk = s.qblk := rfl
@[simp] theorem invalidateBlock_qvalid (q : QSlot) : (invalidateBlock q s).qvalid = s.qvalid.set q false := rfl
@[simp] theorem invalidateBlock_zres (q : QSlot) : (invalidateBlock q s).zres = s.zres := rfl
@[simp] theorem invalidateBlock_err (q : QSlot) : (invalidateBlock q s).err = s.err := rfl
@[simp] theorem invalidateBlock_errinfo (q : QSlot) : (invalidateBlock q s).errinfo = s.errinfo := rfl
@[simp] theorem invalidateBlock_out (q : QSlot) : (invalidateBlock q s).out = s.out := rfl
@[simp] theorem invalidateBlock_draws (q : QSlot) : (invalidateBlock q s).draws = s.draws := rfl

/-! ### `starve` -/

@[simp] theorem starve_cfg : (starve s).cfg = s.cfg := rfl
@[simp] theorem starve_prog : (starve s).prog = s.prog := rfl
@[simp] theorem starve_ci : (starve s).ci = s.ci := rfl
@[simp] theorem starve_link : (starve s).link = s.link := rfl
@[simp] theorem starve_hcount : (starve s).hcount = s.hcount := rfl
@[simp] theorem starve_symbuf : (starve s).symbuf = s.symbuf := rfl
@[simp] theorem starve_symcnt : (starve s).symcnt = s.symcnt := rfl
@[simp] theorem starve_hpoison : (starve s).hpoison = s.hpoison := rfl
@[simp] theorem starve_tree : (starve s).tree = s.tree := rfl
@[simp] theorem starve_dbound : (starve s).dbound = s.dbound := rfl
@[simp] theorem starve_dslot : (starve s).dslot = s.dslot := rfl
@[simp] theorem starve_cdepth : (starve s).cdepth = s.cdepth := rfl
@[simp] theorem starve_cpath : (starve s).cpath = s.cpath := rfl
@[simp] theorem starve_ddead : (starve s).ddead = s.ddead := rfl
@[simp] theorem starve_bitbuf : (starve s).bitbuf = s.bitbuf := rfl
@[simp] theorem starve_symout : (starve s).symout = s.symout := rfl
@[simp] theorem starve_symv : (starve s).symv = s.symv := rfl
@[simp] theorem starve_nemit : (starve s).nemit = s.nemit := rfl
@[simp] theorem starve_dstarved : (starve s).dstarved = true := rfl
@[simp] theorem starve_zin : (starve s).zin = s.zin := rfl
@[simp] theorem starve_zcnt : (starve s).zcnt = s.zcnt := rfl
@[simp] theorem starve_zpoison : (starve s).zpoison = s.zpoison := rfl
@[simp] theorem starve_qblk : (starve s).qblk = s.qblk := rfl
@[simp] theorem starve_qvalid : (starve s).qvalid = s.qvalid := rfl
@[simp] theorem starve_zres : (starve s).zres = s.zres := rfl
@[simp] theorem starve_err : (starve s).err = s.err := rfl
@[simp] theorem starve_errinfo : (starve s).errinfo = s.errinfo := rfl
@[simp] theorem starve_out : (starve s).out = s.out := rfl
@[simp] theorem starve_draws : (starve s).draws = s.draws := rfl

/-! ### `beginDecode` -/

@[simp] theorem beginDecode_cfg : (beginDecode s).cfg = s.cfg := rfl
@[simp] theorem beginDecode_prog : (beginDecode s).prog = s.prog := rfl
@[simp] theorem beginDecode_ci : (beginDecode s).ci = s.ci := rfl
@[simp] theorem beginDecode_link : (beginDecode s).link = s.link := rfl
@[simp] theorem beginDecode_hcount : (beginDecode s).hcount = s.hcount := rfl
@[simp] theorem beginDecode_symbuf : (beginDecode s).symbuf = s.symbuf := rfl
@[simp] theorem beginDecode_symcnt : (beginDecode s).symcnt = s.symcnt := rfl
@[simp] theorem beginDecode_hpoison : (beginDecode s).hpoison = s.hpoison := rfl
@[simp] theorem beginDecode_tree : (beginDecode s).tree = s.tree := rfl
@[simp] theorem beginDecode_dbound : (beginDecode s).dbound = s.dbound := rfl
@[simp] theorem beginDecode_dslot : (beginDecode s).dslot = s.dslot := rfl
@[simp] theorem beginDecode_cdepth : (beginDecode s).cdepth = s.cdepth := rfl
@[simp] theorem beginDecode_cpath : (beginDecode s).cpath = s.cpath := rfl
@[simp] theorem beginDecode_ddead : (beginDecode s).ddead = s.ddead := rfl
@[simp] theorem beginDecode_bitbuf : (beginDecode s).bitbuf = s.bitbuf := rfl
@[simp] theorem beginDecode_symout : (beginDecode s).symout = s.symout := rfl
@[simp] theorem beginDecode_symv : (beginDecode s).symv = s.symv := rfl
@[simp] theorem beginDecode_nemit : (beginDecode s).nemit = 0 := rfl
@[simp] theorem beginDecode_dstarved : (beginDecode s).dstarved = false := rfl
@[simp] theorem beginDecode_zin : (beginDecode s).zin = s.zin := rfl
@[simp] theorem beginDecode_zcnt : (beginDecode s).zcnt = s.zcnt := rfl
@[simp] theorem beginDecode_zpoison : (beginDecode s).zpoison = s.zpoison := rfl
@[simp] theorem beginDecode_qblk : (beginDecode s).qblk = s.qblk := rfl
@[simp] theorem beginDecode_qvalid : (beginDecode s).qvalid = s.qvalid := rfl
@[simp] theorem beginDecode_zres : (beginDecode s).zres = s.zres := rfl
@[simp] theorem beginDecode_err : (beginDecode s).err = s.err := rfl
@[simp] theorem beginDecode_errinfo : (beginDecode s).errinfo = s.errinfo := rfl
@[simp] theorem beginDecode_out : (beginDecode s).out = s.out := rfl
@[simp] theorem beginDecode_draws : (beginDecode s).draws = s.draws := rfl

end Sys2Proof.Machine
end

