-- ==== Sys2Proof/Laws/Decoder.lean ====
section
/-! SUPPORT. What the decoder's walk (R134) and loop (R135) can do. -/

namespace Sys2Proof.Machine

/-! ### The cursor's bit string (R18, R30) -/

/-- The bits of the partial code the cursor holds. -/
def cursorBits (s : State) : List Bool := pathBits s.cpath.toNat s.cdepth.val

theorem cursorNode_eq (root : Node) (s : State) : cursorNode root s = walk root (cursorBits s) := rfl

@[simp] theorem cursorBits_length (s : State) : (cursorBits s).length = s.cdepth.val := by simp [cursorBits]

/-- Appending a bit to the number of a bit string appends it to the string (R18). -/
theorem pathBits_append (path : Nat) (b : Bool) (d : Nat) :
    pathBits (2 * path + b.toNat) (d + 1) = pathBits path d ++ [b] := by
  induction d with
  | zero =>
    cases b <;> simp [pathBits, Nat.testBit_zero]
  | succ d ih =>
    rw [pathBits, ih, pathBits, List.cons_append, Nat.testBit_succ]
    congr 2
    cases b <;> (simp; try omega)

/-- A register of w bits holds as many bits of a string as are read from it. -/
theorem pathBits_mod (path w d : Nat) (h : d ≤ w) : pathBits (path % 2 ^ w) d = pathBits path d := by
  induction d with
  | zero => rfl
  | succ d ih =>
    rw [pathBits, pathBits, ih (by omega), Nat.testBit_mod_two_pow]
    simp [show d < w by omega]

theorem pathBits_extendPath (path : BitVec 16) (b : Bool) (d : Nat) (h : d < 16) :
    pathBits (extendPath path b).toNat (d + 1) = pathBits path.toNat d ++ [b] := by
  rw [extendPath, BitVec.toNat_ofNat, pathBits_mod _ _ _ (by omega), pathBits_append]

theorem extendPath_lt {path : BitVec 16} {d : Nat} (b : Bool) (h : path.toNat < 2 ^ d) (hd : d < 16) :
    (extendPath path b).toNat = 2 * path.toNat + b.toNat ∧ (extendPath path b).toNat < 2 ^ (d + 1) := by
  have hb : b.toNat ≤ 1 := by cases b <;> decide
  have h1 : 2 * path.toNat + b.toNat < 2 ^ (d + 1) := by rw [Nat.pow_succ]; omega
  have h2 : 2 ^ (d + 1) ≤ 2 ^ 16 := Nat.pow_le_pow_right (by omega) (by omega)
  rw [extendPath, BitVec.toNat_ofNat, Nat.mod_eq_of_lt (by omega)]
  exact ⟨rfl, h1⟩

theorem pathNumber_append (p : List Bool) (b : Bool) : pathNumber (p ++ [b]) = 2 * pathNumber p + b.toNat := by
  simp [pathNumber]

/-- A bit string's number is the number it was written from (R18). -/
theorem pathNumber_pathBits {path d : Nat} (h : path < 2 ^ d) : pathNumber (pathBits path d) = path := by
  have hd : ∀ d path, path < 2 ^ d → ∀ acc, (pathBits path d).foldl (fun p b => 2 * p + b.toNat) acc = acc * 2 ^ d + path := by
    intro d
    induction d with
    | zero => intro path h acc; simp [pathBits] at h ⊢; omega
    | succ d ih =>
      intro path h acc
      rw [pathBits, List.foldl_cons]
      by_cases hlt : path < 2 ^ d
      · rw [ih path hlt, Nat.testBit_lt_two_pow hlt, Nat.pow_succ]
        simp only [Bool.toNat_false]
        ring
      · obtain ⟨r, rfl⟩ : ∃ r, path = 2 ^ d + r := ⟨path - 2 ^ d, by omega⟩
        have hr : r < 2 ^ d := by rw [Nat.pow_succ] at h; omega
        rw [pathBits_add_pow, ih r hr, Nat.testBit_two_pow_add_eq, Nat.testBit_lt_two_pow hr, Nat.pow_succ]
        simp only [Bool.not_false, Bool.toNat_true]
        ring
  have := hd d path h 0
  simpa [pathNumber] using this

/-- CPATH after the bits `q` are the number of the whole bit string (R18, R30). -/
theorem foldl_extendPath (q : List Bool) {path : BitVec 16} {d : Nat} (h : path.toNat < 2 ^ d)
    (hd : d + q.length ≤ 16) :
    q.foldl extendPath path = BitVec.ofNat 16 (pathNumber (pathBits path.toNat d ++ q)) := by
  induction q generalizing path d with
  | nil => simp [pathNumber_pathBits h]
  | cons b q ih =>
    simp only [List.length_cons] at hd
    obtain ⟨h1, h2⟩ := extendPath_lt b h (by omega)
    rw [List.foldl_cons, ih h2 (by omega), h1, pathBits_append]
    simp

/-- Where a walk one bit longer has a value, the shorter one stands on an `Interior`. -/
theorem walk_snoc {root N : Node} {p : List Bool} {b : Bool} (h : walk root (p ++ [b]) = some N) :
    ∃ c0 c1, walk root p = some (.interior c0 c1) ∧ child (.interior c0 c1) b = N := by
  rw [walk_append] at h
  rcases hp : walk root p with _ | M
  · simp [hp] at h
  · rw [hp] at h
    cases M with
    | interior c0 c1 => exact ⟨c0, c1, rfl, by simpa [child] using h⟩
    | leaf v => simp at h
    | empty => simp at h

/-! ### One step (R134) -/

theorem dstep_emitted {root : Node} {b : Bool} {s : State} {v : Byte}
    (h : walk root (cursorBits s ++ [b]) = some (.leaf v)) (rest : List Bool) :
    dstep root b rest s = .emitted (emitSymbol v { s with bitbuf := rest }) := by
  obtain ⟨c0, c1, hN, hC⟩ := walk_snoc h
  rw [dstep, cursorNode_eq, hN]
  simp only [hC]

theorem dstep_incomplete {root : Node} {b : Bool} {s : State}
    (h : walk root (cursorBits s ++ [b]) = some .empty) (rest : List Bool) :
    dstep root b rest s = .stop (stopIncomplete b { s with bitbuf := rest }) := by
  obtain ⟨c0, c1, hN, hC⟩ := walk_snoc h
  rw [dstep, cursorNode_eq, hN]
  simp only [hC]

/-- The state after a step to an `Interior` child. -/
def walkedOn (b : Bool) (rest : List Bool) (s : State) (h : s.cdepth.val + 1 < 16) : State :=
  { s with bitbuf := rest, cpath := extendPath s.cpath b, cdepth := ⟨s.cdepth.val + 1, h⟩ }

theorem dstep_more {root : Node} {b : Bool} {s : State} {x y : Node}
    (h : walk root (cursorBits s ++ [b]) = some (.interior x y)) (hd : s.cdepth.val + 1 < 16)
    (rest : List Bool) : dstep root b rest s = .more (walkedOn b rest s hd) := by
  obtain ⟨c0, c1, hN, hC⟩ := walk_snoc h
  rw [dstep, cursorNode_eq, hN]
  simp only [hC, hd, dif_pos, walkedOn]

@[simp] theorem walkedOn_bits (b : Bool) (rest : List Bool) (s : State) (h : s.cdepth.val + 1 < 16) :
    cursorBits (walkedOn b rest s h) = cursorBits s ++ [b] := by
  simp only [cursorBits, walkedOn]
  exact pathBits_extendPath _ _ _ (by omega)

/-- Everything one step can answer (R134). -/
theorem dstep_cases (root : Node) (b : Bool) (rest : List Bool) (s : State) :
    (∃ v, dstep root b rest s = .emitted (emitSymbol v { s with bitbuf := rest }) ∧
      walk root (cursorBits s ++ [b]) = some (.leaf v)) ∨
    (∃ h, dstep root b rest s = .more (walkedOn b rest s h) ∧
      ∃ x y, walk root (cursorBits s ++ [b]) = some (.interior x y)) ∨
    (dstep root b rest s = .stop (stopIncomplete b { s with bitbuf := rest }) ∧
      walk root (cursorBits s ++ [b]) = some .empty) ∨
    (dstep root b rest s = .stop (stopOnLeaf s) ∧ ∃ v, walk root (cursorBits s) = some (.leaf v)) ∨
    (dstep root b rest s = .undefinedWalk .cursorOverflow ∧ 16 ≤ s.cdepth.val + 1 ∧
      ∃ x y, walk root (cursorBits s ++ [b]) = some (.interior x y)) ∨
    (dstep root b rest s = .undefinedWalk .walkUndefined ∧
      ¬ ∃ c0 c1, walk root (cursorBits s) = some (.interior c0 c1)) := by
  rcases hN : walk root (cursorBits s) with _ | N
  · simp [dstep, cursorNode_eq, hN]
  · cases N with
    | empty => simp [dstep, cursorNode_eq, hN]
    | leaf v => simp [dstep, cursorNode_eq, hN]
    | interior c0 c1 =>
      have hw : walk root (cursorBits s ++ [b]) = some (child (.interior c0 c1) b) := by
        rw [walk_append, hN]; simp [child]
      rcases hC : child (.interior c0 c1) b with ⟨x, y⟩ | v | _
      · rw [hC] at hw
        by_cases hd : s.cdepth.val + 1 < 16
        · exact .inr (.inl ⟨hd, dstep_more hw hd rest, x, y, hw⟩)
        · refine .inr (.inr (.inr (.inr (.inl ⟨?_, by omega, x, y, hw⟩))))
          rw [dstep, cursorNode_eq, hN]
          simp only [hC, hd, dif_neg, not_false_eq_true]
      · rw [hC] at hw
        exact .inl ⟨v, dstep_emitted hw rest, hw⟩
      · rw [hC] at hw
        exact .inr (.inr (.inl ⟨dstep_incomplete hw rest, hw⟩))

/-! ### The loop (R135) -/

theorem ddecLoop_zero (root : Node) (n : Nat) (s : State) :
    ddecLoop root n 0 s = if budgetReached n s.nemit then .next s else .next (starve s) := rfl

theorem ddecLoop_budget {root : Node} {n fuel : Nat} {s : State} (h : budgetReached n s.nemit = true) :
    ddecLoop root n fuel s = .next s := by
  cases fuel <;> simp [ddecLoop, h]

theorem ddecLoop_starved {root : Node} {n fuel : Nat} {s : State} (h : budgetReached n s.nemit = false)
    (hb : s.bitbuf = []) : ddecLoop root n fuel s = .next (starve s) := by
  cases fuel <;> simp [ddecLoop, h, hb]

theorem ddecLoop_succ {root : Node} {n fuel : Nat} {s : State} {b : Bool} {rest : List Bool}
    (h : budgetReached n s.nemit = false) (hb : s.bitbuf = b :: rest) :
    ddecLoop root n (fuel + 1) s =
      match dstep root b rest s with
      | .emitted s' => ddecLoop root n fuel s'
      | .more s' => ddecLoop root n fuel s'
      | .stop s' => .next s'
      | .undefinedWalk r => .fault r := by
  rw [ddecLoop]
  simp only [h, hb]
  rfl

/-- The state after the bits `q` have led from an `Interior` to an `Interior`. -/
def walkedTo (q rest : List Bool) (s : State) (h : s.cdepth.val + q.length < 16) : State :=
  { s with bitbuf := rest, cpath := q.foldl extendPath s.cpath, cdepth := ⟨s.cdepth.val + q.length, h⟩ }

@[simp] theorem walkedTo_bits (q rest : List Bool) (s : State) (h : s.cdepth.val + q.length < 16) :
    cursorBits (walkedTo q rest s h) = cursorBits s ++ q := by
  induction q generalizing s with
  | nil => simp [cursorBits, walkedTo]
  | cons b q ih =>
    simp only [List.length_cons] at h
    have := ih (walkedOn b rest s (by omega)) (by simp only [walkedOn]; omega)
    rw [walkedOn_bits, List.append_assoc, List.singleton_append] at this
    rw [← this]
    simp only [walkedTo, walkedOn, cursorBits, List.foldl_cons, List.length_cons]
    congr 1
    omega

/-- The bits `q` lead from the cursor to an `Interior`: the loop walks there. -/
theorem ddecLoop_walk {root : Node} {n f : Nat} (q : List Bool) {s : State} {rest : List Bool} {x y : Node}
    (hn : budgetReached n s.nemit = false) (hb : s.bitbuf = q ++ rest) (hd : s.cdepth.val + q.length < 16)
    (hw : walk root (cursorBits s ++ q) = some (.interior x y)) :
    ddecLoop root n (q.length + f) s = ddecLoop root n f (walkedTo q rest s hd) := by
  induction q generalizing s with
  | nil => rw [List.nil_append] at hb; simp [walkedTo, ← hb]
  | cons b q ih =>
    simp only [List.length_cons] at hd
    have hb' : s.bitbuf = b :: (q ++ rest) := hb
    have hs : ∃ c0 c1, walk root (cursorBits s ++ [b]) = some (.interior c0 c1) := by
      rw [show cursorBits s ++ b :: q = (cursorBits s ++ [b]) ++ q by simp, walk_append] at hw
      rcases hN : walk root (cursorBits s ++ [b]) with _ | N
      · simp [hN] at hw
      · rw [hN] at hw
        cases N with
        | interior c0 c1 => exact ⟨c0, c1, rfl⟩
        | leaf v => cases q <;> simp at hw
        | empty => cases q <;> simp at hw
    obtain ⟨c0, c1, hs⟩ := hs
    rw [show (b :: q).length + f = q.length + f + 1 by simp; omega, ddecLoop_succ hn hb',
      dstep_more hs (by omega)]
    simp only
    rw [ih (s := walkedOn b (q ++ rest) s (by omega)) hn rfl (by simp only [walkedOn]; omega)
      (by rw [walkedOn_bits]; simpa using hw)]
    simp only [walkedTo, walkedOn, List.foldl_cons, List.length_cons]
    congr 2
    exact Fin.ext (by simp only; omega)

/-- The bits `q` lead from the cursor to a leaf: the loop emits its symbol. -/
theorem ddecLoop_code {root : Node} {n f : Nat} (q : List Bool) {s : State} {rest : List Bool} {v : Byte}
    (hn : budgetReached n s.nemit = false) (hb : s.bitbuf = q ++ rest) (hq : q ≠ [])
    (hd : s.cdepth.val + q.length ≤ 16) (hw : walk root (cursorBits s ++ q) = some (.leaf v)) :
    ddecLoop root n (q.length + f) s = ddecLoop root n f (emitSymbol v { s with bitbuf := rest }) := by
  obtain ⟨q, b, rfl⟩ := List.eq_nil_or_concat q |>.resolve_left hq
  simp only [List.concat_eq_append, ← List.append_assoc, List.length_append, List.length_singleton] at hb hd hw ⊢
  obtain ⟨c0, c1, hN, -⟩ := walk_snoc hw
  have hd' : s.cdepth.val + q.length < 16 := by omega
  rw [show q.length + 1 + f = q.length + (f + 1) by omega,
    ddecLoop_walk q hn (rest := b :: rest) (by simpa using hb) hd' hN,
    ddecLoop_succ (s := walkedTo q (b :: rest) s hd') hn rfl,
    dstep_emitted (s := walkedTo q (b :: rest) s hd') (by rw [walkedTo_bits]; exact hw)]
  rfl

/-- The bits `q` and then `b` lead from the cursor to a child that does not exist: the pass ends there. -/
theorem ddecLoop_incomplete {root : Node} {n f : Nat} (q : List Bool) {s : State} {rest : List Bool} {b : Bool}
    (hn : budgetReached n s.nemit = false) (hb : s.bitbuf = q ++ b :: rest)
    (hd : s.cdepth.val + q.length < 16) (hw : walk root (cursorBits s ++ q ++ [b]) = some .empty) :
    ddecLoop root n (q.length + (f + 1)) s =
      .next (stopIncomplete b { walkedTo q (b :: rest) s hd with bitbuf := rest }) := by
  obtain ⟨c0, c1, hN, -⟩ := walk_snoc hw
  rw [ddecLoop_walk q hn (rest := b :: rest) hb hd hN,
    ddecLoop_succ (s := walkedTo q (b :: rest) s hd) hn rfl,
    dstep_incomplete (s := walkedTo q (b :: rest) s hd) (by rw [walkedTo_bits]; exact hw)]

theorem budgetReached_false {n m : Nat} (h : m < n ∨ n = 0) : budgetReached n m = false := by
  simp [budgetReached]; omega

/-- Whole codes from the root, within the budget: the loop emits their symbols, one after the other (R138). -/
theorem ddecLoop_codes {root : Node} (hr : storedTree root = true) (n : Nat) (codes : List (List Bool × Byte))
    (rest : List Bool) (s : State) (f : Nat) (hd : s.cdepth.val = 0) (hp : s.cpath = 0#16 ∨ codes ≠ [])
    (hc : ∀ c ∈ codes, walk root c.1 = some (.leaf c.2)) (hn : n = 0 ∨ s.nemit + codes.length ≤ n)
    (hb : s.bitbuf = codes.flatMap (·.1) ++ rest) :
    ddecLoop root n ((codes.flatMap (·.1)).length + f) s =
      ddecLoop root n f
        { s with
          bitbuf := rest
          cdepth := 0
          cpath := 0#16
          symout := ((codes.getLast?).map (·.2)).getD s.symout
          symv := s.symv || !codes.isEmpty
          nemit := s.nemit + codes.length
          out := s.out ++ codes.map (fun c => .sym s.dslot c.2) } := by
  induction codes generalizing s f with
  | nil =>
    have hd' : s.cdepth = 0 := Fin.ext hd
    simp at hp hb
    simp [← hb, ← hd', ← hp]
  | cons c codes ih =>
    have hw := hc c (by simp)
    obtain ⟨l1, l2⟩ := storedTree_leaf_depth hr hw
    simp only [List.length_cons] at hn
    have hcb : cursorBits s = [] := by
      apply List.eq_nil_of_length_eq_zero; simp [hd]
    rw [List.flatMap_cons, List.length_append, Nat.add_assoc,
      ddecLoop_code (s := s) c.1 (rest := codes.flatMap (·.1) ++ rest) (v := c.2) (budgetReached_false (by omega)) (by rw [hb]; simp)
        (by intro h; simp [h] at l1) (by omega) (by rw [hcb]; exact hw)]
    rw [ih (emitSymbol c.2 { s with bitbuf := codes.flatMap (·.1) ++ rest }) f rfl (.inl rfl)
      (fun c' h => hc c' (by simp [h])) (by simp; omega) rfl]
    congr 1
    simp only [emitSymbol, cursorToRoot]
    congr 1
    · cases codes <;> simp [List.getLast?_cons]
    · simp
    · simp; omega
    · simp

/-- A code beyond the cursor's `Interior` begins with the cursor's bits. -/
theorem code_of_cursor {root c0 c1 : Node} {p code bits rest : List Bool} {v : Byte}
    (hp : walk root p = some (.interior c0 c1)) (hv : walk root code = some (.leaf v))
    (h : p ++ bits = code ++ rest) : ∃ q, q ≠ [] ∧ code = p ++ q ∧ bits = q ++ rest := by
  rcases List.append_eq_append_iff.1 h with ⟨q, h1, h2⟩ | ⟨q, h1, -⟩
  · refine ⟨q, ?_, h1, h2⟩
    rintro rfl
    rw [h1, List.append_nil, hp] at hv
    cases hv
  · rw [h1, walk_append, hv] at hp
    cases q <;> simp at hp

/-- The state after whole codes from the cursor on. -/
def readCodes (codes : List (List Bool × Byte)) (rest : List Bool) (s : State) : State :=
  { s with
    bitbuf := rest
    cdepth := 0
    cpath := 0#16
    symout := (codes.getLast?.map (·.2)).getD s.symout
    symv := s.symv || !codes.isEmpty
    nemit := s.nemit + codes.length
    out := s.out ++ codes.map (fun c => .sym s.dslot c.2) }

/-- Whole codes, the first of them begun before, within the budget: the loop emits their symbols (R138, R139). -/
theorem ddecLoop_readCodes {root c0 c1 : Node} (hr : storedTree root = true) (n : Nat)
    (codes : List (List Bool × Byte)) (rest : List Bool) (s : State) (hne : codes ≠ [])
    (hi : walk root (cursorBits s) = some (.interior c0 c1))
    (hc : ∀ c ∈ codes, walk root c.1 = some (.leaf c.2)) (hn : n = 0 ∨ s.nemit + codes.length ≤ n)
    (hb : cursorBits s ++ s.bitbuf = codes.flatMap (·.1) ++ rest) :
    ddecLoop root n s.bitbuf.length s = ddecLoop root n rest.length (readCodes codes rest s) := by
  obtain ⟨c, codes, rfl⟩ := List.exists_cons_of_ne_nil hne
  have hw := hc c (by simp)
  rw [List.flatMap_cons, List.append_assoc] at hb
  obtain ⟨q, hq, hcode, hbits⟩ := code_of_cursor hi hw hb
  rw [hcode] at hw
  have hlen := (storedTree_leaf_depth hr hw).2
  rw [List.length_append, cursorBits_length] at hlen
  simp only [List.length_cons] at hn
  rw [show s.bitbuf.length = q.length + ((codes.flatMap (·.1)).length + rest.length) by
      rw [hbits, List.length_append, List.length_append],
    ddecLoop_code q (budgetReached_false (by omega)) hbits hq hlen hw,
    ddecLoop_codes hr n codes rest (emitSymbol c.2 { s with bitbuf := codes.flatMap (·.1) ++ rest }) rest.length
      rfl (.inl rfl) (fun c' h => hc c' (by simp [h])) (by simp only [emitSymbol_nemit]; omega) rfl]
  congr 1
  simp only [readCodes, emitSymbol, cursorToRoot]
  congr 1
  · cases codes <;> simp [List.getLast?_cons]
  · simp
  · simp; omega
  · simp

/-- Every bit string is whole codes of a stored tree and a rest that stops at an `Interior` or runs into
`Empty` (R116). -/
theorem exists_codes {root : Node} (hr : storedTree root = true) (bits : List Bool) :
    ∃ (codes : List (List Bool × Byte)) (rest : List Bool), bits = codes.flatMap (·.1) ++ rest ∧
      (∀ c ∈ codes, walk root c.1 = some (.leaf c.2)) ∧
      ((∃ c0 c1, walk root rest = some (.interior c0 c1)) ∨
        ∃ q b tail, rest = q ++ b :: tail ∧ walk root (q ++ [b]) = some .empty) := by
  obtain ⟨a, b, rfl, -⟩ := storedTree_interior hr
  have key : ∀ (bits p : List Bool) (c0 c1 : Node), walk (.interior a b) p = some (.interior c0 c1) →
      ∃ (codes : List (List Bool × Byte)) (rest : List Bool), p ++ bits = codes.flatMap (·.1) ++ rest ∧
        (∀ c ∈ codes, walk (.interior a b) c.1 = some (.leaf c.2)) ∧
        ((∃ c0 c1, walk (.interior a b) rest = some (.interior c0 c1)) ∨
          ∃ q b' tail, rest = q ++ b' :: tail ∧ walk (.interior a b) (q ++ [b']) = some .empty) := by
    intro bits
    induction bits with
    | nil => intro p c0 c1 hp; exact ⟨[], p, by simp, by simp, .inl ⟨c0, c1, hp⟩⟩
    | cons x bits ih =>
      intro p c0 c1 hp
      have hx : walk (.interior a b) (p ++ [x]) = some (child (.interior c0 c1) x) := by
        rw [walk_append, hp]; simp [child]
      rcases hC : child (.interior c0 c1) x with ⟨y, z⟩ | v | _
      · obtain ⟨codes, rest, h⟩ := ih (p ++ [x]) y z (hC ▸ hx)
        exact ⟨codes, rest, by simpa using h⟩
      · obtain ⟨codes, rest, h, hc, hrest⟩ := ih [] a b (by simp)
        refine ⟨(p ++ [x], v) :: codes, rest, ?_, ?_, hrest⟩
        · simp only [List.nil_append] at h
          rw [h]; simp
        · intro c hm
          rcases List.mem_cons.1 hm with rfl | hm
          · exact hC ▸ hx
          · exact hc c hm
      · exact ⟨[], p ++ x :: bits, by simp, by simp, .inr ⟨p, x, bits, rfl, hC ▸ hx⟩⟩
  simpa using key bits [] a b (by simp)

/-- Bits that stop at an `Interior`, with budget left: the loop keeps them as the partial code (R139). -/
theorem ddecLoop_partial {root c0 c1 : Node} (hr : storedTree root = true) {n : Nat} {s : State}
    (hn : budgetReached n s.nemit = false) (hp : s.cpath.toNat < 2 ^ s.cdepth.val)
    (hw : walk root (cursorBits s ++ s.bitbuf) = some (.interior c0 c1)) :
    ∃ h : s.cdepth.val + s.bitbuf.length < 16, ddecLoop root n s.bitbuf.length s =
      .next { s with
        bitbuf := []
        cdepth := ⟨s.cdepth.val + s.bitbuf.length, h⟩
        cpath := BitVec.ofNat 16 (pathNumber (cursorBits s ++ s.bitbuf))
        dstarved := true } := by
  have hd := storedTree_depth hr hw
  rw [List.length_append, cursorBits_length] at hd
  refine ⟨by omega, ?_⟩
  have h := ddecLoop_walk (f := 0) s.bitbuf (rest := []) hn (List.append_nil _).symm (by omega) hw
  rw [Nat.add_zero] at h
  rw [h, ddecLoop_zero, walkedTo, foldl_extendPath _ hp (by omega)]
  simp [starve, hn, cursorBits]

/-- Bits that run into `Empty`, with budget left: the loop ends the pass there (R137). -/
theorem ddecLoop_missing {root c0 c1 : Node} (hr : storedTree root = true) {n : Nat} {s : State}
    {q tail : List Bool} {b : Bool} (hn : budgetReached n s.nemit = false)
    (hp : s.cpath.toNat < 2 ^ s.cdepth.val) (hi : walk root (cursorBits s) = some (.interior c0 c1))
    (hb : cursorBits s ++ s.bitbuf = q ++ b :: tail) (hw : walk root (q ++ [b]) = some .empty) :
    ddecLoop root n s.bitbuf.length s =
      .next { raise .incompleteTree
          (infoIncomplete s.dslot (q.length + 1) (BitVec.ofNat 16 (pathNumber (q ++ [b])))) s with
        bitbuf := tail
        ddead := true
        cdepth := 0
        cpath := 0#16 } := by
  obtain ⟨x0, x1, hN, -⟩ := walk_snoc hw
  have hd := storedTree_depth hr hN
  obtain ⟨q', rfl, hbits⟩ : ∃ q', q = cursorBits s ++ q' ∧ s.bitbuf = q' ++ b :: tail := by
    rcases List.append_eq_append_iff.1 hb with ⟨q', h⟩ | ⟨q', h1, h2⟩
    · exact ⟨q', h⟩
    · cases q' with
      | nil => exact ⟨[], by simpa using h1.symm, by simpa using h2.symm⟩
      | cons y q' =>
        obtain ⟨rfl, -⟩ := List.cons.inj h2
        rw [h1, show q ++ b :: q' = (q ++ [b]) ++ q' by simp, walk_append, hw] at hi
        cases q' <;> simp at hi
  rw [List.length_append, cursorBits_length] at hd
  have hx : extendPath (q'.foldl extendPath s.cpath) b =
      BitVec.ofNat 16 (pathNumber (cursorBits s ++ q' ++ [b])) := by
    have h := foldl_extendPath (q' ++ [b]) hp (by simp; omega)
    rwa [List.foldl_append, ← List.append_assoc] at h
  rw [show s.bitbuf.length = q'.length + (tail.length + 1) by rw [hbits]; simp,
    ddecLoop_incomplete q' hn hbits (by omega) hw]
  simp only [stopIncomplete, walkedTo, cursorToRoot, killPass, raise, hx, List.length_append, cursorBits_length]
  rfl

/-- A drain that ended without an error, with more bits behind: the loop goes on from where it stood. -/
theorem ddecLoop_append {root : Node} (xs ys : List Bool) {f : Nat} {s t : State} (hb : s.bitbuf = xs)
    (h : ddecLoop root 0 xs.length s = .next t) (hd : t.ddead = false) :
    ddecLoop root 0 (xs.length + f) { s with bitbuf := xs ++ ys } =
      ddecLoop root 0 f { t with bitbuf := ys, dstarved := s.dstarved } := by
  have hn : ∀ m, budgetReached 0 m = false := fun m => rfl
  induction xs generalizing s with
  | nil =>
    rw [ddecLoop_starved (hn _) hb] at h
    cases h
    simp [starve]
  | cons b xs ih =>
    rw [List.length_cons, ddecLoop_succ (hn _) hb] at h
    rw [List.length_cons, Nat.add_right_comm, ddecLoop_succ (b := b) (rest := xs ++ ys) (hn _) rfl]
    rcases dstep_cases root b xs s with ⟨v, e, hw⟩ | ⟨hc, e, x, y, hw⟩ | ⟨e, -⟩ | ⟨e, -⟩ | ⟨e, -⟩ | ⟨e, -⟩ <;>
      simp only [e] at h
    · rw [dstep_emitted (s := { s with bitbuf := b :: xs ++ ys }) hw (xs ++ ys)]
      exact ih (s := emitSymbol v { s with bitbuf := xs }) rfl h
    · rw [dstep_more (s := { s with bitbuf := b :: xs ++ ys }) hw hc (xs ++ ys)]
      exact ih (s := walkedOn b xs s hc) rfl h
    · cases h; simp [stopIncomplete] at hd
    · cases h; simp [stopOnLeaf] at hd
    · cases h
    · cases h

/-- Without a budget NEMIT only counts, and CI is not read: what NEMIT starts from is added to what it ends
at. -/
theorem ddecLoop_nemit {root : Node} (m c f : Nat) {s t : State} (h : ddecLoop root 0 f s = .next t) :
    ddecLoop root 0 f { s with nemit := m + s.nemit, ci := c } = .next { t with nemit := m + t.nemit, ci := c } := by
  have hn : ∀ m, budgetReached 0 m = false := fun m => rfl
  induction f generalizing s with
  | zero =>
    rw [ddecLoop_zero, hn] at h ⊢
    cases h; rfl
  | succ f ih =>
    have hcase : s.bitbuf = [] ∨ ∃ b rest, s.bitbuf = b :: rest := by cases s.bitbuf <;> simp
    rcases hcase with hb | ⟨b, rest, hb⟩
    · rw [ddecLoop_starved (hn _) hb] at h
      rw [ddecLoop_starved (s := { s with nemit := m + s.nemit, ci := c }) (hn _) hb]
      cases h; rfl
    · rw [ddecLoop_succ (hn _) hb] at h
      rw [ddecLoop_succ (s := { s with nemit := m + s.nemit, ci := c }) (b := b) (rest := rest) (hn _) hb]
      rcases dstep_cases root b rest s with ⟨v, e, hw⟩ | ⟨hc, e, x, y, hw⟩ | ⟨e, hw⟩ | ⟨e, v, hw⟩ | ⟨e, -⟩ | ⟨e, -⟩ <;>
        simp only [e] at h
      · rw [dstep_emitted (s := { s with nemit := m + s.nemit, ci := c }) hw rest]
        exact ih (s := emitSymbol v { s with bitbuf := rest }) h
      · rw [dstep_more (s := { s with nemit := m + s.nemit, ci := c }) hw hc rest]
        exact ih (s := walkedOn b rest s hc) h
      · rw [dstep_incomplete (s := { s with nemit := m + s.nemit, ci := c }) hw rest]
        cases h; rfl
      · have : dstep root b rest { s with nemit := m + s.nemit, ci := c } = .stop (stopOnLeaf { s with nemit := m + s.nemit, ci := c }) := by
          unfold dstep
          rw [cursorNode_eq, show cursorBits { s with nemit := m + s.nemit, ci := c } = cursorBits s from rfl, hw]
        rw [this]
        cases h; rfl
      · cases h
      · cases h

/-! ### Everything the loop can do -/

/-- What the loop leaves when it answers a next state: nothing but the decoder's own elements, OUT and
the error record changes; it emits the symbols of the codes that the bits it reads make up, and ends at its
budget, at the end of the bits, or with one error. What the codes leave of the bits is the new partial
code, or the path to the missing child. -/
structure LoopEffect (root : Node) (n : Nat) (s t : State) : Prop where
  frame : t =
    { s with
      bitbuf := t.bitbuf
      symout := t.symout
      symv := t.symv
      nemit := t.nemit
      dstarved := t.dstarved
      ddead := t.ddead
      cdepth := t.cdepth
      cpath := t.cpath
      out := t.out
      err := t.err
      errinfo := t.errinfo }
  budget : n ≠ 0 → s.nemit ≤ n → t.nemit ≤ n
  consumed : ∃ (used : List Bool) (codes : List (List Bool × Byte)) (left : List Bool) (errs : List Event),
    s.bitbuf = used ++ t.bitbuf ∧ codes.length ≤ used.length ∧
    (∀ c ∈ codes, walk root c.1 = some (.leaf c.2)) ∧ cursorBits s ++ used = codes.flatMap (·.1) ++ left ∧
    t.out = s.out ++ codes.map (fun c => .sym s.dslot c.2) ++ errs ∧ t.nemit = s.nemit + codes.length ∧
    t.symout = (codes.getLast?.map (·.2)).getD s.symout ∧ t.symv = (s.symv || !codes.isEmpty) ∧
    ((errs = [] ∧ t.err = s.err ∧ t.errinfo = s.errinfo ∧ t.ddead = s.ddead ∧ cursorBits t = left ∧
        (t.dstarved = true ∧ t.bitbuf = [] ∨ t.dstarved = s.dstarved ∧ budgetReached n t.nemit = true)) ∨
      ∃ code info, errs = [.err code info] ∧
        (code = .incompleteTree ∧ t.cdepth.val = 0 ∧ walk root left = some .empty ∨ code = .decodeOnLeaf) ∧
        t.ddead = true ∧ t.dstarved = s.dstarved ∧ t.err = (if s.err = none then some code else s.err) ∧
        t.errinfo = if s.err = none then info else s.errinfo)

theorem loopEffect_budget (root : Node) {n : Nat} {s : State} (h : budgetReached n s.nemit = true) :
    LoopEffect root n s s :=
  ⟨rfl, fun _ h => h, [], [], cursorBits s, [], by simp [h]⟩

theorem loopEffect_starve (root : Node) (n : Nat) {s : State} (h : s.bitbuf = []) :
    LoopEffect root n s (starve s) :=
  ⟨rfl, fun _ h => h, [], [], cursorBits s, [], by simp [h, cursorBits]⟩

theorem loopEffect_emitted {root : Node} {n : Nat} {s t : State} {b : Bool} {rest : List Bool} {v : Byte}
    (hn : budgetReached n s.nemit = false) (hb : s.bitbuf = b :: rest)
    (hw : walk root (cursorBits s ++ [b]) = some (.leaf v))
    (h : LoopEffect root n (emitSymbol v { s with bitbuf := rest }) t) : LoopEffect root n s t := by
  obtain ⟨hf, hc, used, codes, left, errs, hu, hl, hcs, hx, ho, hm, hs, hv, hr⟩ := h
  have hx' : used = codes.flatMap (·.1) ++ left := hx
  refine ⟨by rw [hf]; rfl, ?_, b :: used, (cursorBits s ++ [b], v) :: codes, left, errs,
    by rw [hb, List.cons_append, ← hu]; rfl, by simpa using hl, ?_, by simp [hx'], by simpa using ho,
    by simp [hm]; omega, ?_, by simp [hv], hr⟩
  · intro h0 h1
    refine hc h0 ?_
    simp only [budgetReached, Bool.and_eq_false_iff, bne_eq_false_iff_eq, h0, false_or, beq_eq_false_iff_ne,
      ne_eq] at hn
    rw [emitSymbol_nemit]
    show s.nemit + 1 ≤ n
    omega
  · intro c hm
    rcases List.mem_cons.1 hm with rfl | hm
    · exact hw
    · exact hcs c hm
  · rw [hs]; cases codes <;> simp [List.getLast?_cons]

theorem loopEffect_more {root : Node} {n : Nat} {s t : State} {b : Bool} {rest : List Bool}
    (hb : s.bitbuf = b :: rest) (hd : s.cdepth.val + 1 < 16) (h : LoopEffect root n (walkedOn b rest s hd) t) :
    LoopEffect root n s t := by
  obtain ⟨hf, hc, used, codes, left, errs, hu, hl, hcs, hx, hr⟩ := h
  exact ⟨by rw [hf]; rfl, hc, b :: used, codes, left, errs, by rw [hb, List.cons_append, ← hu]; rfl,
    by simp only [List.length_cons]; omega, hcs, by rw [← hx, walkedOn_bits]; simp, hr⟩

theorem loopEffect_incomplete {root : Node} (n : Nat) {s : State} {b : Bool} {rest : List Bool}
    (hb : s.bitbuf = b :: rest) (hw : walk root (cursorBits s ++ [b]) = some .empty) :
    LoopEffect root n s (stopIncomplete b { s with bitbuf := rest }) :=
  ⟨rfl, fun _ h => h, [b], [], cursorBits s ++ [b], _, by simp [stopIncomplete, hb], by simp, by simp,
    by simp, by simp [stopIncomplete]; rfl, by simp [stopIncomplete], by simp [stopIncomplete],
    by simp [stopIncomplete],
    .inr ⟨.incompleteTree, _, rfl, .inl ⟨rfl, rfl, hw⟩, by simp [stopIncomplete], by simp [stopIncomplete],
      by simp [stopIncomplete], by simp [stopIncomplete]⟩⟩

theorem loopEffect_onLeaf (root : Node) (n : Nat) (s : State) : LoopEffect root n s (stopOnLeaf s) :=
  ⟨rfl, fun _ h => h, [], [], cursorBits s, _, by simp [stopOnLeaf], by simp, by simp, by simp,
    by simp [stopOnLeaf]; rfl, by simp [stopOnLeaf], by simp [stopOnLeaf], by simp [stopOnLeaf],
    .inr ⟨.decodeOnLeaf, _, rfl, .inr rfl, by simp [stopOnLeaf], by simp [stopOnLeaf],
      by simp [stopOnLeaf], by simp [stopOnLeaf]⟩⟩

/-- The loop, run with as many turns as there are bits. -/
theorem ddecLoop_effect {root : Node} {n fuel : Nat} {s t : State} (hf : s.bitbuf.length ≤ fuel)
    (h : ddecLoop root n fuel s = .next t) : LoopEffect root n s t := by
  induction fuel generalizing s with
  | zero =>
    have hb : s.bitbuf = [] := by simpa using hf
    rw [ddecLoop_zero] at h
    split at h <;> cases h
    · exact loopEffect_budget root ‹_›
    · exact loopEffect_starve root n hb
  | succ fuel ih =>
    rcases hn : budgetReached n s.nemit with _ | _
    · rcases hb : s.bitbuf with _ | ⟨b, rest⟩
      · rw [ddecLoop_starved hn hb] at h
        cases h
        exact loopEffect_starve root n hb
      · rw [ddecLoop_succ hn hb] at h
        rw [hb, List.length_cons, Nat.add_le_add_iff_right] at hf
        rcases dstep_cases root b rest s with ⟨v, e, hw⟩ | ⟨hd, e, -⟩ | ⟨e, hw⟩ | ⟨e, -⟩ | ⟨e, -⟩ | ⟨e, -⟩ <;>
          simp only [e] at h
        · exact loopEffect_emitted hn hb hw (ih hf h)
        · exact loopEffect_more hb hd (ih hf h)
        · cases h; exact loopEffect_incomplete n hb hw
        · cases h; exact loopEffect_onLeaf root n _
        · cases h
        · cases h
    · rw [ddecLoop_budget hn] at h
      cases h
      exact loopEffect_budget root hn

/-! ### The loop in a state of the cursor invariant (R31) -/

/-- The cursor stands on an `Interior` of the tree, and CPATH has no bits above CDEPTH (R30, R31). -/
structure CursorOn (root : Node) (s : State) : Prop where
  interior : ∃ c0 c1, walk root (cursorBits s) = some (.interior c0 c1)
  path : s.cpath.toNat < 2 ^ s.cdepth.val

theorem cursorOn_root {root : Node} (hr : storedTree root = true) (s : State) :
    CursorOn root (cursorToRoot s) := by
  obtain ⟨a, b, rfl, -⟩ := storedTree_interior hr
  exact ⟨⟨a, b, by simp [cursorBits, pathBits]⟩, by simp⟩

theorem cursorOn_more {root : Node} {b : Bool} {rest : List Bool} {s : State} {x y : Node}
    (h : CursorOn root s) (hd : s.cdepth.val + 1 < 16)
    (hw : walk root (cursorBits s ++ [b]) = some (.interior x y)) : CursorOn root (walkedOn b rest s hd) :=
  ⟨⟨x, y, by rw [walkedOn_bits]; exact hw⟩, (extendPath_lt b h.path (by omega)).2⟩

/-- From such a cursor the loop answers a next state, leaves the cursor on an `Interior`, kills the pass only
with the cursor at the root, and never raises DECODE_ON_LEAF. -/
theorem ddecLoop_keeps {root : Node} (hr : storedTree root = true) (n fuel : Nat) {s : State}
    (hc : CursorOn root s) : ∃ t, ddecLoop root n fuel s = .next t ∧ CursorOn root t ∧
      (t.ddead = true → s.ddead = true ∨ t.cdepth.val = 0) ∧
      ∃ evs, t.out = s.out ++ evs ∧ ∀ info, .err .decodeOnLeaf info ∉ evs := by
  have stay : ∀ u : State, CursorOn root u → u.ddead = s.ddead → u.out = s.out → CursorOn root u ∧
      (u.ddead = true → s.ddead = true ∨ u.cdepth.val = 0) ∧
      ∃ evs, u.out = s.out ++ evs ∧ ∀ info, .err .decodeOnLeaf info ∉ evs :=
    fun u h h1 h2 => ⟨h, fun h => .inl (h1 ▸ h), [], by simp [h2], by simp⟩
  have starved : CursorOn root (starve s) := ⟨hc.interior, hc.path⟩
  induction fuel generalizing s with
  | zero =>
    rw [ddecLoop_zero]
    split
    · exact ⟨_, rfl, stay s hc rfl rfl⟩
    · exact ⟨_, rfl, stay _ starved rfl rfl⟩
  | succ fuel ih =>
    rcases hn : budgetReached n s.nemit with _ | _
    · rcases hb : s.bitbuf with _ | ⟨b, rest⟩
      · exact ⟨_, ddecLoop_starved hn hb, stay _ starved rfl rfl⟩
      · rw [ddecLoop_succ hn hb]
        obtain ⟨c0, c1, hi⟩ := hc.interior
        rcases dstep_cases root b rest s with ⟨v, e, -⟩ | ⟨hd, e, x, y, hw⟩ | ⟨e, -⟩ | ⟨-, v, hw⟩ | ⟨-, hd, x, y, hw⟩ | ⟨-, hw⟩
        · simp only [e]
          have hu := cursorOn_root hr { s with bitbuf := rest, symout := v, symv := true, nemit := s.nemit + 1, out := s.out ++ [.sym s.dslot v] }
          obtain ⟨t, ht, h1, h2, evs, h3, h4⟩ := ih (s := emitSymbol v { s with bitbuf := rest }) hu
            (fun u h h1 h2 => ⟨h, fun h => .inl (h1 ▸ h), [], by simp [h2], by simp⟩) ⟨hu.interior, hu.path⟩
          refine ⟨t, ht, h1, h2, .sym s.dslot v :: evs, by simpa using h3, fun info hm => ?_⟩
          rw [List.mem_cons] at hm
          rcases hm with hm | hm
          · cases hm
          · exact h4 info hm
        · simp only [e]
          have hu := cursorOn_more (rest := rest) hc hd hw
          exact ih hu (fun u h h1 h2 => ⟨h, fun h => .inl (h1 ▸ h), [], by simp [h2], by simp⟩) ⟨hu.interior, hu.path⟩
        · simp only [e]
          exact ⟨_, rfl, cursorOn_root hr _, fun _ => .inr rfl, [_], rfl, by simp⟩
        · rw [hi] at hw; cases hw
        · have := storedTree_depth hr hw
          simp only [List.length_append, cursorBits_length, List.length_singleton] at this
          omega
        · exact absurd ⟨c0, c1, hi⟩ hw
    · exact ⟨_, ddecLoop_budget hn, stay s hc rfl rfl⟩

end Sys2Proof.Machine
end

