-- ==== Sys2Proof/Laws/Exec.lean ====
section
/-! SUPPORT. What each shared operation and each meaning can answer, once: a proof about a command takes
the case apart with these lemmas and never unfolds the meaning. -/

namespace Sys2Proof.Machine

/-! ### Completing a command -/

@[simp] theorem complete_eq (s : State) : complete s = .next (advance s) := rfl

@[simp] theorem complete_next {s t : State} : complete s = .next t ↔ t = advance s := by
  simp [complete, eq_comm]

theorem completeWith_next {r : Result} {t : State} (h : completeWith r = .next t) :
    ∃ u, r = .next u ∧ t = advance u := by
  rcases r with u | r | r
  · exact ⟨u, rfl, by simpa [completeWith, eq_comm] using h⟩
  · cases h
  · cases h

/-! ### Information words as zero-extended operands -/

theorem zext_byte (v : Byte) : (0#24 ++ v : BitVec (24 + 8)) = v.setWidth 32 := by
  have : v.toNat < 2 ^ 8 := v.isLt
  apply BitVec.eq_of_toNat_eq
  rw [BitVec.toNat_append]
  simp
  omega

theorem zext_elem (v : Elem) : (0#16 ++ v : BitVec (16 + 16)) = v.setWidth 32 := by
  have : v.toNat < 2 ^ 16 := v.isLt
  apply BitVec.eq_of_toNat_eq
  rw [BitVec.toNat_append]
  simp
  omega

theorem infoSymbuf_eq (v : Byte) : infoSymbuf v = v.setWidth 32 := zext_byte v

theorem infoPush_eq (v : Elem) : infoPush v = v.setWidth 32 := zext_elem v

/-! ### The builder -/

theorem execHsym_cases (v : Byte) (s : State) :
    (∃ h, execHsym v s = .next (advance (pushSymbol v s h))) ∨
    (s.symcnt.val = 256 ∧
      execHsym v s = .next (advance (raise .symbufOverflow (infoSymbuf v) { s with hpoison := true }))) := by
  by_cases h : s.symcnt.val < 256
  · exact .inl ⟨h, by simp [execHsym, h]⟩
  · exact .inr ⟨by omega, by simp [execHsym, h]⟩

theorem rebuildHazard_iff (t : Slot) (s : State) : rebuildHazard t s = true ↔ MidCode t s := by
  constructor
  · intro h
    simp only [rebuildHazard, Bool.and_eq_true, beq_iff_eq, decide_eq_true_eq] at h
    exact ⟨h.1.1, h.1.2, h.2⟩
  · rintro ⟨h1, h2, h3⟩
    simp [rebuildHazard, h1, h2, h3]

/-- The cursor invalidated by a rebuild (R112 step 1). -/
def cursorInvalidated (t : Slot) (s : State) : State :=
  cursorToRoot (killPass (raise .cursorInvalidated (infoCursor t s.cdepth s.cpath) s))

theorem invalidateCursor_midCode {t : Slot} {s : State} (h : MidCode t s) :
    invalidateCursor t s = cursorInvalidated t s := by
  rw [invalidateCursor, if_pos ((rebuildHazard_iff t s).2 h)]
  rfl

theorem invalidateCursor_idle {t : Slot} {s : State} (h : ¬ MidCode t s) : invalidateCursor t s = s := by
  rw [invalidateCursor, if_neg (fun h' => h ((rebuildHazard_iff t s).1 h'))]

/-- What one HBUILD can make of slot t: a tree, or an error and an empty slot (R112 steps 2 to 4). -/
theorem publish_cases (t : Slot) (s : State) :
    (∃ root, buildOutcome t s = .ok root ∧ publish t s = storeTree t (some root) s) ∨
    (∃ code info, (code = .totalGt256 ∨ code = .symCountMismatch ∨ code = .noSlot) ∧
      buildOutcome t s = .error (code, info) ∧ publish t s = storeTree t none (raise code info s)) := by
  rcases h : buildOutcome t s with ⟨code, info⟩ | root
  · refine .inr ⟨code, info, ?_, rfl, by rw [publish, h]⟩
    unfold buildOutcome at h
    split at h
    · cases h; simp
    · split at h
      · cases h; simp
      · split at h <;> cases h
        simp
  · exact .inl ⟨root, rfl, by rw [publish, h]⟩

theorem execHbuild_eq (t : Slot) (s : State) :
    execHbuild t s = .next (advance (clearStaging (publish t (invalidateCursor t s)))) := rfl

/-- Everything HBUILD can do: the four ways the two steps of R112 can go together. -/
theorem execHbuild_cases (t : Slot) (s : State) : ∃ u, (u = s ∧ ¬ MidCode t s ∨ u = cursorInvalidated t s ∧ MidCode t s) ∧
    ((∃ root, buildOutcome t u = .ok root ∧
        execHbuild t s = .next (advance (clearStaging (storeTree t (some root) u)))) ∨
      (∃ code info, (code = .totalGt256 ∨ code = .symCountMismatch ∨ code = .noSlot) ∧
        buildOutcome t u = .error (code, info) ∧
        execHbuild t s = .next (advance (clearStaging (storeTree t none (raise code info u)))))) := by
  rw [execHbuild_eq]
  refine ⟨invalidateCursor t s, ?_, ?_⟩
  · by_cases h : MidCode t s
    · exact .inr ⟨invalidateCursor_midCode h, h⟩
    · exact .inl ⟨invalidateCursor_idle h, h⟩
  · rcases publish_cases t (invalidateCursor t s) with ⟨root, h, e⟩ | ⟨code, info, hc, h, e⟩
    · exact .inl ⟨root, h, by rw [e]⟩
    · exact .inr ⟨code, info, hc, h, by rw [e]⟩

/-! ### The decoder -/

theorem execDbyte_cases (b : Byte) (s : State) :
    (bitcnt s + 8 ≤ s.cfg.bitcap ∧ execDbyte b s = .next (advance (appendByte b s))) ∨
    (s.cfg.bitcap < bitcnt s + 8 ∧
      execDbyte b s = .next (advance (raise .bitbufOverflow (infoBitbuf (bitcnt s) b) s))) := by
  by_cases h : s.cfg.bitcap < bitcnt s + 8
  · exact .inr ⟨h, by simp [execDbyte, h]⟩
  · exact .inl ⟨by omega, by simp [execDbyte, h]⟩

theorem boundTree_some {s : State} {root : Node} :
    boundTree s = some root ↔ s.dbound = true ∧ s.tree[s.dslot] = some root := by
  unfold boundTree
  cases s.dbound <;> simp

/-- Everything DDEC can do when it answers a next state. -/
theorem execDdec_next {n : Byte} {s t : State} (h : execDdec n s = .next t) :
    (s.ddead = true ∧ t = advance (raise .passDead (infoDead s.dslot) (beginDecode s))) ∨
    (s.ddead = false ∧ boundTree s = none ∧
      t = advance (raise .noTable (infoNoTable s.dslot s.dbound) (beginDecode s))) ∨
    (∃ root u, Decoding root s ∧ ddecLoop root n.toNat (bitcnt s) (beginDecode s) = .next u ∧
      t = advance u) := by
  rcases hd : s.ddead with _ | _
  · rcases hb : boundTree s with _ | root
    · exact .inr (.inl ⟨rfl, rfl, by simpa [execDdec, hd, hb, eq_comm] using h⟩)
    · simp only [execDdec, hd, hb, Bool.false_eq_true, if_false] at h
      obtain ⟨u, hu, rfl⟩ := completeWith_next h
      obtain ⟨h1, h2⟩ := boundTree_some.1 hb
      exact .inr (.inr ⟨root, u, ⟨hd, h1, h2⟩, hu, rfl⟩)
  · exact .inl ⟨rfl, by simpa [execDdec, hd, eq_comm] using h⟩

theorem execDdec_decoding {root : Node} {s : State} (n : Byte) (h : Decoding root s) :
    execDdec n s = completeWith (ddecLoop root n.toNat (bitcnt s) (beginDecode s)) := by
  simp [execDdec, h.alive, boundTree_some.2 ⟨h.bound, h.table⟩]

/-! ### The zig-zag reorder -/

theorem execZpush_cases (v : Elem) (s : State) :
    (∃ h, execZpush v s = .next (advance (pushValue v s h))) ∨
    (s.zcnt.val = 64 ∧
      execZpush v s = .next (advance (raise .zzOverflow (infoPush v) { s with zpoison := true }))) := by
  by_cases h : s.zcnt.val < 64
  · exact .inl ⟨h, by simp [execZpush, h]⟩
  · exact .inr ⟨by omega, by simp [execZpush, h]⟩

theorem execZrun_cases (q : QSlot) (s : State) :
    (s.zpoison = true ∧
      execZrun q s = .next (advance (clearInput (invalidateBlock q (raise .zzOverflow (infoRun q) s))))) ∨
    (s.zpoison = false ∧ s.zcnt.val < 64 ∧
      execZrun q s = .next (advance (clearInput (invalidateBlock q (raise .zzShort (infoShort q s.zcnt) s))))) ∨
    (s.zpoison = false ∧ s.zcnt.val = 64 ∧
      execZrun q s = .next (advance (clearInput (storeBlock q (placeBlock s.zin s.qblk[q]) s)))) := by
  rcases hp : s.zpoison with _ | _
  · by_cases h : s.zcnt.val < 64
    · exact .inr (.inl ⟨rfl, h, by simp [execZrun, runBlock, hp, h]⟩)
    · exact .inr (.inr ⟨rfl, by omega, by simp [execZrun, runBlock, hp, h]⟩)
  · exact .inl ⟨rfl, by simp [execZrun, runBlock, hp]⟩

/-! ### A step -/

/-- Everything a step can do. -/
theorem step_cases (s : State) :
    (s.prog.length ≤ s.ci ∧ step s = .next s) ∨
    (∃ w i, s.prog[s.ci]? = some w ∧ decode w = .ok i ∧ step s = exec i s) ∨
    (∃ w e, s.prog[s.ci]? = some w ∧ decode w = .error e ∧
      step s = .next (advance (raise .illegalCmd w s))) := by
  rcases hw : s.prog[s.ci]? with _ | w
  · exact .inl ⟨by simpa using hw, by simp [step, currentWord, hw]⟩
  · rcases hd : decode w with e | i
    · exact .inr (.inr ⟨w, e, rfl, hd, by simp [step, currentWord, hw, hd, execIllegal, infoIllegal]⟩)
    · exact .inr (.inl ⟨w, i, rfl, hd, by simp [step, currentWord, hw, hd]⟩)

end Sys2Proof.Machine
end

