-- ==== Sys2Proof/Laws/Huffman.lean ====
section
/-! SUPPORT. What HBUILD's construction answers for a staged table: the canonical tree within the Kraft
inequality (R114, R115), and the first symbol that finds no slot beyond it. -/

namespace Sys2Proof.Machine

/-! ### Positions in the code-length table -/

/-- Σ of the counts before place i. -/
def countBefore (ns : List Byte) (i : Nat) : Nat := ((ns.take i).map BitVec.toNat).sum

theorem countBefore_cons_succ (n : Byte) (ns : List Byte) (i : Nat) :
    countBefore (n :: ns) (i + 1) = n.toNat + countBefore ns i := by simp [countBefore]

/-- The j-th symbol of the i-th length has that length and the j-th code after its first. -/
theorem codes_at {L code i j : Nat} {ns : List Byte} {n : Byte} (hn : ns[i]? = some n) (hj : j < n.toNat) :
    (lengthsFrom L ns)[countBefore ns i + j]? = some (L + i) ∧
      (canonicalFrom code ns)[countBefore ns i + j]? = some (codeAfter code ns i + j) := by
  induction i generalizing L code ns with
  | zero =>
    cases ns with
    | nil => simp at hn
    | cons m ns =>
      simp only [List.getElem?_cons_zero, Option.some.injEq] at hn
      subst hn
      constructor
      · rw [lengthsFrom, List.getElem?_append_left (by simpa [countBefore] using hj)]
        simp [countBefore, hj]
      · rw [canonicalFrom, List.getElem?_append_left (by simpa [countBefore] using hj)]
        simp [countBefore, hj, codeAfter]
  | succ i ih =>
    cases ns with
    | nil => simp at hn
    | cons m ns =>
      rw [List.getElem?_cons_succ] at hn
      have h := ih (L := L + 1) (code := 2 * (code + m.toNat)) hn
      have e : countBefore (m :: ns) (i + 1) + j = m.toNat + (countBefore ns i + j) := by
        rw [countBefore_cons_succ]; omega
      rw [e, lengthsFrom, canonicalFrom, List.getElem?_append_right (by simp),
        List.getElem?_append_right (by simp)]
      simp only [List.length_replicate, List.length_map, List.length_range, Nat.add_sub_cancel_left]
      refine ⟨by rw [h.1]; congr 1; omega, by rw [h.2]; simp [codeAfter]⟩

/-- Every symbol is the j-th of some length. -/
theorem exists_place {ns : List Byte} {k : Nat} (h : k < (ns.map BitVec.toNat).sum) :
    ∃ i j n, ns[i]? = some n ∧ j < n.toNat ∧ k = countBefore ns i + j := by
  induction ns generalizing k with
  | nil => simp at h
  | cons m ns ih =>
    rw [List.map_cons, List.sum_cons] at h
    by_cases hk : k < m.toNat
    · exact ⟨0, k, m, rfl, hk, by simp [countBefore]⟩
    · obtain ⟨i, j, n, hn, hj, e⟩ := ih (k := k - m.toNat) (by omega)
      exact ⟨i + 1, j, n, by simpa using hn, hj, by rw [countBefore_cons_succ]; omega⟩

theorem countBefore_succ {ns : List Byte} {i : Nat} {n : Byte} (hn : ns[i]? = some n) :
    countBefore ns (i + 1) = countBefore ns i + n.toNat := by
  rw [countBefore, countBefore, List.take_add_one, hn]
  simp

theorem countBefore_mono (ns : List Byte) {i j : Nat} (h : i ≤ j) : countBefore ns i ≤ countBefore ns j := by
  induction h with
  | refl => exact Nat.le_refl _
  | @step j _ ih =>
    rcases hn : ns[j]? with _ | n
    · rw [countBefore, countBefore] at *
      rw [List.take_add_one, hn]
      simpa using ih
    · rw [countBefore_succ hn]
      omega

/-! ### The sums of R115 -/

theorem foldl_double (c : Nat) (ns : List Byte) :
    ns.foldl (fun c n => 2 * (c + n.toNat)) (2 * c) = 2 * ns.foldl (fun c n => 2 * c + n.toNat) c := by
  induction ns generalizing c with
  | nil => rfl
  | cons n ns ih => rw [List.foldl_cons, List.foldl_cons, ih]

theorem codeAfter_eq (hcount : Vector Byte 16) (i : Nat) :
    codeAfter 0 hcount.toList i = 2 * kraftUpTo hcount i := foldl_double 0 _

theorem kraftUpTo_succ {hcount : Vector Byte 16} {i : Nat} {n : Byte} (hn : hcount.toList[i]? = some n) :
    kraftUpTo hcount (i + 1) = 2 * kraftUpTo hcount i + n.toNat := by
  rw [kraftUpTo, kraftUpTo, List.take_add_one, hn]
  simp

theorem fits_iff (L code : Nat) (ns : List Byte) :
    Fits L code ns ↔ ∀ i n, ns[i]? = some n → codeAfter code ns i + n.toNat ≤ 2 ^ (L + i) := by
  induction ns generalizing L code with
  | nil => simp [Fits]
  | cons m ns ih =>
    rw [Fits, ih]
    constructor
    · rintro ⟨h0, h⟩ i n hn
      cases i with
      | zero => simp only [List.getElem?_cons_zero, Option.some.injEq] at hn; subst hn; simpa [codeAfter] using h0
      | succ i =>
        have := h i n (by simpa using hn)
        rw [show L + 1 + i = L + (i + 1) by omega] at this
        simpa [codeAfter] using this
    · intro h
      refine ⟨by simpa [codeAfter] using h 0 m rfl, fun i n hn => ?_⟩
      have := h (i + 1) n (by simpa using hn)
      rw [show L + (i + 1) = L + 1 + i by omega] at this
      simpa [codeAfter] using this

theorem fits_iff_kraftUpTo (hcount : Vector Byte 16) :
    Fits 1 0 hcount.toList ↔ ∀ L, 1 ≤ L → L ≤ 16 → kraftUpTo hcount L ≤ 2 ^ L := by
  rw [fits_iff]
  constructor
  · intro h L h1 h2
    obtain ⟨i, rfl⟩ : ∃ i, L = i + 1 := ⟨L - 1, by omega⟩
    have hn : hcount.toList[i]? = some (hcount[i]'(by omega)) := by simp
    have := h i _ hn
    rw [codeAfter_eq, ← kraftUpTo_succ hn] at this
    rwa [Nat.add_comm 1 i] at this
  · intro h i n hn
    have hi : i < 16 := by
      have := (List.getElem?_eq_some_iff.1 hn).1
      simpa using this
    rw [codeAfter_eq, ← kraftUpTo_succ hn, Nat.add_comm 1 i]
    exact h (i + 1) (by omega) (by omega)

theorem fits_iff_kraftSum (hcount : Vector Byte 16) : Fits 1 0 hcount.toList ↔ kraftSum hcount ≤ 65536 := by
  obtain ⟨n, ns, e, hl⟩ : ∃ n ns, hcount.toList = n :: ns ∧ ns.length = 15 := by
    have := hcount.length_toList
    rcases h : hcount.toList with _ | ⟨n, ns⟩
    · simp [h] at this
    · exact ⟨n, ns, rfl, by simpa [h] using this⟩
  rw [kraftSum, e, fits_iff_kraft, hl]
  simp

/-! ### `build()` on a staged table -/

theorem stagedSymbols_length (s : State) : (stagedSymbols s).length = s.symcnt.val := by
  have := s.symcnt.isLt
  rw [stagedSymbols, List.length_take, Vector.length_toList]
  omega

theorem stagedSymbols_getElem? (s : State) (k : Nat) :
    (stagedSymbols s)[k]? = if h : k < s.symcnt.val then some (s.symbuf[k]'(by omega)) else none := by
  have := s.symcnt.isLt
  rw [stagedSymbols, List.getElem?_take]
  split
  · rw [List.getElem?_eq_getElem (by simp; omega)]; simp
  · rfl

theorem buildOutcome_staged (t : Slot) {s : State} (h : Staged s) :
    buildOutcome t s = match build s with
      | .fail k len sym => .error (.noSlot, infoNoSlot t len k sym)
      | .tree root => .ok root := by
  have h1 := h.total
  unfold buildOutcome
  exact (if_neg (by simp [h.clean]; omega)).trans (if_neg (by simp [h.count]))

/-- Only a staged table is built. -/
theorem buildOutcome_ok {t : Slot} {s : State} {root : Node} (h : buildOutcome t s = .ok root) :
    Staged s ∧ build s = .tree root := by
  have hs : Staged s := by
    unfold buildOutcome at h
    split at h
    · cases h
    · split at h
      · cases h
      · rename_i h1 h2
        simp only [not_or, Nat.not_lt, Bool.not_eq_true] at h1
        exact ⟨h1.1, h1.2, by simpa using h2⟩
  rw [buildOutcome_staged t hs] at h
  refine ⟨hs, ?_⟩
  split at h <;> cases h
  assumption

theorem packedRoot_fresh (p : Nat) : PackedRoot p freshInterior := .inl rfl

/-- What a build within the Kraft inequality makes (R113, R114). -/
abbrev BuiltFrom (s : State) (root : Node) : Prop :=
  Built 0 s.hcount.toList (stagedSymbols s) freshInterior root

theorem build_within {s : State} (h : Staged s) (hk : kraftSum s.hcount ≤ 65536) :
    ∃ root, build s = .tree root ∧ BuiltFrom s root := by
  have := buildFrom_built (p := 0) s.hcount.toList (stagedSymbols s) (packedRoot_fresh 0)
    (by rw [stagedSymbols_length, h.count]; rfl)
    (by rw [weight_fresh]; exact (fits_iff_kraftSum _).2 hk) 0
  exact this

theorem builtFrom_leafCount {s : State} {root : Node} (h : BuiltFrom s root) : leafCount root = sumcnt s := by
  rw [h.leaves]
  simp [leafCount, freshInterior, sumcnt, sumCounts]

theorem builtFrom_stored {s : State} {root : Node} (hs : Staged s) (h : BuiltFrom s root) :
    storedTree root = true := by
  have hp := h.packed
  rw [Vector.length_toList] at hp
  exact packedRoot_storedTree hp (by rw [builtFrom_leafCount h]; exact hs.total)

theorem builtFrom_interiorCount {s : State} {root : Node} (h : BuiltFrom s root) :
    interiorCount root ≤ 1 + ((codeLengths s.hcount).map (· - 1)).sum := by
  have := h.nodes
  simpa [interiorCount, freshInterior, codeLengths] using this

/-- Every staged symbol has a code, and stands at it in the built tree (R114). -/
theorem builtFrom_leaf {s : State} {root : Node} (hs : Staged s) (h : BuiltFrom s root) {k : Nat} (hk : k < 256)
    (hlt : k < sumcnt s) : ∃ code, canonicalCode s.hcount k = some code ∧
      (codeLengths s.hcount)[k]? = some code.length ∧ walk root code = some (.leaf s.symbuf[k]) := by
  obtain ⟨i, j, n, hn, hj, e⟩ := exists_place (ns := s.hcount.toList) hlt
  obtain ⟨h1, h2⟩ := codes_at (L := 1) (code := 0) hn hj
  rw [← e] at h1 h2
  refine ⟨pathBits (codeAfter 0 s.hcount.toList i + j) (1 + i), ?_, ?_, ?_⟩
  · rw [canonicalCode, canonicalCodes, codeLengths, h1, h2]
  · rw [pathBits_length]; exact h1
  · have hv : (stagedSymbols s)[k]? = some s.symbuf[k] := by
      rw [stagedSymbols_getElem?, dif_pos (by rw [hs.count]; exact hlt)]
    exact h.leaf k _ _ _ (by rw [weight_fresh]; exact h2) h1 hv

/-- The place where a build beyond the Kraft inequality fails (R115). -/
structure FailsAt (s : State) (L k : Nat) : Prop where
  length : 1 ≤ L ∧ L ≤ 16
  overfull : 2 ^ L < kraftUpTo s.hcount L
  first : ∀ M, 1 ≤ M → M < L → kraftUpTo s.hcount M ≤ 2 ^ M
  index : k = symbolsUpTo s.hcount (L - 1) + 2 ^ L - 2 * kraftUpTo s.hcount (L - 1)
  codeLength : (codeLengths s.hcount)[k]? = some L
  code : (canonicalCodes s.hcount)[k]? = some (2 ^ L)
  before : ∀ j, j < k → ∃ code len, (canonicalCodes s.hcount)[j]? = some code ∧
    (codeLengths s.hcount)[j]? = some len ∧ code < 2 ^ len

theorem exists_first_over {hcount : Vector Byte 16} (h : 65536 < kraftSum hcount) :
    ∃ i n, hcount.toList[i]? = some n ∧ i < 16 ∧ 2 ^ (i + 1) < kraftUpTo hcount (i + 1) ∧
      ∀ M, 1 ≤ M → M < i + 1 → kraftUpTo hcount M ≤ 2 ^ M := by
  have hex : ∃ L, 1 ≤ L ∧ L ≤ 16 ∧ 2 ^ L < kraftUpTo hcount L := by
    by_contra hc
    push Not at hc
    exact absurd ((fits_iff_kraftSum hcount).1 ((fits_iff_kraftUpTo hcount).2 hc)) (by omega)
  classical
  obtain ⟨h1, h2, h3⟩ := Nat.find_spec hex
  obtain ⟨i, hi⟩ : ∃ i, Nat.find hex = i + 1 := ⟨Nat.find hex - 1, by omega⟩
  rw [hi] at h2 h3
  refine ⟨i, hcount[i]'(by omega), by simp, by omega, h3, fun M hM1 hM2 => ?_⟩
  have := Nat.find_min hex (m := M) (by omega)
  push Not at this
  exact this hM1 (by omega)

theorem build_beyond {s : State} (h : Staged s) (hk : 65536 < kraftSum s.hcount) :
    ∃ (L k : Nat) (hk : k < 256), FailsAt s L k ∧ build s = .fail k L s.symbuf[k] := by
  obtain ⟨i, n, hn, hi, hover, hfirst⟩ := exists_first_over hk
  have hfit : Fits 1 0 (s.hcount.toList.take i) := by
    rw [fits_iff]
    intro j m hm
    rw [List.getElem?_take] at hm
    split at hm
    · rename_i hji
      have e : codeAfter 0 (s.hcount.toList.take i) j = codeAfter 0 s.hcount.toList j := by
        rw [codeAfter, codeAfter, List.take_take, Nat.min_eq_left (by omega)]
      rw [e, codeAfter_eq, ← kraftUpTo_succ hm, Nat.add_comm 1 j]
      exact hfirst (j + 1) (by omega) (by omega)
    · cases hm
  have hc := codeAfter_eq s.hcount i
  have hs := kraftUpTo_succ hn
  have hle : 2 * kraftUpTo s.hcount i ≤ 2 ^ (i + 1) := by
    rcases Nat.eq_zero_or_pos i with rfl | h0
    · simp [kraftUpTo]
    · have := hfirst i h0 (by omega)
      rw [Nat.pow_succ]; omega
  obtain ⟨v, hv, hb⟩ := buildFrom_failed (p := 0) i s.hcount.toList (stagedSymbols s) n (packedRoot_fresh 0)
    (by rw [stagedSymbols_length, h.count]; rfl) (by rw [weight_fresh]; exact hfit) hn
    (by rw [weight_fresh, Nat.mul_zero, hc, Nat.zero_add, Nat.add_comm 1 i]; omega) 0
  rw [weight_fresh, Nat.mul_zero, hc, Nat.zero_add, Nat.add_comm 1 i] at hv hb
  rw [Nat.zero_add] at hb
  have hj : 2 ^ (i + 1) - 2 * kraftUpTo s.hcount i < n.toNat := by omega
  obtain ⟨h1, h2⟩ := codes_at (L := 1) (code := 0) hn hj
  have hv' := hv
  rw [stagedSymbols_getElem?] at hv
  split at hv
  · rename_i hlt
    have hlt' : countBefore s.hcount.toList i + (2 ^ (i + 1) - 2 * kraftUpTo s.hcount i) < s.symcnt.val := hlt
    have := s.symcnt.isLt
    have htot := h.total
    rw [← h.count] at htot
    cases hv
    refine ⟨i + 1, countBefore s.hcount.toList i + (2 ^ (i + 1) - 2 * kraftUpTo s.hcount i), by omega,
      ⟨⟨by omega, by omega⟩, hover, hfirst, ?_, ?_, ?_, ?_⟩, hb⟩
    · rw [Nat.add_sub_cancel]
      show countBefore s.hcount.toList i + _ = countBefore s.hcount.toList i + _ - _
      omega
    · rw [codeLengths, h1, Nat.add_comm 1 i]
    · rw [canonicalCodes, h2, hc]
      congr 1
      omega
    · intro j hjk
      obtain ⟨i', j', n', hn', hj', rfl⟩ := exists_place (ns := s.hcount.toList) (k := j)
        (by show j < sumcnt s; rw [← h.count]; omega)
      obtain ⟨g1, g2⟩ := codes_at (L := 1) (code := 0) hn' hj'
      refine ⟨_, _, g2, g1, ?_⟩
      rw [codeAfter_eq, Nat.add_comm 1 i']
      have hs' := kraftUpTo_succ hn'
      rcases Nat.lt_trichotomy i' i with hlt | rfl | hgt
      · have := hfirst (i' + 1) (by omega) (by omega)
        omega
      · omega
      · have := countBefore_mono s.hcount.toList (show i + 1 ≤ i' by omega)
        rw [countBefore_succ hn] at this
        omega
  · cases hv

/-- A build succeeds exactly within the Kraft inequality, and then makes what `BuiltFrom` says. -/
theorem build_tree {s : State} {root : Node} (h : Staged s) (hb : build s = .tree root) :
    kraftSum s.hcount ≤ 65536 ∧ BuiltFrom s root := by
  by_cases hk : kraftSum s.hcount ≤ 65536
  · obtain ⟨r, hr, g⟩ := build_within h hk
    rw [hb] at hr
    cases hr
    exact ⟨hk, g⟩
  · obtain ⟨L, k, hk', -, hf⟩ := build_beyond h (by omega)
    rw [hb] at hf
    cases hf

/-! ### The state an invalidated cursor leaves -/

theorem staged_cursorInvalidated {t : Slot} {s : State} : Staged (cursorInvalidated t s) ↔ Staged s :=
  ⟨fun h => ⟨h.clean, h.total, h.count⟩, fun h => ⟨h.clean, h.total, h.count⟩⟩

theorem build_cursorInvalidated (t : Slot) (s : State) : build (cursorInvalidated t s) = build s := rfl

theorem not_midCode_cursorInvalidated (t t' : Slot) (s : State) : ¬ MidCode t (cursorInvalidated t' s) :=
  fun h => absurd h.depth (by simp [cursorInvalidated])

/-- The tree a slot holds after an HBUILD that succeeded came from this build. -/
theorem execHbuild_tree {t : Slot} {s u : State} {root : Node} (h : execHbuild t s = .next u)
    (hu : u.tree[t] = some root) : Staged s ∧ kraftSum s.hcount ≤ 65536 ∧ BuiltFrom s root := by
  obtain ⟨v, hv, ⟨r, hr, e⟩ | ⟨code, info, -, -, e⟩⟩ := execHbuild_cases t s
  · rw [h] at e
    cases e
    have hroot : r = root := by simpa using hu
    subst hroot
    obtain ⟨hs, hb⟩ := buildOutcome_ok hr
    rcases hv with ⟨rfl, -⟩ | ⟨rfl, -⟩
    · exact ⟨hs, build_tree hs hb⟩
    · rw [build_cursorInvalidated] at hb
      rw [staged_cursorInvalidated] at hs
      exact ⟨hs, build_tree hs hb⟩
  · rw [h] at e
    cases e
    simp at hu

end Sys2Proof.Machine
end

