-- ==== Sys2Proof/Laws/PerInstr.lean ====
section
/-! SUPPORT. What holds of every command as syntax, one lemma per constructor: its source line is well
formed (R90), and its word is of its row of R86. -/

namespace Sys2Proof.Laws.WellFormed

/-- Every operand of the command is in the range R90 gives it. -/
def Statement (i : Instr) : Prop := i.wellFormed = true

theorem hclr : Statement .hclr := rfl
theorem hcnt (l4 : Fin 16) (n : Byte) : Statement (.hcnt l4 n) := by
  simp [Statement, Instr.wellFormed, Instr.source, Source.wellFormed]; omega
theorem hsym (v : Byte) : Statement (.hsym v) := by
  simp [Statement, Instr.wellFormed, Instr.source, Source.wellFormed]; omega
theorem hbuild (t : Slot) : Statement (.hbuild t) := by
  simp [Statement, Instr.wellFormed, Instr.source, Source.wellFormed, SlotName.wellFormed]; omega
theorem dsel (t : Slot) : Statement (.dsel t) := by
  simp [Statement, Instr.wellFormed, Instr.source, Source.wellFormed, SlotName.wellFormed]; omega
theorem drst (f : Bool) : Statement (.drst f) := by cases f <;> rfl
theorem dbyte (b : Byte) : Statement (.dbyte b) := by
  simp [Statement, Instr.wellFormed, Instr.source, Source.wellFormed]; omega
theorem ddec (n : Byte) : Statement (.ddec n) := by
  simp [Statement, Instr.wellFormed, Instr.source, Source.wellFormed]; omega
theorem zclr : Statement .zclr := rfl
theorem zpush (v : Elem) : Statement (.zpush v) := by
  simp [Statement, Instr.wellFormed, Instr.source, Source.wellFormed]; omega
theorem zrun (q : QSlot) : Statement (.zrun q) := by
  simp [Statement, Instr.wellFormed, Instr.source, Source.wellFormed]; omega
theorem zmap (k : Fin 64) : Statement (.zmap k) := by
  simp [Statement, Instr.wellFormed, Instr.source, Source.wellFormed]; omega
theorem eclr : Statement .eclr := rfl

end Sys2Proof.Laws.WellFormed

namespace Sys2Proof.Laws.Row

/-- The command's word is of its row: (w AND mask) = match (R86). -/
def Statement (i : Instr) : Prop := encode i &&& i.maskWord = i.matchWord

/-- A field under the mask's zeros does not show. -/
theorem mask_field {n m : Nat} (x y : BitVec n) (v : BitVec m) :
    (x ++ v) &&& (y ++ 0#m) = (x &&& y) ++ 0#m := by
  rw [BitVec.and_append, BitVec.and_zero]

theorem hclr : Statement .hclr := rfl
theorem hcnt (l4 : Fin 16) (n : Byte) : Statement (.hcnt l4 n) := by
  have h := mask_field (0x2#4 ++ 0#16) 0xFFFFF#20 (BitVec.ofFin (w := 4) l4)
  have h' := mask_field (0x2#4 ++ 0#16 ++ BitVec.ofFin (w := 4) l4) 0xFFFFF0#24 n
  exact h'.trans (congrArg (· ++ 0#8) h)
theorem hsym (v : Byte) : Statement (.hsym v) :=
  (mask_field (0x3#4 ++ 0#20) 0xFFFFFF#24 v).trans rfl
theorem hbuild (t : Slot) : Statement (.hbuild t) :=
  (mask_field (0x4#4 ++ 0#25) 0x1FFFFFFF#29 (BitVec.ofFin (w := 3) t)).trans rfl
theorem dsel (t : Slot) : Statement (.dsel t) :=
  (mask_field (0x5#4 ++ 0#25) 0x1FFFFFFF#29 (BitVec.ofFin (w := 3) t)).trans rfl
theorem drst (f : Bool) : Statement (.drst f) :=
  (mask_field (0x6#4 ++ 0#27) 0x7FFFFFFF#31 (BitVec.ofBool f)).trans rfl
theorem dbyte (b : Byte) : Statement (.dbyte b) :=
  (mask_field (0x7#4 ++ 0#20) 0xFFFFFF#24 b).trans rfl
theorem ddec (n : Byte) : Statement (.ddec n) :=
  (mask_field (0x8#4 ++ 0#20) 0xFFFFFF#24 n).trans rfl
theorem zclr : Statement .zclr := rfl
theorem zpush (v : Elem) : Statement (.zpush v) :=
  (mask_field (0xA#4 ++ 0#12) 0xFFFF#16 v).trans rfl
theorem zrun (q : QSlot) : Statement (.zrun q) :=
  (mask_field (0xB#4 ++ 0#26) 0x3FFFFFFF#30 (BitVec.ofFin (w := 2) q)).trans rfl
theorem zmap (k : Fin 64) : Statement (.zmap k) :=
  (mask_field (0xC#4 ++ 0#22) 0x3FFFFFF#26 (BitVec.ofFin (w := 6) k)).trans rfl
theorem eclr : Statement .eclr := rfl

end Sys2Proof.Laws.Row
end

