-- ==== Sys2Proof/Laws/ZigZag.lean ====
section
/-! SUPPORT. What the placement of ZRUN (R164) leaves in a block. -/

namespace Sys2Proof.Machine

/-- Placing values at places none of which is j leaves element j alone. -/
theorem foldl_set_ne (ps : List (Fin 64 × Elem)) (block : Vector Elem 64) (j : Fin 64)
    (h : ∀ p ∈ ps, p.1 ≠ j) : (ps.foldl (fun blk p => blk.set p.1 p.2) block)[j] = block[j] := by
  induction ps generalizing block with
  | nil => rfl
  | cons p ps ih =>
    rw [List.foldl_cons, ih _ (fun q hq => h q (List.mem_cons_of_mem _ hq))]
    have hp : p.1.val ≠ j.val := fun e => h p (List.mem_cons_self ..) (Fin.ext e)
    exact Vector.getElem_set_ne p.1.isLt j.isLt hp

/-- Placing values at distinct places leaves each at its own. -/
theorem foldl_set_mem {ps : List (Fin 64 × Elem)} (block : Vector Elem 64) (hn : (ps.map Prod.fst).Nodup)
    {p : Fin 64 × Elem} (hp : p ∈ ps) : (ps.foldl (fun blk p => blk.set p.1 p.2) block)[p.1] = p.2 := by
  induction ps generalizing block with
  | nil => simp at hp
  | cons q ps ih =>
    rw [List.map_cons, List.nodup_cons] at hn
    rw [List.foldl_cons]
    rcases List.mem_cons.1 hp with rfl | hp
    · rw [foldl_set_ne _ _ _ (fun r hr e => hn.1 (List.mem_map.2 ⟨r, hr, e⟩))]
      exact Vector.getElem_set_self p.1.isLt
    · exact ih _ hn.2 hp

theorem zzTable_nodup : zzTable.toList.Nodup := by decide +kernel

/-- ZIN[k] ends at natural index ZZ(k) (R164). -/
theorem placeBlock_zz (zin block : Vector Elem 64) (k : Fin 64) : (placeBlock zin block)[zz k] = zin[k] := by
  have hlen : (zzTable.toList.zip zin.toList).map Prod.fst = zzTable.toList := by
    rw [List.map_fst_zip]
    simp
  have hmem : (zz k, zin[k]) ∈ zzTable.toList.zip zin.toList := by
    rw [List.mem_iff_getElem]
    exact ⟨k.val, by simp, by simp [zz]⟩
  exact foldl_set_mem block (by rw [hlen]; exact zzTable_nodup) hmem

end Sys2Proof.Machine
end

