-- ==== Sys2Proof/Tests/Slice0.lean ====
section
/-! SUPPORT. Tests. Every expected value is the spec's: the encodings of R81, R86 and R92, and the examples
and vectors of 40_huffman_build.md, 41_huffman_decode.md, 42_zigzag.md and 95_test_vectors.md (the id
stands in each test's comment). -/

namespace Sys2Proof.Tests

open Sys2Proof.Machine

/-! ### Decoding: words written out from R81 and R86, for every constructor -/

theorem test_decode_hclr : decode 0b0001_0000000000000000000000000000#32 = .ok .hclr := by decide

/-- HCNT 2, 3 (R92): l4 = 1, n = 3. -/
theorem test_decode_hcnt : decode 0b0010_0000000000000000_0001_00000011#32 = .ok (.hcnt 1 3#8) := by decide

/-- L = 16 and n = 255 (R83). -/
theorem test_decode_hcnt_longest : decode 0b0010_0000000000000000_1111_11111111#32 = .ok (.hcnt 15 255#8) := by
  decide

theorem test_decode_hsym : decode 0b0011_00000000000000000000_01000001#32 = .ok (.hsym 0x41#8) := by decide

/-- HBUILD AC1: class 1, index 1 (R84, R92). -/
theorem test_decode_hbuild : decode 0b0100_0000000000000000000000000_101#32 = .ok (.hbuild 5) := by decide

theorem test_decode_dsel : decode 0b0101_0000000000000000000000000_101#32 = .ok (.dsel 5) := by decide

theorem test_decode_drst : decode 0b0110_000000000000000000000000000_1#32 = .ok (.drst true) := by decide

theorem test_decode_dbyte : decode 0b0111_00000000000000000000_10100101#32 = .ok (.dbyte 0xA5#8) := by decide

theorem test_decode_ddec : decode 0b1000_00000000000000000000_00000011#32 = .ok (.ddec 3#8) := by decide

theorem test_decode_zclr : decode 0b1001_0000000000000000000000000000#32 = .ok .zclr := by decide

theorem test_decode_zpush : decode 0b1010_000000000000_0001001000110100#32 = .ok (.zpush 0x1234#16) := by decide

theorem test_decode_zrun : decode 0b1011_00000000000000000000000000_11#32 = .ok (.zrun 3) := by decide

theorem test_decode_zmap : decode 0b1100_0000000000000000000000_111111#32 = .ok (.zmap 63) := by decide

theorem test_decode_eclr : decode 0b1110_0000000000000000000000000000#32 = .ok .eclr := by decide

/-- R87(a). -/
theorem test_decode_reserved_opcodes :
    decode 0x00000000#32 = .error .reservedOpcode ∧ decode 0xD0000000#32 = .error .reservedOpcode ∧
      decode 0xF1234567#32 = .error .reservedOpcode := by decide

/-- R87(b): the lowest reserved bit of each format, vectors I4 to I6. -/
theorem test_decode_reserved_bits :
    decode 0x10000001#32 = .error .reservedBits ∧ decode 0x20001000#32 = .error .reservedBits ∧
      decode 0x30000100#32 = .error .reservedBits ∧ decode 0x40000008#32 = .error .reservedBits ∧
      decode 0x50000008#32 = .error .reservedBits ∧ decode 0x60000002#32 = .error .reservedBits ∧
      decode 0x70000100#32 = .error .reservedBits ∧ decode 0x80000100#32 = .error .reservedBits := by decide

theorem test_decode_reserved_bits_zigzag :
    decode 0x90000001#32 = .error .reservedBits ∧ decode 0xA0010000#32 = .error .reservedBits ∧
      decode 0xB0000004#32 = .error .reservedBits ∧ decode 0xC0000040#32 = .error .reservedBits ∧
      decode 0xE0000100#32 = .error .reservedBits := by decide

/-- The words of 95_test_vectors.md's conventions, from the encoder. -/
theorem test_encode :
    encode .hclr = 0x10000000#32 ∧ encode (.hcnt 1 2#8) = 0x20000102#32 ∧ encode (.hsym 0x0A#8) = 0x3000000A#32 ∧
      encode (.hbuild 5) = 0x40000005#32 ∧ encode (.dsel 5) = 0x50000005#32 ∧ encode (.drst true) = 0x60000001#32 ∧
      encode (.dbyte 0x98#8) = 0x70000098#32 ∧ encode (.ddec 0#8) = 0x80000000#32 := by decide

theorem test_encode_zigzag :
    encode .zclr = 0x90000000#32 ∧ encode (.zpush 0x1234#16) = 0xA0001234#32 ∧ encode (.zrun 2) = 0xB0000002#32 ∧
      encode (.zmap 63) = 0xC000003F#32 ∧ encode .eclr = 0xE0000000#32 := by decide

/-- R65: a word's first byte on a byte-wide link is bits 31:24; R66: three bytes are no command. -/
theorem test_decodeBytes :
    decodeBytes [0x20#8, 0x00#8, 0x01#8, 0x03#8, 0x99#8] = .ok (.hcnt 1 3#8, [0x99#8]) ∧
      decodeBytes [0x20#8, 0x00#8, 0x01#8] = .error .partialWord := by decide

theorem test_decodeTableWord :
    decodeTableWord 32 0x20000103 = some (.hcnt 1 3#8) ∧ decodeTableWord 32 0xD0000000 = none := by decide

/-! ### The checks of WellFormed refuse an ill-formed line (R90, R91), and no word is emitted for it -/

theorem test_refuses_hcnt_length_zero : assembleWords (.hcnt 0 3) = none := by decide
theorem test_refuses_hcnt_length_17 : assembleWords (.hcnt 17 3) = none := by decide
theorem test_refuses_hcnt_count : assembleWords (.hcnt 16 256) = none := by decide
theorem test_refuses_hsym : assembleWords (.hsym 256) = none := by decide
theorem test_refuses_hbuild_number : assembleWords (.hbuild (.num 8)) = none := by decide
theorem test_refuses_hbuild_dc : assembleWords (.hbuild (.dc 4)) = none := by decide
theorem test_refuses_dsel_ac : assembleWords (.dsel (.ac 4)) = none := by decide
theorem test_refuses_drst : assembleWords (.drst 2) = none := by decide
theorem test_refuses_dbyte : assembleWords (.dbyte 256) = none := by decide
theorem test_refuses_ddec : assembleWords (.ddec 256) = none := by decide
theorem test_refuses_zpush : assembleWords (.zpush 65536) = none := by decide
theorem test_refuses_zrun : assembleWords (.zrun 4) = none := by decide
theorem test_refuses_zmap : assembleWords (.zmap 64) = none := by decide
theorem test_refuses_htable_slot : assembleWords (.htable (.num 8) (List.replicate 16 0) []) = none := by decide
theorem test_refuses_htable_counts : assembleWords (.htable (.num 0) (List.replicate 15 0) []) = none := by decide
theorem test_refuses_htable_count : assembleWords (.htable (.num 0) (256 :: List.replicate 15 0) []) = none := by
  decide
theorem test_refuses_htable_symbol : assembleWords (.htable (.num 0) (List.replicate 16 0) [256]) = none := by decide
theorem test_refuses_dfeed : assembleWords (.dfeed [0, 256]) = none := by decide
theorem test_refuses_zload_short : assembleWords (.zload (List.replicate 63 0)) = none := by decide
theorem test_refuses_zload_value : assembleWords (.zload (65536 :: List.replicate 63 0)) = none := by decide

/-- The lines of R92 as text. -/
theorem test_assembles_text :
    assembleLine "HCNT 2, 3".toList = some [0x20000103#32] ∧
      assembleLine "HBUILD AC1 ; t = 5".toList = some [0x40000005#32] ∧
      assembleLine "DRST".toList = some [0x60000000#32] ∧
      assembleLine "DBYTE 0xA5".toList = some [0x700000A5#32] ∧
      assembleLine "ZMAP 64".toList = none := by decide

/-- The eight slot names of R90 are the only ones taken; a number may begin with zeros. -/
theorem test_slot_names :
    ["DC0", "DC1", "DC2", "DC3", "AC0", "AC1", "AC2", "AC3"].map (fun n => assembleLine ("DSEL " ++ n).toList) =
        (List.finRange 8).map (fun t => some [encode (.dsel t)]) ∧
      (∀ n ∈ ["DC4", "AC9", "DC00", "DC0x3", "AC003", "DC", "dc0"], assembleLine ("DSEL " ++ n).toList = none) ∧
      assembleLine "DSEL 007".toList = some [encode (.dsel 7)] := by decide +kernel

/-- The commands that build T3 (95_test_vectors.md), as the pseudo-instruction HTABLE (R91). -/
theorem test_assembles_htable :
    assembleWords (.htable (.dc 0) [1, 2, 0, 0, 0, 0, 0, 0, 0, 0, 0, 0, 0, 0, 0, 0] [0x0A, 0x0B, 0x0C]) =
      some [0x10000000#32, 0x20000001#32, 0x20000102#32, 0x3000000A#32, 0x3000000B#32, 0x3000000C#32,
        0x40000000#32] := by decide

/-! ### Small states -/

/-- A test on the state a result leaves; false of a fault and of a refusal. -/
def leaves (r : Result) (p : State → Bool) : Bool :=
  match r with
  | .next s => p s
  | .fault _ => false
  | .refused _ => false

theorem leaves_next {r : Result} {p : State → Bool} (h : leaves r p = true) :
    ∃ t, r = .next t ∧ p t = true := by
  cases r with
  | next s => exact ⟨s, rfl, h⟩
  | fault f => cases h
  | refused f => cases h

/-- The staged table of counts `ns` for lengths 1, 2, … and symbols `syms`. -/
def staged (ns : List Byte) (syms : List Byte) : State :=
  { State.reset with
    hcount := ns.zipIdx.foldl (fun v p => v.setIfInBounds p.2 p.1) State.reset.hcount
    symbuf := syms.zipIdx.foldl (fun v p => v.setIfInBounds p.2 p.1) State.reset.symbuf
    symcnt := Fin.ofNat 257 syms.length }

/-- The tree of T3 (95_test_vectors.md): 0 → 0x0A, 10 → 0x0B, 11 → 0x0C. -/
def t3 : Node := .interior (.leaf 0x0A#8) (.interior (.leaf 0x0B#8) (.leaf 0x0C#8))

/-- The tree of PT (95_test_vectors.md): 00 → 7. -/
def pt : Node := .interior (.interior (.leaf 7#8) .empty) .empty

/-- The tree with the one code of d zeros, for 0x99 (vector B11 has d = 16). -/
def chain : Nat → Node
  | 0 => .leaf 0x99#8
  | d + 1 => .interior (chain d) .empty

/-- A live decoder bound to slot 0, which holds `root`, with `bits` to decode. -/
def decoding (root : Node) (bits : List Bool) : State :=
  { State.reset with tree := State.reset.tree.set 0 (some root), dbound := true, bitbuf := bits }

/-- The decoder in the middle of a code: one bit 1 of T3's codes is used up. The next word is DDEC 0. -/
def midCode : State := { decoding t3 [false] with cdepth := 1, cpath := 1#16, prog := [0x80000000#32] }

/-- The flat input 0, 1, …, 63. -/
def counting : State :=
  { State.reset with
    zin := (List.range 64).foldl (fun v k => v.setIfInBounds k (BitVec.ofNat 16 k)) State.reset.zin
    zcnt := 64 }

/-! ### Commands -/

/-- R101's example. -/
theorem test_hclr : leaves (exec .hclr (staged [0#8, 3#8] [1#8, 2#8, 3#8]))
    (fun t => decide (t.hcount[1] = 0#8 ∧ t.symcnt.val = 0 ∧ t.symbuf[2] = 3#8 ∧ t.ci = 1)) = true := by
  decide +kernel

/-- R102's example. -/
theorem test_hcnt : leaves (exec (.hcnt 1 3#8) State.reset)
    (fun t => decide (t.hcount[1] = 3#8 ∧ t.hcount[2] = 0#8 ∧ sumcnt t = 3)) = true := by decide +kernel

/-- R103's example. -/
theorem test_hsym : leaves (exec (.hsym 0x41#8) State.reset)
    (fun t => decide (t.symbuf[0] = 0x41#8 ∧ t.symcnt.val = 1)) = true := by decide

/-- B6's HSYM of 0xEE. -/
theorem test_hsym_full : leaves (exec (.hsym 0xEE#8) { State.reset with symcnt := 256 })
    (fun t => decide (t.hpoison = true ∧ t.symcnt.val = 256 ∧ errByte t = 0x13#8 ∧ t.errinfo = 0xEE#32)) = true := by
  decide

/-- R112's example: T3. -/
theorem test_hbuild : leaves (exec (.hbuild 0) (staged [1#8, 2#8] [0x0A#8, 0x0B#8, 0x0C#8]))
    (fun t => decide (t.tree[0] = some t3 ∧ t.symcnt.val = 0 ∧ t.out = [])) = true := by decide +kernel

/-- B4: one code too many at length 3. -/
theorem test_hbuild_no_slot :
    leaves (exec (.hbuild 0) (staged [0#8, 4#8, 1#8] [1#8, 2#8, 3#8, 4#8, 5#8]))
      (fun t => decide (t.tree[0] = none ∧ t.out = [.err .noSlot 0x00020405#32])) = true := by decide +kernel

/-- R131's example. -/
theorem test_dsel : leaves (exec (.dsel 5) midCode)
    (fun t => decide (t.dbound = true ∧ t.dslot = 5 ∧ t.cdepth.val = 0 ∧ t.bitbuf = [false])) = true := by decide

/-- R132: DRST 1 empties BITBUF, DRST 0 does not. -/
theorem test_drst : leaves (exec (.drst true) { midCode with ddead := true })
    (fun t => decide (t.ddead = false ∧ t.cdepth.val = 0 ∧ t.bitbuf = [])) = true ∧
    leaves (exec (.drst false) midCode) (fun t => decide (t.bitbuf = [false])) = true := by decide

/-- R133's example. -/
theorem test_dbyte : leaves (exec (.dbyte 0xA5#8) State.reset)
    (fun t => decide (t.bitbuf = [true, false, true, false, false, true, false, true] ∧ bitcnt t = 8)) = true := by
  decide

/-- D11's thirty-third byte. -/
theorem test_dbyte_full : leaves (exec (.dbyte 0x20#8) { State.reset with bitbuf := List.replicate 256 true })
    (fun t => decide (bitcnt t = 256 ∧ t.out = [.err .bitbufOverflow 0x00010020#32])) = true := by decide +kernel

/-- R135's example: 10, 0 and 11 from 10011000. -/
theorem test_ddec :
    leaves (exec (.ddec 3#8) (decoding t3 [true, false, false, true, true, false, false, false]))
      (fun t => decide (t.out = [.sym 0 0x0B#8, .sym 0 0x0A#8, .sym 0 0x0C#8] ∧
        t.bitbuf = [false, false, false] ∧ t.nemit = 3)) = true := by decide

/-- D7, in slot 0: bits 0, 1 against PT. -/
theorem test_ddec_incomplete :
    leaves (exec (.ddec 0#8) (decoding pt [false, true, false, false, false, false, false, false]))
      (fun t => decide (t.out = [.err .incompleteTree 0x00020001#32] ∧ t.ddead = true ∧ bitcnt t = 6)) = true := by
  decide

/-- R162's example. -/
theorem test_zclr : leaves (exec .zclr { State.reset with zcnt := 10, zpoison := true })
    (fun t => decide (t.zcnt.val = 0 ∧ t.zpoison = false)) = true := by decide

/-- R163's example. -/
theorem test_zpush : leaves (exec (.zpush 0x1234#16) State.reset)
    (fun t => decide (t.zin[0] = 0x1234#16 ∧ t.zcnt.val = 1)) = true := by decide

/-- Z2's sixty-fifth value. -/
theorem test_zpush_full : leaves (exec (.zpush 0x140#16) { State.reset with zcnt := 64 })
    (fun t => decide (t.zpoison = true ∧ t.out = [.err .zzOverflow 0x00000140#32])) = true := by decide

/-- Rows 0 and 1 of program P2's block. -/
theorem test_zrun : leaves (exec (.zrun 2) counting)
    (fun t => decide (t.qvalid[2] = true ∧ t.zcnt.val = 0 ∧
      (List.range 16).map (fun n => (t.qblk[2].toList[n]?.getD 0).toNat) =
        [0, 1, 5, 6, 14, 15, 27, 28, 2, 4, 7, 13, 16, 26, 29, 42])) = true := by decide +kernel

/-- Z1 and Z3. -/
theorem test_zrun_refused :
    leaves (exec (.zrun 1) State.reset) (fun t => decide (t.out = [.err .zzShort 0x01000000#32])) = true ∧
    leaves (exec (.zrun 3) { State.reset with zcnt := 64, zpoison := true })
      (fun t => decide (t.out = [.err .zzOverflow 0x03010000#32] ∧ t.zpoison = false)) = true := by decide

/-- R165's example, and Z7's k = 35. -/
theorem test_zmap : leaves (exec (.zmap 5) State.reset) (fun t => decide (t.zres = 2)) = true ∧
    leaves (exec (.zmap 35) State.reset) (fun t => decide (t.zres = 56)) = true := by decide

/-- R180's example. -/
theorem test_eclr : leaves (exec .eclr { State.reset with err := some .noSlot, errinfo := 0x203#32, hpoison := true })
    (fun t => decide (errByte t = 0#8 ∧ t.errinfo = 0#32 ∧ t.hpoison = true)) = true := by decide

/-- I2: an illegal word. -/
theorem test_illegal : leaves (step (State.reset.withFetchWord 32 0xD0000000))
    (fun t => decide (t.out = [.err .illegalCmd 0xD0000000#32] ∧ t.ci = 1)) = true := by decide

/-- A step runs the word at CI: HCNT 2, 3. -/
theorem test_step : leaves (step (State.reset.withFetchWord 32 0x20000103))
    (fun t => decide (t.hcount[1] = 3#8 ∧ t.ci = 1)) = true := by decide

/-- I9: ID, PARAM and a reserved address after reset. -/
theorem test_host_reads :
    readWord 0x009#10 State.reset = 0x48435401#32 ∧ readWord 0x00A#10 State.reset = 0x00000100#32 ∧
      readWord 0x00B#10 State.reset = 0#32 := by decide

/-- D5's cursor and B1b's status, as the host reads them. -/
theorem test_status_words :
    readWord 0x003#10 midCode = 0x00010108#32 ∧
      readWord 0x000#10 { State.reset with ddead := true, err := some .incompleteTree } = 0x00000131#32 := by decide

/-- DHT byte 0x11 is AC table 1, slot 5; 0x14 and 0x21 are refused (R84). -/
theorem test_slotOfDht : slotOfDht 0x11#8 = some 5 ∧ slotOfDht 0x14#8 = none ∧ slotOfDht 0x21#8 = none := by decide

/-! ### Witnesses: states and operands that meet the hypotheses of the statements, at the ends of ranges -/

/-- A state of the invariant that is not the reset state: T3 in slot 0, the cursor mid-code. -/
theorem midCode_inv : Inv midCode where
  index := by decide
  link := by decide
  poisoned := by decide
  trees := by
    intro t root h
    have all : ∀ t : Slot, midCode.tree[t] = if t = 0 then some t3 else none := by decide
    rw [all t] at h
    split at h
    · cases h; decide
    · cases h
  unbound := by decide
  path := by decide
  dead := by decide
  cursor := by
    intro root h _
    have : boundTree midCode = some t3 := by decide
    rw [this] at h
    cases h
    exact ⟨.leaf 0x0B#8, .leaf 0x0C#8, by decide⟩
  buffer := by decide
  emitted := by decide
  overloaded := by decide
  noError := by decide
  recorded := by intro c h; cases h

theorem witness_ResetGivesTheResetValues : ∃ s t, t = resetInput s ∨ t = State.reset := ⟨midCode, _, .inl rfl⟩

theorem witness_StepExecutesTheCurrentCommand :
    let s := State.reset.withFetchWord 32 0x20000103
    s.prog[s.ci]? = some 0x20000103#32 ∧ decode 0x20000103#32 = .ok (.hcnt 1 3#8) := by decide

theorem witness_IllegalWordOnlyRaises :
    let s := State.reset.withFetchWord 32 0
    s.prog[s.ci]? = some 0#32 ∧ decode 0#32 = .error .reservedOpcode := by decide

theorem witness_IdleKeepsAllState : State.reset.prog.length ≤ State.reset.ci := by decide

theorem witness_EachCommandAdvancesTheIndexByOne :
    let s := State.reset.withFetchWord 32 0xC0000005
    (s.prog[s.ci]? = some 0xC0000005#32 ∧ ∃ t, step s = .next t) ∧ specifiedRead 0x01F#10 s = true :=
  ⟨⟨by decide, _, rfl⟩, by decide⟩

/-- The hypothesis of every statement about what a command leaves, for a command that raises nothing, one
that raises an error, and one that raises two. -/
theorem witness_exec_next :
    (∃ t, exec (.zmap 5) State.reset = .next t ∧ t.out = []) ∧
    (∃ t, exec (.zrun 1) State.reset = .next t ∧ errorCount t.out = 1 ∧ t.err = some .zzShort) ∧
    (∃ t, exec (.hbuild 0) { midCode with hpoison := true } = .next t ∧ errorCount t.out = 2) := by
  refine ⟨⟨_, rfl, rfl⟩, ⟨_, rfl, by decide, by decide⟩, ?_⟩
  obtain ⟨t, h, h'⟩ := leaves_next (r := exec (.hbuild 0) { midCode with hpoison := true })
    (p := fun t => decide (errorCount t.out = 2)) (by decide +kernel)
  exact ⟨t, h, by simpa using h'⟩

/-- A command other than ECLR, over a clear record and over one that holds an error. -/
theorem witness_TheErrorRecordKeepsTheFirstError :
    (∃ t, exec (.zrun 1) State.reset = .next t ∧ State.reset.err = none) ∧
    ∃ s t, exec (.zrun 1) s = .next t ∧ s.err ≠ none :=
  ⟨⟨_, rfl, rfl⟩, { State.reset with err := some .noSlot }, _, rfl, by decide⟩

theorem witness_DecodedWordIsItsEncoding : decode 0x2000FFFF#32 ≠ .ok (.hcnt 15 255#8) ∧
    decode 0x20000FFF#32 = .ok (.hcnt 15 255#8) := by decide

theorem witness_IllegalExactlyWhenNoRowMatches :
    opcode 0x0FFFFFFF#32 = 0x0#4 ∧ opcode 0xD0000000#32 = 0xD#4 ∧ opcode 0xFFFFFFFF#32 = 0xF#4 ∧
      0x20000FFF#32 &&& (Instr.hcnt 0 0#8).maskWord = (Instr.hcnt 0 0#8).matchWord := by decide

theorem witness_BytesDeliverWholeWords :
    State.reset.link = [] ∧ State.reset.link.length < 3 ∧
      { State.reset with link := [0x20#8, 0x00#8] }.link.length < 3 ∧ [0x20#8, 0x00#8, 0x01#8].length < 4 ∧
      ([] : List Byte).length < 4 := by decide

theorem witness_SourceLinesAssemble : Source.wellFormed (.hcnt 17 0) = false := by decide

/-- Each range of R90 at its ends. -/
theorem witness_SourceLinesAssemble_ends :
    Source.wellFormed (.hcnt 1 0) = true ∧ Source.wellFormed (.hcnt 16 255) = true ∧
      Source.wellFormed (.hbuild (.num 7)) = true ∧ Source.wellFormed (.dsel (.dc 3)) = true ∧
      Source.wellFormed (.hbuild (.ac 3)) = true ∧ Source.wellFormed (.drst 1) = true ∧
      Source.wellFormed (.zpush 65535) = true ∧ Source.wellFormed (.zrun 3) = true ∧
      Source.wellFormed (.zmap 63) = true := by decide

theorem witness_PseudoInstructionsExpand :
    Source.wellFormed (.htable (.ac 3) (255 :: List.replicate 15 0) [0, 255]) = true ∧
      Source.wellFormed (.dfeed [0, 255]) = true ∧ Source.wellFormed (.zload (List.replicate 64 65535)) = true := by
  decide

/-- The last symbol that fits and the first that does not. -/
theorem witness_HsymAppendsOrPoisons :
    { State.reset with symcnt := 255 }.symcnt.val < 256 ∧ { State.reset with symcnt := 256 }.symcnt.val = 256 := by
  decide

theorem midCode_midCode : MidCode 0 midCode := ⟨by decide, by decide, by decide⟩

/-- The cursor mid-code at the greatest depth. -/
theorem witness_HbuildInvalidatesACursorMidCode : MidCode 0 midCode ∧ MidCode 0 { midCode with cdepth := 15 } :=
  ⟨midCode_midCode, by decide, by decide, by decide⟩

theorem notMidCode (t : Slot) {s : State} (h : s.cdepth.val = 0) : ¬ MidCode t s := fun m => by
  have := m.depth; omega

/-- A poisoned table; 257 codes, the least too many; and 2 codes for 1 symbol. -/
theorem witness_HbuildRefusesABadCodeLengthTable :
    (¬ MidCode 0 { State.reset with hpoison := true, symcnt := 256 } ∧
      { State.reset with hpoison := true, symcnt := 256 }.hpoison = true) ∧
    (¬ MidCode 0 (staged [255#8, 2#8] []) ∧ sumcnt (staged [255#8, 2#8] []) = 257) ∧
    (¬ MidCode 0 (staged [2#8] [7#8]) ∧ (staged [2#8] [7#8]).hpoison = false ∧ sumcnt (staged [2#8] [7#8]) ≤ 256 ∧
      (staged [2#8] [7#8]).symcnt.val ≠ sumcnt (staged [2#8] [7#8])) :=
  ⟨⟨notMidCode 0 (by decide), by decide⟩, ⟨notMidCode 0 (by decide), by decide +kernel⟩,
    notMidCode 0 (by decide), by decide, by decide +kernel, by decide +kernel⟩

/-- A full table, K = 65536 (T3), and the empty one, K = 0. -/
theorem witness_HbuildBuildsTheCanonicalCode :
    let s := staged [1#8, 2#8] [0x0A#8, 0x0B#8, 0x0C#8]
    ¬ MidCode 0 s ∧ Staged s ∧ kraftSum s.hcount = 65536 ∧ 2 < sumcnt s ∧ Staged State.reset ∧
      kraftSum State.reset.hcount ≤ 65536 :=
  ⟨notMidCode 0 (by decide), ⟨by decide, by decide +kernel, by decide +kernel⟩, by decide +kernel, by decide +kernel,
    ⟨by decide, by decide +kernel, by decide +kernel⟩, by decide +kernel⟩

/-- One code of length 16 too many: K = 65537. -/
theorem witness_HbuildSucceedsExactlyWithinKraft :
    let s := staged [2#8, 0#8, 0#8, 0#8, 0#8, 0#8, 0#8, 0#8, 0#8, 0#8, 0#8, 0#8, 0#8, 0#8, 0#8, 1#8] [1#8, 2#8, 3#8]
    ¬ MidCode 0 s ∧ Staged s ∧ kraftSum s.hcount = 65537 :=
  ⟨notMidCode 0 (by decide), ⟨by decide, by decide +kernel, by decide +kernel⟩, by decide +kernel⟩

/-- A slot other than the rebuilt one. -/
theorem witness_HbuildPublishesOrEmpties : (7 : Slot) ≠ 0 := by decide

/-- The HBUILD of T3 stores a tree, which has a leaf, an `Interior` below the root, and 3 symbols. -/
theorem witness_HbuildStoresAProperCode :
    ∃ u, exec (.hbuild 0) (staged [1#8, 2#8] [0x0A#8, 0x0B#8, 0x0C#8]) = .next u ∧ u.tree[(0 : Slot)] = some t3 ∧
      walk t3 [true] = some (.interior (.leaf 0x0B#8) (.leaf 0x0C#8)) ∧ walk t3 [false] = some (.leaf 0x0A#8) ∧
      2 < sumcnt (staged [1#8, 2#8] [0x0A#8, 0x0B#8, 0x0C#8]) := by
  obtain ⟨t, h, h'⟩ := leaves_next (r := exec (.hbuild 0) (staged [1#8, 2#8] [0x0A#8, 0x0B#8, 0x0C#8]))
    (p := fun t => decide (t.tree[(0 : Slot)] = some t3)) (by decide +kernel)
  exact ⟨t, h, by simpa using h', by decide, by decide, by decide +kernel⟩

theorem witness_StoredTreesFitTheStorageBound : storedTree (chain 16) = true ∧ interiorCount (chain 16) = 16 := by
  decide

/-- Sixteen bits that reach the leaf at depth 16, and sixteen that reach a missing child at depth 1. -/
theorem witness_WalksEndWithinSixteenBits :
    storedTree (chain 16) = true ∧ walk (chain 16) (List.replicate 16 false) = some (.leaf 0x99#8) ∧
      (List.replicate 16 true).length = 16 ∧ walk (chain 16) [true] = some .empty := by decide

theorem witness_DselBindsTheCursor : midCode.dbound = true ∧ midCode.dslot = 0 := by decide

/-- Exactly 8 bits of space, and 7. -/
theorem witness_DbyteAppendsOrDrops :
    bitcnt { State.reset with bitbuf := List.replicate 248 true } + 8 ≤ State.reset.cfg.bitcap ∧
      State.reset.cfg.bitcap < bitcnt { State.reset with bitbuf := List.replicate 249 true } + 8 := by
  decide +kernel

/-- A dead pass; no binding; a binding to an empty slot. -/
theorem witness_DdecRefusesADeadPassOrNoTable :
    { midCode with ddead := true }.ddead = true ∧ State.reset.ddead = false ∧ State.reset.dbound = false ∧
      { midCode with dslot := 7 }.ddead = false ∧ { midCode with dslot := 7 }.tree[(7 : Slot)] = none := by decide

theorem decoding_decoding (root : Node) (bits : List Bool) : Decoding root (decoding root bits) :=
  ⟨rfl, rfl, by simp [decoding, State.reset, State.resetAt]⟩

/-- Codes and rests that DDEC reads: the code of T3 begun before, with nothing left; a code of T3 and a code
begun (vector D5); a code of PT and a bit that selects `Empty` (vector D8); no code; the code of depth 16. -/
theorem witness_DdecEmitsTheSymbolsOfItsCodes :
    (Decoding t3 midCode ∧ storedTree t3 = true ∧ midCode.cpath.toNat < 2 ^ midCode.cdepth.val ∧
      cursorNode t3 midCode = some (.interior (.leaf 0x0B#8) (.leaf 0x0C#8)) ∧
      pathBits midCode.cpath.toNat midCode.cdepth.val ++ midCode.bitbuf = [true, false] ++ [] ∧
      walk t3 [true, false] = some (.leaf 0x0B#8) ∧ (1#8).toNat ≠ 0 ∧ (1#8).toNat = [([true, false], 0x0B#8)].length ∧
      [([true, false], 0x0B#8)].length < (255#8).toNat) ∧
    (walk t3 [] = some t3 ∧ [false, true] = [false] ++ [true] ∧ walk t3 [false] = some (.leaf 0x0A#8) ∧
      walk t3 [true] = some (.interior (.leaf 0x0B#8) (.leaf 0x0C#8))) ∧
    (Decoding pt (decoding pt [false, false, true, false]) ∧ storedTree pt = true ∧
      walk pt [false, false] = some (.leaf 7#8) ∧ walk pt ([] ++ [true]) = some .empty) ∧
    (storedTree (chain 16) = true ∧ walk (chain 16) (List.replicate 16 false) = some (.leaf 0x99#8) ∧
      walk (chain 16) (List.replicate 15 false) = some (.interior (.leaf 0x99#8) .empty) ∧
      walk (chain 16) (List.replicate 15 false ++ [true]) = some .empty) :=
  ⟨⟨⟨rfl, rfl, by decide⟩, by decide⟩, by decide, ⟨decoding_decoding _ _, by decide⟩, by decide⟩

/-- Fifteen bits that lead to the deepest `Interior` there can be, and no bits at all. -/
theorem witness_DdecKeepsAPartialCode :
    let s := decoding (chain 16) (List.replicate 15 false)
    s.cdepth.val + s.bitbuf.length < 16 ∧ Decoding (chain 16) s ∧ s.cpath.toNat < 2 ^ s.cdepth.val ∧
      walk (chain 16) (pathBits s.cpath.toNat s.cdepth.val ++ s.bitbuf) = some (.interior (.leaf 0x99#8) .empty) ∧
      walk (chain 16) [] = some (chain 16) :=
  ⟨by decide, decoding_decoding _ _, by decide, by decide, by decide⟩

/-- A missing child at depth 16, and one at depth 1. -/
theorem witness_DdecEndsAtAMissingChild :
    let q := List.replicate 15 false
    let s := decoding (chain 16) (q ++ [true])
    Decoding (chain 16) s ∧ s.cpath.toNat < 2 ^ s.cdepth.val ∧ s.cdepth.val + q.length < 16 ∧
      s.bitbuf = q ++ true :: [] ∧ walk (chain 16) (pathBits s.cpath.toNat s.cdepth.val ++ q ++ [true]) = some .empty ∧
      walk (chain 16) ([] ++ [true]) = some .empty :=
  ⟨decoding_decoding _ _, by decide, by decide, by decide, by decide, by decide⟩

/-- The code 11 of T3, split between two drains (vector D6). -/
theorem witness_SplitBitsDecodeAsIfTogether :
    Decoding t3 (decoding t3 []) ∧
      ∃ t1, exec (.ddec 0#8) { decoding t3 [] with bitbuf := [true] } = .next t1 ∧ t1.ddead = false ∧
        ∃ t2, exec (.ddec 0#8) { t1 with bitbuf := [true] } = .next t2 :=
  ⟨decoding_decoding _ _, _, rfl, rfl, _, rfl⟩

/-- T3 built into slot 0; the decoder of another state, whose slot 0 holds that tree, reads the codes of
symbols 1 and 0 and keeps a bit. -/
theorem witness_BuiltTableRoundTrip :
    let s := staged [1#8, 2#8] [0x0A#8, 0x0B#8, 0x0C#8]
    let v := decoding t3 [true, false, false, true]
    ¬ MidCode 0 s ∧ Staged s ∧
      (∃ u, exec (.hbuild 0) s = .next u ∧ u.tree[(0 : Slot)].isSome = true ∧ v.tree[(0 : Slot)] = u.tree[(0 : Slot)]) ∧
      v.dbound = true ∧ v.dslot = 0 ∧ v.ddead = false ∧ v.cdepth.val = 0 ∧
      ([1, 0] : List (Fin 256)).map (fun k => canonicalCode s.hcount k.val) = [[true, false], [false]].map some ∧
      (2#8).toNat = ([1, 0] : List (Fin 256)).length ∧ v.bitbuf = [[true, false], [false]].flatten ++ [true] := by
  refine ⟨notMidCode 0 (by decide), ⟨by decide, by decide +kernel, by decide +kernel⟩, ?_, by decide, by decide,
    by decide, by decide, by decide +kernel, by decide, by decide⟩
  obtain ⟨t, h, h'⟩ := leaves_next (r := exec (.hbuild 0) (staged [1#8, 2#8] [0x0A#8, 0x0B#8, 0x0C#8]))
    (p := fun t => decide (t.tree[(0 : Slot)] = some t3)) (by decide +kernel)
  have h' : t.tree[(0 : Slot)] = some t3 := by simpa using h'
  exact ⟨t, h, by rw [h']; rfl, by rw [h']; decide⟩

theorem reset_tree : ∀ t : Slot, State.reset.tree[t] = none := by decide

/-- The small decoders are states of the invariant. -/
theorem decoding_inv {root : Node} (hr : storedTree root = true) {bits : List Bool} (hb : bits.length ≤ 256) :
    Inv (decoding root bits) where
  index := Nat.le_refl _
  link := Nat.zero_lt_succ 3
  poisoned := by intro h; cases h
  trees := by
    intro t root' h
    have h' : (State.reset.tree.set 0 (some root))[t] = some root' := h
    rcases eq_or_ne t 0 with rfl | ht
    · cases h'; exact hr
    · have h0 : t.val ≠ 0 := fun e => ht (Fin.ext e)
      rw [Fin.getElem_fin, Vector.getElem_set_ne _ _ (Ne.symm h0), ← Fin.getElem_fin, reset_tree] at h'
      cases h'
  unbound := by intro h; cases h
  path := Nat.one_pos
  dead := by intro h; cases h
  cursor := by
    intro root' h _
    have h' : some root = some root' := h
    cases h'
    obtain ⟨a, b, rfl, -⟩ := storedTree_interior hr
    exact ⟨a, b, rfl⟩
  buffer := hb
  emitted := Nat.zero_le _
  overloaded := by intro h; cases h
  noError := by intro _; rfl
  recorded := by intro c h; cases h

/-- A code begun before and completed, and a pass that a missing child ends after a symbol (vector D8). -/
theorem witness_DdecCompletesAndStopsForAReason :
    (Inv midCode ∧ boundTree midCode = some t3 ∧ midCode.ddead = false) ∧
    (Inv (decoding pt [false, false, true]) ∧
      leaves (exec (.ddec 0#8) (decoding pt [false, false, true])) (fun t => decide (t.ddead = true ∧
        t.out = [.sym 0 7#8, .err .incompleteTree 0x00010001#32])) = true) :=
  ⟨⟨midCode_inv, by decide, rfl⟩, decoding_inv (by decide) (by decide), by decide⟩

/-- The diagonals on both sides of the middle, and a step along an even and along an odd one. -/
theorem witness_ZigZagDiagonals :
    (zz 28).val / 8 + (zz 28).val % 8 = 7 ∧ (zz 36).val / 8 + (zz 36).val % 8 = 8 ∧
      (zz 63).val / 8 + (zz 63).val % 8 = 14 ∧ (zz 4).val / 8 + (zz 4).val % 8 = 2 ∧
      (zz 3).val / 8 + (zz 3).val % 8 = 2 ∧ (zz 1).val / 8 + (zz 1).val % 8 = 1 ∧
      (zz 2).val / 8 + (zz 2).val % 8 = 1 := by decide

/-- The last value that fits and the first that does not. -/
theorem witness_ZpushAppendsOrPoisons :
    { State.reset with zcnt := 63 }.zcnt.val < 64 ∧ { State.reset with zcnt := 64 }.zcnt.val = 64 := by decide

/-- A full input; one value short of it; a poisoned one. -/
theorem witness_ZrunPlacesOrRefuses :
    (counting.zpoison = false ∧ counting.zcnt.val = 64) ∧ { State.reset with zcnt := 63 }.zcnt.val < 64 ∧
      { counting with zpoison := true }.zpoison = true := by decide

theorem witness_ZrunOfTheCountingSequence :
    counting.zpoison = false ∧ counting.zcnt.val = 64 ∧ (∀ k : Fin 64, counting.zin[k] = BitVec.ofNat 16 k.val) ∧
      ∃ t, exec (.zrun 2) counting = .next t :=
  ⟨by decide, by decide, by decide +kernel, _, rfl⟩

theorem witness_RaiseRecordsTheFirstError :
    State.reset.err = none ∧ { State.reset with err := some .noSlot }.err ≠ none := by decide

/-- The ends of the numbers the information words hold. -/
theorem witness_InformationWordFields :
    infoTotal 7 true 4080 = 0x07001FF0#32 ∧ infoMismatch 7 4080 256 = 0x07FF0100#32 ∧
      infoNoSlot 7 1 0 0x41#8 = 0x07000041#32 ∧ infoNoSlot 7 16 255 0x41#8 = 0x070FFF41#32 ∧
      infoIncomplete 7 16 0xFFFF#16 = 0x0710FFFF#32 ∧ infoBitbuf 65528 0xFF#8 = 0x00FFF8FF#32 := by decide

/-- For each clause of EveryElementHasItsWriters a command that changes its element: the builder's. -/
theorem witness_EveryElementHasItsWriters_builder :
    leaves (exec (.hcnt 0 1#8) State.reset) (fun t => decide (t.hcount ≠ State.reset.hcount)) = true ∧
      leaves (exec (.hsym 1#8) State.reset)
        (fun t => decide (t.symbuf ≠ State.reset.symbuf ∧ t.symcnt ≠ State.reset.symcnt)) = true ∧
      leaves (exec (.hsym 1#8) { State.reset with symcnt := 256 })
        (fun t => decide (t.hpoison ≠ State.reset.hpoison)) = true ∧
      leaves (exec .hclr { State.reset with hpoison := true }) (fun t => decide (t.hpoison ≠ true)) = true ∧
      leaves (exec (.hbuild 0) State.reset) (fun t => decide (t.tree ≠ State.reset.tree)) = true := by decide +kernel

/-- The same for the decoder's elements. -/
theorem witness_EveryElementHasItsWriters_decoder :
    leaves (exec (.dsel 5) midCode) (fun t => decide ((t.dbound, t.dslot) ≠ (midCode.dbound, midCode.dslot) ∧
        (t.cdepth, t.cpath) ≠ (midCode.cdepth, midCode.cpath))) = true ∧
      leaves (exec (.hbuild 0) midCode) (fun t => decide (t.ddead ≠ midCode.ddead)) = true ∧
      leaves (exec (.drst false) { midCode with ddead := true }) (fun t => decide (t.ddead ≠ true)) = true ∧
      leaves (exec (.dbyte 0#8) midCode) (fun t => decide (t.bitbuf ≠ midCode.bitbuf)) = true ∧
      leaves (exec (.ddec 0#8) midCode) (fun t => decide ((t.symout, t.nemit) ≠ (midCode.symout, midCode.nemit) ∧
        t.symv ≠ midCode.symv ∧ t.dstarved ≠ midCode.dstarved)) = true ∧
      leaves (exec (.drst false) { midCode with dstarved := true }) (fun t => decide (t.dstarved ≠ true)) = true := by
  decide +kernel

/-- The same for the zig-zag reorder, the error record and OUT. -/
theorem witness_EveryElementHasItsWriters_rest :
    leaves (exec (.zpush 1#16) State.reset)
        (fun t => decide (t.zin ≠ State.reset.zin ∧ t.zcnt ≠ State.reset.zcnt)) = true ∧
      leaves (exec (.zpush 1#16) counting) (fun t => decide (t.zpoison ≠ counting.zpoison)) = true ∧
      leaves (exec .zclr { counting with zpoison := true }) (fun t => decide (t.zpoison ≠ true)) = true ∧
      leaves (exec (.zrun 3) counting)
        (fun t => decide ((t.qblk, t.qvalid) ≠ (counting.qblk, counting.qvalid))) = true ∧
      leaves (exec (.zmap 1) State.reset) (fun t => decide (t.zres ≠ State.reset.zres)) = true ∧
      leaves (exec .eclr { State.reset with err := some .noSlot }) (fun t => decide (t.err ≠ some .noSlot)) = true ∧
      leaves (exec (.zrun 3) State.reset)
        (fun t => decide ((t.err, t.errinfo) ≠ (State.reset.err, State.reset.errinfo))) = true ∧
      leaves (exec (.ddec 0#8) midCode) (fun t => decide (.sym 0 0x0B#8 ∈ t.out)) = true := by decide +kernel

theorem witness_DecodeOnLeafIsNeverRaised :
    (Inv midCode ∧ ∃ t, step midCode = .next t) ∧
      ∃ t, runOf [0x50000000#32, 0x80000000#32] (State.resetAt .hct1) = .next t :=
  ⟨⟨midCode_inv, _, rfl⟩, _, rfl⟩

/-- A specified entry at the end of each window, and a register. -/
theorem witness_HostReadsHaveNoSideEffect :
    specifiedRead 0x07F#10 counting = true ∧ specifiedRead 0x1FF#10 { State.reset with symcnt := 256 } = true ∧
      specifiedRead 0x2FF#10 { State.reset with qvalid := Vector.replicate 4 true } = true ∧
      specifiedRead 0x000#10 State.reset = true ∧ specifiedRead 0x200#10 State.reset = false := by decide

theorem witness_RegisterMapFields : Inv midCode ∧ 1 ≤ (0x001#10).toNat ∧ (0x008#10).toNat ≤ 8 :=
  ⟨midCode_inv, by decide, by decide⟩

/-- The last specified entry of each window, and the last address of each. -/
theorem witness_ArrayWindows :
    (63 : Fin 64).val < counting.zcnt.val ∧ (254 : Fin 256).val < { State.reset with symcnt := 255 }.symcnt.val ∧
      { State.reset with qvalid := Vector.replicate 4 true }.qvalid[(3 : QSlot)] = true ∧
      BitVec.ofNat 10 (0x010 + 15) = 0x01F#10 ∧ BitVec.ofNat 10 (0x040 + 63) = 0x07F#10 ∧
      BitVec.ofNat 10 (0x100 + 255) = 0x1FF#10 ∧ BitVec.ofNat 10 (0x200 + 64 * 3 + 63) = 0x2FF#10 := by decide

/-- The ends of each reserved range. -/
theorem witness_ReservedAddressesReadZero :
    ∀ a ∈ [0x00B#10, 0x00F#10, 0x020#10, 0x03F#10, 0x080#10, 0x0FF#10, 0x300#10, 0x3FF#10],
      (0x00B ≤ a.toNat ∧ a.toNat < 0x010) ∨ (0x020 ≤ a.toNat ∧ a.toNat < 0x040) ∨
        (0x080 ≤ a.toNat ∧ a.toNat < 0x100) ∨ 0x300 ≤ a.toNat := by decide

theorem witness_EveryStepKeepsTheInvariant : Inv midCode ∧ ∃ t, step midCode = .next t := ⟨midCode_inv, _, rfl⟩

theorem witness_NoStepStopsTheMachine : Inv midCode := midCode_inv

theorem witness_EveryRunCompletes : Inv midCode := midCode_inv

end Sys2Proof.Tests
end

section
/-! Reset (R47, R240, R241). The reset input and the first state differ from `State.resetAt` only in the
parameters and in the model's own draw counter, so what holds of every such state holds of both. -/

namespace Sys2Proof.Machine

theorem tvalid_eq_false_iff (s : State) (k : Slot) : tvalid s k = false ↔ s.tree[k] = none :=
  Option.isSome_eq_false_iff.trans Option.isNone_iff_eq_none

/-! ### The registers that outlast the reset input (R47) -/

@[simp] theorem readWord_id (s : State) : readWord 0x009#10 s = Config.idWord := rfl

@[simp] theorem readWord_param (s : State) : readWord 0x00A#10 s = s.cfg.paramWord := rfl

@[simp] theorem resetInput_cfg (s : State) : (resetInput s).cfg = s.cfg := rfl

/-! ### The arrays that R240 gives a value -/

theorem resetAt_hcount_getElem (c : Config) (i : Fin 16) : (State.resetAt c).hcount[i] = 0#8 :=
  Vector.getElem_replicate i.isLt

theorem resetAt_tree_getElem (c : Config) (k : Slot) : (State.resetAt c).tree[k] = none :=
  Vector.getElem_replicate k.isLt

theorem resetAt_qvalid_getElem (c : Config) (q : QSlot) : (State.resetAt c).qvalid[q] = false :=
  Vector.getElem_replicate q.isLt

/-- Every state that reset can leave is the reset state of some parameters, whatever its draw counter. -/
theorem exists_resetAt_of_reset {s t : State} (h : t = resetInput s ∨ t = State.reset) :
    ∃ c d, t = { State.resetAt c with draws := d } := by
  rcases h with rfl | rfl
  · exact ⟨s.cfg, s.draws + 1, rfl⟩
  · exact ⟨Config.hct1, 0, rfl⟩

/-- Settles O1: the states after reset are those of `State.resetAt`, whose scalar elements are R240's by
definition and whose arrays are constant; ID and PARAM depend on the parameters alone. -/
theorem resetGivesTheResetValues : Obligations.ResetGivesTheResetValues := by
  refine ⟨rfl, fun s t h => ?_⟩
  obtain ⟨c, d, rfl⟩ := exists_resetAt_of_reset h
  have hslots (k : Slot) : (State.resetAt c).tree[k] = none ∧ tvalid (State.resetAt c) k = false :=
    ⟨resetAt_tree_getElem c k, (tvalid_eq_false_iff _ k).2 (resetAt_tree_getElem c k)⟩
  exact ⟨rfl, resetAt_hcount_getElem c, rfl, rfl, hslots, rfl, rfl, rfl, rfl, rfl, rfl, rfl, rfl, rfl, rfl,
    rfl, rfl, rfl, resetAt_qvalid_getElem c, rfl, rfl, rfl, rfl, rfl, by simp, by simp⟩

end Sys2Proof.Machine
end

section
/-! What one command leaves (R20, R21). `CommandEffect` lists, command by command, the states a command can leave
before CI advances; every statement about all commands is taken apart along it. -/

namespace Sys2Proof.Machine

/-- The state s as HBUILD t finds it once a cursor mid-code in slot t is invalidated (R112 step 1). -/
inductive Invalidated (t : Slot) (s : State) : State → Prop
  | idle (h : ¬ MidCode t s) : Invalidated t s s
  | midCode (h : MidCode t s) : Invalidated t s (cursorInvalidated t s)

/-- The state s with the elements DDEC may write taken from u. -/
def decoded (s u : State) : State :=
  { s with
    bitbuf := u.bitbuf
    symout := u.symout
    symv := u.symv
    nemit := u.nemit
    dstarved := u.dstarved
    ddead := u.ddead
    cdepth := u.cdepth
    cpath := u.cpath
    out := u.out
    err := u.err
    errinfo := u.errinfo }

/-- What the loop of a DDEC does (R135). -/
theorem ddec_loopEffect {n : Byte} {s u : State} {root : Node}
    (hl : ddecLoop root n.toNat (bitcnt s) (beginDecode s) = .next u) :
    LoopEffect root n.toNat (beginDecode s) u :=
  ddecLoop_effect (le_refl s.bitbuf.length) hl

theorem ddecLoop_eq_decoded {n : Byte} {s u : State} {root : Node}
    (hl : ddecLoop root n.toNat (bitcnt s) (beginDecode s) = .next u) : u = decoded s u :=
  (ddec_loopEffect hl).frame

/-- `CommandEffect i s u`: in the state s the command i can leave u, before CI advances. Which error an HBUILD or a
ZRUN refuses with is left open; every other effect is one state. -/
inductive CommandEffect : Instr → State → State → Prop
  | hclr (s : State) : CommandEffect .hclr s (clearStaging s)
  | hcnt (l4 : Fin 16) (n : Byte) (s : State) : CommandEffect (.hcnt l4 n) s (setCount l4 n s)
  | hsymPushed (v : Byte) (s : State) (h : s.symcnt.val < 256) : CommandEffect (.hsym v) s (pushSymbol v s h)
  | hsymDropped (v : Byte) (s : State) (h : s.symcnt.val = 256) :
      CommandEffect (.hsym v) s (raise .symbufOverflow (infoSymbuf v) { s with hpoison := true })
  | hbuildStored {t : Slot} {s u : State} {root : Node} (hu : Invalidated t s u)
      (h : buildOutcome t u = .ok root) :
      CommandEffect (.hbuild t) s (clearStaging (storeTree t (some root) u))
  | hbuildEmptied {t : Slot} {s u : State} (hu : Invalidated t s u) (code : ErrCode) (info : Word) :
      CommandEffect (.hbuild t) s (clearStaging (storeTree t none (raise code info u)))
  | dsel (t : Slot) (s : State) : CommandEffect (.dsel t) s (restartPass { s with dbound := true, dslot := t })
  | drst (f : Bool) (s : State) :
      CommandEffect (.drst f) s { restartPass s with bitbuf := if f then [] else s.bitbuf }
  | dbyteAppended (b : Byte) (s : State) (h : bitcnt s + 8 ≤ s.cfg.bitcap) :
      CommandEffect (.dbyte b) s (appendByte b s)
  | dbyteDropped (b : Byte) (s : State) :
      CommandEffect (.dbyte b) s (raise .bitbufOverflow (infoBitbuf (bitcnt s) b) s)
  | ddecDead (n : Byte) (s : State) (h : s.ddead = true) :
      CommandEffect (.ddec n) s (raise .passDead (infoDead s.dslot) (beginDecode s))
  | ddecNoTable (n : Byte) (s : State) (hd : s.ddead = false) (h : boundTree s = none) :
      CommandEffect (.ddec n) s (raise .noTable (infoNoTable s.dslot s.dbound) (beginDecode s))
  | ddecDecoded {n : Byte} {s u : State} {root : Node} (h : Decoding root s)
      (hl : ddecLoop root n.toNat (bitcnt s) (beginDecode s) = .next u) : CommandEffect (.ddec n) s (decoded s u)
  | zclr (s : State) : CommandEffect .zclr s (clearInput s)
  | zpushPushed (v : Elem) (s : State) (h : s.zcnt.val < 64) : CommandEffect (.zpush v) s (pushValue v s h)
  | zpushDropped (v : Elem) (s : State) (h : s.zcnt.val = 64) :
      CommandEffect (.zpush v) s (raise .zzOverflow (infoPush v) { s with zpoison := true })
  | zrunRefused (q : QSlot) (s : State) (code : ErrCode) (info : Word) :
      CommandEffect (.zrun q) s (clearInput (invalidateBlock q (raise code info s)))
  | zrunPlaced (q : QSlot) (s : State) :
      CommandEffect (.zrun q) s (clearInput (storeBlock q (placeBlock s.zin s.qblk[q]) s))
  | zmap (k : Fin 64) (s : State) : CommandEffect (.zmap k) s { s with zres := zz k }
  | eclr (s : State) : CommandEffect .eclr s (clearRecord s)

/-- DDEC apart, every command completes with one of its effects. -/
theorem exec_effect_of_ne_ddec {i : Instr} (hi : ∀ n, i ≠ .ddec n) (s : State) :
    ∃ u, exec i s = .next (advance u) ∧ CommandEffect i s u := by
  cases i with
  | hclr => exact ⟨_, rfl, .hclr s⟩
  | hcnt l4 n => exact ⟨_, rfl, .hcnt l4 n s⟩
  | hsym v =>
    rcases execHsym_cases v s with ⟨h, e⟩ | ⟨h, e⟩
    · exact ⟨_, e, .hsymPushed v s h⟩
    · exact ⟨_, e, .hsymDropped v s h⟩
  | hbuild t =>
    obtain ⟨u, hu, ho⟩ := execHbuild_cases t s
    have hu : Invalidated t s u := by
      rcases hu with ⟨rfl, h⟩ | ⟨rfl, h⟩
      · exact .idle h
      · exact .midCode h
    rcases ho with ⟨root, h, e⟩ | ⟨code, info, -, -, e⟩
    · exact ⟨_, e, .hbuildStored hu h⟩
    · exact ⟨_, e, .hbuildEmptied hu code info⟩
  | dsel t => exact ⟨_, rfl, .dsel t s⟩
  | drst f => exact ⟨_, rfl, .drst f s⟩
  | dbyte b =>
    rcases execDbyte_cases b s with ⟨h, e⟩ | ⟨-, e⟩
    · exact ⟨_, e, .dbyteAppended b s h⟩
    · exact ⟨_, e, .dbyteDropped b s⟩
  | ddec n => exact absurd rfl (hi n)
  | zclr => exact ⟨_, rfl, .zclr s⟩
  | zpush v =>
    rcases execZpush_cases v s with ⟨h, e⟩ | ⟨h, e⟩
    · exact ⟨_, e, .zpushPushed v s h⟩
    · exact ⟨_, e, .zpushDropped v s h⟩
  | zrun q =>
    rcases execZrun_cases q s with ⟨-, e⟩ | ⟨-, -, e⟩ | ⟨-, -, e⟩
    · exact ⟨_, e, .zrunRefused q s _ _⟩
    · exact ⟨_, e, .zrunRefused q s _ _⟩
    · exact ⟨_, e, .zrunPlaced q s⟩
  | zmap k => exact ⟨_, rfl, .zmap k s⟩
  | eclr => exact ⟨_, rfl, .eclr s⟩

/-- A command that answers a next state has left one of its effects, and CI has advanced. -/
theorem exec_effect {i : Instr} {s t : State} (h : exec i s = .next t) :
    ∃ u, CommandEffect i s u ∧ t = advance u := by
  by_cases hi : ∃ n, i = .ddec n
  · obtain ⟨n, rfl⟩ := hi
    rcases execDdec_next h with ⟨hd, rfl⟩ | ⟨hd, hb, rfl⟩ | ⟨root, u, hr, hl, rfl⟩
    · exact ⟨_, .ddecDead n s hd, rfl⟩
    · exact ⟨_, .ddecNoTable n s hd hb, rfl⟩
    · exact ⟨_, .ddecDecoded hr hl, congrArg advance (ddecLoop_eq_decoded hl)⟩
  · obtain ⟨u, e, hu⟩ := exec_effect_of_ne_ddec (fun n hn => hi ⟨n, hn⟩) s
    rw [h] at e
    cases e
    exact ⟨u, hu, rfl⟩

/-! ### What no command writes -/

/-- CI advances when the command completes; the other fields here are no command's to write. -/
theorem CommandEffect.machine_eq {i : Instr} {s u : State} (h : CommandEffect i s u) :
    u.cfg = s.cfg ∧ u.prog = s.prog ∧ u.ci = s.ci ∧ u.link = s.link ∧ u.draws = s.draws := by
  cases h with
  | hbuildStored hu _ => cases hu <;> simp [cursorInvalidated]
  | hbuildEmptied hu _ _ => cases hu <;> simp [cursorInvalidated]
  | _ => exact ⟨rfl, rfl, rfl, rfl, rfl⟩

/-- Settles O7: the parameters, the link bytes and the draw counter are among what no command writes, and ID and
PARAM read nothing else. -/
theorem noCommandChangesTheConfiguration : Obligations.NoCommandChangesTheConfiguration := by
  intro i s t h
  obtain ⟨u, hu, rfl⟩ := exec_effect h
  obtain ⟨hcfg, -, -, hlink, hdraws⟩ := hu.machine_eq
  exact ⟨hcfg, hlink, hdraws, by simp, by simp [hcfg]⟩

/-- Settles O3: the step finds the word and decodes it. -/
theorem stepExecutesTheCurrentCommand : Obligations.StepExecutesTheCurrentCommand := by
  intro s w i hw hd
  simp [step, currentWord, hw, hd]

/-- Settles O5: past the program there is no word to execute. -/
theorem idleKeepsAllState : Obligations.IdleKeepsAllState := by
  intro s h
  simp [step, currentWord, h]

end Sys2Proof.Machine
end

section
/-! The events a command appends to OUT, and the error record they leave (R41, R49, R205). -/

namespace Sys2Proof.Machine

/-! ### The first error among some events -/

theorem firstError_append (xs ys : List Event) : firstError (xs ++ ys) = (firstError xs).or (firstError ys) := by
  induction xs with
  | nil => rfl
  | cons e xs ih => cases e <;> simp [firstError, ih]

theorem firstError_map_sym {α : Type} (k : Slot) (f : α → Byte) (xs : List α) :
    firstError (xs.map (fun x => .sym k (f x))) = none := by
  induction xs with
  | nil => rfl
  | cons x xs ih => exact ih

theorem mem_of_firstError {evs : List Event} {code : ErrCode} {info : Word}
    (h : firstError evs = some (code, info)) : .err code info ∈ evs := by
  induction evs with
  | nil => cases h
  | cons e evs ih =>
    cases e with
    | sym k v => exact List.mem_cons_of_mem _ (ih h)
    | err c i => cases h; exact List.mem_cons_self

/-! ### Events with the record they leave -/

/-- The events `evs` lead from s to u: they are appended to OUT, and the record of u is the old one if it held an
error, else the first error among them, if any (R205). -/
structure Reports (s : State) (evs : List Event) (u : State) : Prop where
  out : u.out = s.out ++ evs
  kept : s.err ≠ none ∨ firstError evs = none → u.err = s.err ∧ u.errinfo = s.errinfo
  taken : s.err = none → ∀ code info, firstError evs = some (code, info) → u.err = some code ∧ u.errinfo = info

theorem reports_nil {s u : State} (ho : u.out = s.out) (he : u.err = s.err) (hi : u.errinfo = s.errinfo) :
    Reports s [] u :=
  ⟨by simp [ho], fun _ => ⟨he, hi⟩, nofun⟩

theorem reports_raise (code : ErrCode) (info : Word) (s : State) :
    Reports s [.err code info] (raise code info s) := by
  refine ⟨rfl, fun h => ?_, fun h c i hf => ?_⟩
  · have h : s.err ≠ none := h.resolve_right nofun
    simp [h]
  · cases hf
    simp [h]

/-- Reports follow one another: the record holds the first error of both. -/
theorem Reports.trans {s u t : State} {xs ys : List Event} (h : Reports s xs u) (h' : Reports u ys t) :
    Reports s (xs ++ ys) t := by
  refine ⟨by rw [h'.out, h.out, List.append_assoc], fun hk => ?_, fun hs code info hf => ?_⟩
  · rw [firstError_append, Option.or_eq_none_iff] at hk
    obtain ⟨he, hi⟩ := h.kept (hk.imp_right And.left)
    obtain ⟨he', hi'⟩ := h'.kept (hk.imp (fun hs => he ▸ hs) And.right)
    exact ⟨he'.trans he, hi'.trans hi⟩
  · rw [firstError_append] at hf
    rcases hx : firstError xs with _ | ⟨c, i⟩
    · obtain ⟨he, -⟩ := h.kept (.inr hx)
      exact h'.taken (he.trans hs) code info (by simpa [hx] using hf)
    · obtain ⟨he, hi⟩ := h.taken hs c i hx
      obtain ⟨he', hi'⟩ := h'.kept (.inl (by simp [he]))
      have hci : c = code ∧ i = info := by simpa [hx] using hf
      exact ⟨he'.trans (hci.1 ▸ he), hi'.trans (hci.2 ▸ hi)⟩

/-- What is done to OUT and the record alone decides a report. -/
theorem Reports.congr {s s' u u' : State} {evs : List Event} (h : Reports s evs u)
    (hs : (s'.out, s'.err, s'.errinfo) = (s.out, s.err, s.errinfo))
    (hu : (u'.out, u'.err, u'.errinfo) = (u.out, u.err, u.errinfo)) : Reports s' evs u' := by
  simp only [Prod.mk.injEq] at hs hu
  obtain ⟨hs1, hs2, hs3⟩ := hs
  obtain ⟨hu1, hu2, hu3⟩ := hu
  obtain ⟨ho, hk, ht⟩ := h
  constructor <;> simpa only [hs1, hs2, hs3, hu1, hu2, hu3]

theorem reports_invalidated {t : Slot} {s u : State} (h : Invalidated t s u) :
    ∃ evs, Reports s evs u ∧ ∀ k v, .sym k v ∉ evs := by
  cases h with
  | idle _ => exact ⟨[], reports_nil rfl rfl rfl, by simp⟩
  | midCode _ => exact ⟨_, (reports_raise .cursorInvalidated (infoCursor t s.cdepth s.cpath) s).congr rfl rfl, by simp⟩

theorem LoopEffect.reports {root : Node} {n : Nat} {s u : State} (h : LoopEffect root n s u) :
    ∃ evs, Reports s evs u := by
  obtain ⟨_, codes, _, errs, -, -, -, -, ho, -, -, -, hr⟩ := h.consumed
  refine ⟨codes.map (fun c => .sym s.dslot c.2) ++ errs, ?_⟩
  have hf : firstError (codes.map (fun c => .sym s.dslot c.2) ++ errs) = firstError errs := by
    rw [firstError_append, firstError_map_sym, Option.none_or]
  constructor
  · rw [ho, List.append_assoc]
  · rw [hf]
    rcases hr with ⟨-, he, hi, -⟩ | ⟨code, info, rfl, -, -, -, he, hi⟩
    · exact fun _ => ⟨he, hi⟩
    · intro hs
      have hs : s.err ≠ none := hs.resolve_right nofun
      simp [he, hi, hs]
  · rw [hf]
    rcases hr with ⟨rfl, -⟩ | ⟨code, info, rfl, -, -, -, he, hi⟩
    · exact fun _ => nofun
    · intro hs c i hc
      cases hc
      simp [he, hi, hs]

/-- ECLR apart, a command reports what it appends to OUT, and symbols are DDEC's alone. -/
theorem CommandEffect.reports {i : Instr} {s u : State} (h : CommandEffect i s u) (hi : i ≠ .eclr) :
    ∃ evs, Reports s evs u ∧ ∀ k v, .sym k v ∈ evs → ∃ n, i = .ddec n := by
  have quiet (hu : (u.out, u.err, u.errinfo) = (s.out, s.err, s.errinfo)) :
      ∃ evs, Reports s evs u ∧ ∀ k v, .sym k v ∈ evs → ∃ n, i = .ddec n :=
    ⟨[], (reports_nil rfl rfl rfl).congr rfl hu, by simp⟩
  have raised {code info} (hu : (u.out, u.err, u.errinfo) =
      ((raise code info s).out, (raise code info s).err, (raise code info s).errinfo)) :
      ∃ evs, Reports s evs u ∧ ∀ k v, .sym k v ∈ evs → ∃ n, i = .ddec n :=
    ⟨_, (reports_raise code info s).congr rfl hu, by simp⟩
  cases h with
  | hsymDropped | dbyteDropped | ddecDead | ddecNoTable | zpushDropped | zrunRefused => exact raised rfl
  | hbuildStored hu _ =>
    obtain ⟨evs, hr, hs⟩ := reports_invalidated hu
    exact ⟨evs, hr.congr rfl rfl, fun k v hm => absurd hm (hs k v)⟩
  | hbuildEmptied hu code info =>
    obtain ⟨evs, hr, hs⟩ := reports_invalidated hu
    exact ⟨_, (hr.trans (reports_raise code info _)).congr rfl rfl, fun k v hm => absurd hm (by simp [hs])⟩
  | @ddecDecoded n _ v _ _ hl =>
    obtain ⟨evs, hr⟩ := (ddec_loopEffect hl).reports
    exact ⟨evs, hr.congr rfl rfl, fun _ _ _ => ⟨n, rfl⟩⟩
  | eclr => exact absurd rfl hi
  | _ => exact quiet rfl

/-- Settles O46: ECLR leaves OUT alone, and any other command's report says what becomes of the record. -/
theorem theErrorRecordKeepsTheFirstError : Obligations.TheErrorRecordKeepsTheFirstError := by
  intro i s t h
  obtain ⟨u, hu, rfl⟩ := exec_effect h
  by_cases hi : i = .eclr
  · subst hi
    cases hu
    exact ⟨[], by simp, nofun⟩
  · obtain ⟨evs, hr, -⟩ := hu.reports hi
    exact ⟨evs, hr.out, fun _ => ⟨fun he => hr.kept (.inl he), hr.taken, fun he => hr.kept (.inr he)⟩⟩

end Sys2Proof.Machine
end

section
/-! Which commands write which element (R22 to R41, R49, R141). -/

namespace Sys2Proof.Machine

/-- The Huffman builder's elements (R22 to R27). -/
theorem CommandEffect.builder_writers {i : Instr} {s u : State} (h : CommandEffect i s u) :
    (u.hcount ≠ s.hcount → i = .hclr ∨ (∃ l n, i = .hcnt l n) ∨ ∃ k, i = .hbuild k) ∧
    (u.symbuf ≠ s.symbuf → ∃ v, i = .hsym v) ∧
    (u.symcnt ≠ s.symcnt → (∃ v, i = .hsym v) ∨ i = .hclr ∨ ∃ k, i = .hbuild k) ∧
    (u.hpoison ≠ s.hpoison → (u.hpoison = true ∧ s.symcnt.val = 256 ∧ ∃ v, i = .hsym v) ∨
      (u.hpoison = false ∧ (i = .hclr ∨ ∃ k, i = .hbuild k))) ∧
    (u.tree ≠ s.tree → ∃ k, i = .hbuild k) := by
  cases h with
  | hbuildStored hu _ | hbuildEmptied hu _ _ => cases hu <;> simp [cursorInvalidated]
  | hsymDropped v s h => simp [h]
  | _ => simp [decoded]

/-- A decode pass only ever sets SYMV (R34). -/
theorem symv_of_ddecLoop {n : Byte} {s v : State} {root : Node}
    (hl : ddecLoop root n.toNat (bitcnt s) (beginDecode s) = .next v) (hne : v.symv ≠ s.symv) : v.symv = true := by
  obtain ⟨_, codes, _, _, -, -, -, -, -, -, -, hv, -⟩ := (ddec_loopEffect hl).consumed
  rw [beginDecode_symv] at hv
  cases hs : s.symv with
  | false => simpa [hs] using hne
  | true => simp [hv, hs]

/-- The decoder's elements (R29 to R35). -/
theorem CommandEffect.decoder_writers {i : Instr} {s u : State} (h : CommandEffect i s u) :
    ((u.dbound, u.dslot) ≠ (s.dbound, s.dslot) → (∃ k, i = .dsel k) ∧ u.dbound = true) ∧
    ((u.cdepth, u.cpath) ≠ (s.cdepth, s.cpath) →
      (∃ k, i = .dsel k) ∨ (∃ f, i = .drst f) ∨ (∃ n, i = .ddec n) ∨ ∃ k, i = .hbuild k) ∧
    (u.ddead ≠ s.ddead → (u.ddead = true ∧ ((∃ n, i = .ddec n) ∨ ∃ k, i = .hbuild k)) ∨
      (u.ddead = false ∧ ((∃ k, i = .dsel k) ∨ ∃ f, i = .drst f))) ∧
    (u.bitbuf ≠ s.bitbuf → (∃ b, i = .dbyte b) ∨ (∃ n, i = .ddec n) ∨ i = .drst true) ∧
    ((u.symout, u.nemit) ≠ (s.symout, s.nemit) → ∃ n, i = .ddec n) ∧
    (u.symv ≠ s.symv → (∃ n, i = .ddec n) ∧ u.symv = true) ∧
    (u.dstarved ≠ s.dstarved →
      (∃ n, i = .ddec n) ∨ (u.dstarved = false ∧ ((∃ k, i = .dsel k) ∨ ∃ f, i = .drst f))) := by
  cases h with
  | hbuildStored hu _ | hbuildEmptied hu _ _ => cases hu <;> simp [cursorInvalidated]
  | drst f s => cases f <;> simp
  | @ddecDecoded n _ v root hd hl =>
    have hv : v.symv ≠ s.symv → v.symv = true := symv_of_ddecLoop hl
    simpa [decoded, hd.alive] using hv
  | _ => simp

/-- The zig-zag reorder's elements (R36 to R40). -/
theorem CommandEffect.zigzag_writers {i : Instr} {s u : State} (h : CommandEffect i s u) :
    (u.zin ≠ s.zin → ∃ v, i = .zpush v) ∧
    (u.zcnt ≠ s.zcnt → (∃ v, i = .zpush v) ∨ i = .zclr ∨ ∃ q, i = .zrun q) ∧
    (u.zpoison ≠ s.zpoison → (u.zpoison = true ∧ s.zcnt.val = 64 ∧ ∃ v, i = .zpush v) ∨
      (u.zpoison = false ∧ (i = .zclr ∨ ∃ q, i = .zrun q))) ∧
    ((u.qblk, u.qvalid) ≠ (s.qblk, s.qvalid) → ∃ q, i = .zrun q) ∧
    (u.zres ≠ s.zres → ∃ k, i = .zmap k) := by
  cases h with
  | hbuildStored hu _ | hbuildEmptied hu _ _ => cases hu <;> simp [cursorInvalidated]
  | zpushDropped v s h => simp [h]
  | _ => simp [decoded]

/-- OUT and the error record (R41, R49, R205). -/
theorem CommandEffect.output_writers {i : Instr} {s u : State} (h : CommandEffect i s u) :
    ∃ evs, u.out = s.out ++ evs ∧ (∀ k v, .sym k v ∈ evs → ∃ n, i = .ddec n) ∧
      ((u.err, u.errinfo) ≠ (s.err, s.errinfo) → i = .eclr ∨ ∃ code info, .err code info ∈ evs) := by
  by_cases hi : i = .eclr
  · subst hi
    cases h
    exact ⟨[], by simp, by simp, fun _ => .inl rfl⟩
  · obtain ⟨evs, hr, hs⟩ := h.reports hi
    refine ⟨evs, hr.out, hs, fun hne => ?_⟩
    rcases hf : firstError evs with _ | ⟨code, info⟩
    · obtain ⟨he, hinfo⟩ := hr.kept (.inr hf)
      exact absurd (by rw [he, hinfo]) hne
    · exact .inr ⟨code, info, mem_of_firstError hf⟩

/-- Settles O50: the writers of each unit's elements, read off the effect that the command left. -/
theorem everyElementHasItsWriters : Obligations.EveryElementHasItsWriters := by
  intro i s t h
  obtain ⟨u, hu, rfl⟩ := exec_effect h
  obtain ⟨hcount, symbuf, symcnt, hpoison, tree⟩ := hu.builder_writers
  obtain ⟨binding, cursor, ddead, bitbuf, symbol, symv, dstarved⟩ := hu.decoder_writers
  obtain ⟨zin, zcnt, zpoison, blocks, zres⟩ := hu.zigzag_writers
  exact ⟨hcount, symbuf, symcnt, hpoison, tree, binding, cursor, ddead, bitbuf, symbol, symv, dstarved, zin, zcnt,
    zpoison, blocks, zres, hu.output_writers⟩

end Sys2Proof.Machine
end

section
/-! What keeps the invariant (R21, R26, R28, R30, R31, R33, R38, R41, R113, R134, R141): each operation over the
state, then each command, then a step. -/

namespace Sys2Proof.Machine

variable {s u : State}

/-! ### The operations that commands share -/

/-- A report keeps the record in OUT, and ERRINFO 0 while no error is recorded (R41, R205). -/
theorem Reports.record_inv {evs : List Event} (h : Reports s evs u) (hn : s.err = none → s.errinfo = 0#32)
    (hr : ∀ c, s.err = some c → .err c s.errinfo ∈ s.out) :
    (u.err = none → u.errinfo = 0#32) ∧ ∀ c, u.err = some c → .err c u.errinfo ∈ u.out := by
  have kept (hk : u.err = s.err ∧ u.errinfo = s.errinfo) :
      (u.err = none → u.errinfo = 0#32) ∧ ∀ c, u.err = some c → .err c u.errinfo ∈ u.out := by
    rw [hk.1, hk.2, h.out]
    exact ⟨hn, fun c hc => List.mem_append_left _ (hr c hc)⟩
  by_cases hs : s.err = none
  · rcases hf : firstError evs with _ | ⟨code, info⟩
    · exact kept (h.kept (.inr hf))
    · obtain ⟨he, hi⟩ := h.taken hs code info hf
      rw [he, hi, h.out]
      exact ⟨nofun, fun c hc => by cases hc; exact List.mem_append_right _ (mem_of_firstError hf)⟩
  · exact kept (h.kept (.inl hs))

theorem inv_raise (h : Inv s) (code : ErrCode) (info : Word) : Inv (raise code info s) := by
  obtain ⟨hn, hr⟩ := (reports_raise code info s).record_inv h.noError h.recorded
  exact { h with noError := hn, recorded := hr }

theorem inv_clearRecord (h : Inv s) : Inv (clearRecord s) :=
  { h with noError := fun _ => rfl, recorded := nofun }

theorem inv_advance (h : Inv s) (hw : s.ci < s.prog.length) : Inv (advance s) :=
  { h with index := hw }

theorem inv_clearStaging (h : Inv s) : Inv (clearStaging s) :=
  { h with poisoned := nofun }

theorem inv_setCount (h : Inv s) (i : Fin 16) (n : Byte) : Inv (setCount i n s) :=
  { h with }

theorem inv_pushSymbol (h : Inv s) (v : Byte) (hlt : s.symcnt.val < 256) : Inv (pushSymbol v s hlt) :=
  { h with poisoned := fun hp => absurd (h.poisoned hp) hlt.ne }

theorem inv_poisonStaging (h : Inv s) (hfull : s.symcnt.val = 256) : Inv { s with hpoison := true } :=
  { h with poisoned := fun _ => hfull }

/-- A cursor at the root of a stored tree stands on an `Interior`. -/
theorem cursorNode_root {root : Node} (hr : storedTree root = true) (hd : s.cdepth.val = 0) :
    ∃ c0 c1, cursorNode root s = some (.interior c0 c1) := by
  obtain ⟨a, b, rfl, -⟩ := storedTree_interior hr
  exact ⟨a, b, by simp [cursorNode, hd, pathBits]⟩

theorem boundTree_stored (h : Inv s) {root : Node} (hb : boundTree s = some root) : storedTree root = true :=
  h.trees s.dslot root (boundTree_some.1 hb).2

theorem storeTree_getElem (t k : Slot) (r : Option Node) (s : State) :
    (storeTree t r s).tree[k] = if k = t then r else s.tree[k] := by
  simp [Vector.getElem_set, Fin.ext_iff, eq_comm]

/-- A slot takes a stored tree or none, unless the cursor is mid-code in it (R31, R250). -/
theorem inv_storeTree (h : Inv s) {t : Slot} (hm : ¬ MidCode t s) (r : Option Node)
    (hr : ∀ root, r = some root → storedTree root = true) : Inv (storeTree t r s) := by
  have htrees (k : Slot) (root : Node) (hk : (storeTree t r s).tree[k] = some root) : storedTree root = true := by
    rw [storeTree_getElem] at hk
    split at hk
    · exact hr root hk
    · exact h.trees k root hk
  refine { h with trees := htrees, cursor := fun root hb hd => ?_ }
  obtain ⟨hbound, htree⟩ := boundTree_some.1 hb
  by_cases ht : s.dslot = t
  · have hdepth : s.cdepth.val = 0 := by
      by_contra h0
      exact hm ⟨hbound, ht, Nat.pos_of_ne_zero h0⟩
    exact cursorNode_root (htrees s.dslot root htree) hdepth
  · have hsame : (storeTree t r s).tree[s.dslot] = s.tree[s.dslot] := by rw [storeTree_getElem, if_neg ht]
    exact h.cursor root (boundTree_some.2 ⟨hbound, hsame.symm.trans htree⟩) hd

theorem inv_killPass (h : Inv s) : Inv (cursorToRoot (killPass s)) :=
  { h with
    unbound := fun _ => rfl
    path := by simp
    dead := fun _ => rfl
    cursor := fun _ _ hd => nomatch hd }

theorem inv_restartPass (h : Inv s) : Inv (restartPass s) :=
  { h with
    unbound := fun _ => rfl
    path := by simp
    dead := fun _ => rfl
    cursor := fun _ hb _ => cursorNode_root (boundTree_stored h hb) rfl }

/-- The pass that DSEL starts (R131). -/
theorem inv_select (h : Inv s) (t : Slot) : Inv (restartPass { s with dbound := true, dslot := t }) :=
  { h with
    unbound := fun _ => rfl
    path := by simp
    dead := fun _ => rfl
    cursor := fun root hb _ => cursorNode_root (h.trees t root (boundTree_some.1 hb).2) rfl }

/-- The buffer takes any bits within BITCAP (R33). -/
theorem inv_setBitbuf (h : Inv s) (bits : List Bool) (hb : bits.length ≤ s.cfg.bitcap) :
    Inv { s with bitbuf := bits } :=
  { h with buffer := hb }

theorem inv_beginDecode (h : Inv s) : Inv (beginDecode s) :=
  { h with emitted := Nat.zero_le _ }

theorem inv_clearInput (h : Inv s) : Inv (clearInput s) :=
  { h with overloaded := nofun }

theorem inv_pushValue (h : Inv s) (v : Elem) (hlt : s.zcnt.val < 64) : Inv (pushValue v s hlt) :=
  { h with overloaded := fun hp => absurd (h.overloaded hp) hlt.ne }

theorem inv_poisonInput (h : Inv s) (hfull : s.zcnt.val = 64) : Inv { s with zpoison := true } :=
  { h with overloaded := fun _ => hfull }

theorem inv_storeBlock (h : Inv s) (q : QSlot) (block : Vector Elem 64) : Inv (storeBlock q block s) :=
  { h with }

theorem inv_invalidateBlock (h : Inv s) (q : QSlot) : Inv (invalidateBlock q s) :=
  { h with }

theorem inv_setZres (h : Inv s) (k : Fin 64) : Inv { s with zres := k } :=
  { h with }

/-! ### HBUILD -/

/-- The tree that a build answers is a stored tree (R113). -/
theorem buildOutcome_stored {t : Slot} {root : Node} (h : buildOutcome t s = .ok root) : storedTree root = true := by
  obtain ⟨hs, hb⟩ := buildOutcome_ok h
  exact builtFrom_stored hs (build_tree hs hb).2

theorem inv_invalidated {t : Slot} (h : Inv s) (hu : Invalidated t s u) : Inv u ∧ ¬ MidCode t u := by
  cases hu with
  | idle hm => exact ⟨h, hm⟩
  | midCode _ => exact ⟨inv_killPass (inv_raise h _ _), not_midCode_cursorInvalidated t t s⟩

/-! ### DDEC -/

theorem Decoding.cursorOn {root : Node} (hd : Decoding root s) (h : Inv s) : CursorOn root (beginDecode s) :=
  ⟨h.cursor root (boundTree_some.2 ⟨hd.bound, hd.table⟩) hd.alive, h.path⟩

theorem inv_decoded {n : Byte} {root : Node} (h : Inv s) (hd : Decoding root s)
    (hl : ddecLoop root n.toNat (bitcnt s) (beginDecode s) = .next u) : Inv (decoded s u) := by
  have hstored := h.trees s.dslot root hd.table
  obtain ⟨u', hl', hcur, hdead, -⟩ := ddecLoop_keeps hstored n.toNat (bitcnt s) (hd.cursorOn h)
  obtain rfl : u = u' := by rw [hl] at hl'; cases hl'; rfl
  have he := ddec_loopEffect hl
  obtain ⟨evs, hr⟩ := he.reports
  obtain ⟨hn, hrec⟩ := hr.record_inv h.noError h.recorded
  obtain ⟨used, codes, -, -, hused, hle, -, -, -, hnemit, -⟩ := he.consumed
  have hbits : bitcnt s = used.length + u.bitbuf.length := by
    rw [← List.length_append, ← hused]; rfl
  have hcap := h.buffer
  refine { h with
    unbound := fun hb => absurd hb (by simp [decoded, hd.bound])
    path := hcur.path
    dead := fun hu => (hdead hu).resolve_left (by simp [hd.alive])
    cursor := fun root' hb _ => ?_
    buffer := ?_
    emitted := ?_
    noError := hn
    recorded := hrec }
  · obtain rfl : root' = root := Option.some.inj ((boundTree_some.1 hb).2.symm.trans hd.table)
    exact hcur.interior
  · show u.bitbuf.length ≤ s.cfg.bitcap
    omega
  · show u.nemit ≤ s.cfg.bitcap
    rw [hnemit, beginDecode_nemit]
    omega

/-- Every command keeps the invariant. -/
theorem CommandEffect.inv {i : Instr} (hi : Inv s) (h : CommandEffect i s u) : Inv u := by
  cases h with
  | hclr => exact inv_clearStaging hi
  | hcnt l4 n => exact inv_setCount hi l4 n
  | hsymPushed v _ h => exact inv_pushSymbol hi v h
  | hsymDropped v _ h => exact inv_raise (inv_poisonStaging hi h) _ _
  | hbuildStored hu h =>
    obtain ⟨hv, hm⟩ := inv_invalidated hi hu
    exact inv_clearStaging (inv_storeTree hv hm _ fun r hr => by cases hr; exact buildOutcome_stored h)
  | hbuildEmptied hu code info =>
    obtain ⟨hv, hm⟩ := inv_invalidated hi hu
    exact inv_clearStaging (inv_storeTree (inv_raise hv code info) (fun m => hm ⟨m.bound, m.slot, m.depth⟩) none nofun)
  | dsel t => exact inv_select hi t
  | drst f =>
    refine inv_setBitbuf (inv_restartPass hi) _ ?_
    cases f
    · exact hi.buffer
    · exact Nat.zero_le _
  | dbyteAppended b _ h => exact inv_setBitbuf hi _ (by simpa [byteBits, bitcnt] using h)
  | dbyteDropped b => exact inv_raise hi _ _
  | ddecDead n _ h => exact inv_raise (inv_beginDecode hi) _ _
  | ddecNoTable n _ hd h => exact inv_raise (inv_beginDecode hi) _ _
  | ddecDecoded h hl => exact inv_decoded hi h hl
  | zclr => exact inv_clearInput hi
  | zpushPushed v _ h => exact inv_pushValue hi v h
  | zpushDropped v _ h => exact inv_raise (inv_poisonInput hi h) _ _
  | zrunRefused q _ code info => exact inv_clearInput (inv_invalidateBlock (inv_raise hi code info) q)
  | zrunPlaced q => exact inv_clearInput (inv_storeBlock hi q _)
  | zmap k => exact inv_setZres hi (zz k)
  | eclr => exact inv_clearRecord hi

/-! ### A step -/

/-- A step that executes a word leaves an effect of its command, or raises ILLEGAL_CMD; CI advances. -/
theorem step_effect {w : Word} {t : State} (hw : s.prog[s.ci]? = some w) (h : step s = .next t) :
    ∃ u, t = advance u ∧ ((∃ i, CommandEffect i s u) ∨ u = raise .illegalCmd w s) := by
  rcases step_cases s with ⟨hidle, -⟩ | ⟨w', i, -, -, e⟩ | ⟨w', err, hw', -, e⟩
  · rw [List.getElem?_eq_none hidle] at hw
    cases hw
  · obtain ⟨u, hu, ht⟩ := exec_effect (e.symm.trans h)
    exact ⟨u, ht, .inl ⟨i, hu⟩⟩
  · cases hw.symm.trans hw'
    rw [h] at e
    cases e
    exact ⟨_, rfl, .inr rfl⟩

/-- An executed word moves CI by 1 and leaves the program (R21). -/
theorem step_index {w : Word} {t : State} (hw : s.prog[s.ci]? = some w) (h : step s = .next t) :
    t.ci = s.ci + 1 ∧ t.prog = s.prog := by
  obtain ⟨u, rfl, ⟨i, hu⟩ | rfl⟩ := step_effect hw h
  · obtain ⟨-, hprog, hci, -⟩ := hu.machine_eq
    simp [hprog, hci]
  · simp

/-- Settles O58: a step with no word waiting answers the same state; otherwise the command keeps the invariant,
and a word was there for CI to move past. -/
theorem everyStepKeepsTheInvariant : Obligations.EveryStepKeepsTheInvariant := by
  intro s t hi h
  rcases hw : s.prog[s.ci]? with _ | w
  · rw [step, currentWord, hw] at h
    cases h
    exact hi
  · have hlt := (List.getElem?_eq_some_iff.1 hw).1
    obtain ⟨u, rfl, ⟨i, hu⟩ | rfl⟩ := step_effect hw h
    · obtain ⟨-, hprog, hci, -⟩ := hu.machine_eq
      exact inv_advance (hu.inv hi) (by rwa [hprog, hci])
    · exact inv_advance (inv_raise hi _ _) hlt

end Sys2Proof.Machine
end

section
/-! Commands and runs complete (R21, R261, R262), and what a DDEC leaves when it does (R134, R135). -/

namespace Sys2Proof.Machine

variable {s : State}

/-- In a state of the invariant DDEC completes: with a tree bound, the cursor stands on an `Interior` of it. -/
theorem ddec_completes (hi : Inv s) (n : Byte) : ∃ t, exec (.ddec n) s = .next t := by
  show ∃ t, execDdec n s = .next t
  rcases hd : s.ddead with _ | _
  · rcases hb : boundTree s with _ | root
    · exact ⟨_, by simp only [execDdec, hd, hb]; rfl⟩
    · obtain ⟨hbound, htable⟩ := boundTree_some.1 hb
      have hdec : Decoding root s := ⟨hd, hbound, htable⟩
      obtain ⟨u, hl, -⟩ := ddecLoop_keeps (boundTree_stored hi hb) n.toNat (bitcnt s) (hdec.cursorOn hi)
      exact ⟨advance u, by rw [execDdec_decoding n hdec, hl]; rfl⟩
  · exact ⟨_, by simp only [execDdec, hd]; rfl⟩

theorem exec_completes (hi : Inv s) (i : Instr) : ∃ t, exec i s = .next t := by
  by_cases hd : ∃ n, i = .ddec n
  · obtain ⟨n, rfl⟩ := hd
    exact ddec_completes hi n
  · obtain ⟨u, hu, -⟩ := exec_effect_of_ne_ddec (fun n hn => hd ⟨n, hn⟩) s
    exact ⟨_, hu⟩

theorem step_completes (hi : Inv s) : ∃ t, step s = .next t := by
  rcases step_cases s with ⟨-, e⟩ | ⟨w, i, -, -, e⟩ | ⟨w, err, -, -, e⟩
  · exact ⟨_, e⟩
  · rw [e]
    exact exec_completes hi i
  · exact ⟨_, e⟩

/-! ### Runs -/

theorem run_succ {k : Nat} {t : State} (h : step s = .next t) :
    Host.Core.run core (k + 1) s = Host.Core.run core k t := by
  simp only [Host.Core.run, Host.Check.core_step, h]

/-- A machine with k words waiting executes them in k steps. -/
theorem run_completes (k : Nat) (hi : Inv s) (hk : s.prog.length = s.ci + k) :
    ∃ t, Host.Core.run core k s = .next t ∧ t.ci = s.ci + k ∧ Inv t := by
  induction k generalizing s with
  | zero => exact ⟨s, rfl, rfl, hi⟩
  | succ k ih =>
    obtain ⟨t, ht⟩ := step_completes hi
    have hw : s.prog[s.ci]? = some s.prog[s.ci] := List.getElem?_eq_getElem (by omega)
    obtain ⟨hci, hprog⟩ := step_index hw ht
    obtain ⟨u, hu, huci, huinv⟩ := ih (everyStepKeepsTheInvariant s t hi ht) (by rw [hprog, hci]; omega)
    exact ⟨u, (run_succ ht).trans hu, by omega, huinv⟩

theorem inv_deliverAfter (hi : Inv s) (ws : List Word) : Inv { s with prog := s.prog.take s.ci ++ ws } :=
  { hi with index := by simp [hi.index] }

/-- Settles O60, by induction on the number of words waiting. -/
theorem everyRunCompletes : Obligations.EveryRunCompletes := by
  intro s ws hi
  exact run_completes ws.length (inv_deliverAfter hi ws) (by simp [hi.index])

/-! ### What DDEC leaves -/

/-- How the loop of a live pass can end in a state of the invariant: starved, at the budget, or at a missing child,
after the events `errs`; `left` is what its codes left of the bits. -/
def LoopEnding (root : Node) (n : Nat) (left : List Bool) (errs : List Event) (u : State) : Prop :=
  (errs = [] ∧ u.ddead = false ∧ cursorBits u = left ∧
    ((u.dstarved = true ∧ u.bitbuf = []) ∨ (u.dstarved = false ∧ n ≠ 0 ∧ u.nemit = n))) ∨
  ((∃ info, errs = [.err .incompleteTree info]) ∧ u.ddead = true ∧ u.dstarved = false ∧ u.cdepth.val = 0 ∧
    walk root left = some .empty)

/-- What a decoding DDEC reads, emits and ends with, in a state of the invariant (R134, R135). -/
theorem ddecLoop_ending {n : Byte} {root : Node} {u : State} (hi : Inv s) (hd : Decoding root s)
    (hl : ddecLoop root n.toNat (bitcnt s) (beginDecode s) = .next u) :
    ∃ (used : List Bool) (codes : List (List Bool × Byte)) (vs : List Byte) (left : List Bool) (errs : List Event),
      codes.map (·.2) = vs ∧ (∀ c ∈ codes, walk root c.1 = some (.leaf c.2)) ∧
      cursorBits s ++ used = codes.flatMap (·.1) ++ left ∧ s.bitbuf = used ++ u.bitbuf ∧
      u.out = s.out ++ vs.map (.sym s.dslot) ++ errs ∧ u.nemit = vs.length ∧ vs.length ≤ used.length ∧
      u.symout = vs.getLast?.getD s.symout ∧ u.symv = (s.symv || vs != []) ∧
      LoopEnding root n.toNat left errs u := by
  obtain ⟨u', hl', -, -, evs, hevs, hleaf⟩ :=
    ddecLoop_keeps (hi.trees s.dslot root hd.table) n.toNat (bitcnt s) (hd.cursorOn hi)
  obtain rfl : u = u' := by rw [hl] at hl'; cases hl'; rfl
  obtain ⟨used, codes, left, errs, hused, hle, hcodes, hbits, ho, hm, hs, hv, hr⟩ := (ddec_loopEffect hl).consumed
  refine ⟨used, codes, codes.map (·.2), left, errs, rfl, hcodes, hbits, hused, by rw [List.map_map]; exact ho, by simpa using hm,
    by simpa using hle, by simpa using hs, by rw [hv]; cases codes <;> rfl, ?_⟩
  rcases hr with ⟨rfl, -, -, hdead, hcur, hend⟩ | ⟨code, info, rfl, hcode, hdead, hstarved, -, -⟩
  · refine .inl ⟨rfl, hdead.trans hd.alive, hcur, hend.imp id fun ⟨hst, hbud⟩ => ⟨hst, ?_⟩⟩
    simpa [budgetReached] using hbud
  · rcases hcode with ⟨rfl, hroot, hw⟩ | rfl
    · exact .inr ⟨⟨info, rfl⟩, hdead, hstarved, hroot, hw⟩
    · refine absurd ?_ (hleaf info)
      rw [ho, List.append_assoc, beginDecode_out, List.append_cancel_left_eq] at hevs
      simp [← hevs]

/-- Settles O36: a dead pass and a missing table are refused with nothing decoded, and a live pass ends as
`ddecLoop_ending` says. -/
theorem ddecCompletesAndStopsForAReason : Obligations.DdecCompletesAndStopsForAReason := by
  intro s n hi
  obtain ⟨t, ht⟩ := ddec_completes hi n
  obtain ⟨u, hu, rfl⟩ := exec_effect ht
  cases hu with
  | ddecDead _ _ hdead =>
    exact ⟨_, [], [], [.err .passDead (infoDead s.dslot)], ht, rfl, rfl, by simp, rfl, le_rfl,
      fun _ => Nat.zero_le _, rfl, by simp, fun root _ hlive => absurd hlive (by simp [hdead]),
      .inr (.inr (.inr ⟨⟨_, _, rfl, .inl rfl⟩, rfl, rfl, rfl, rfl, rfl, rfl⟩))⟩
  | ddecNoTable _ _ _ hnone =>
    exact ⟨_, [], [], [.err .noTable (infoNoTable s.dslot s.dbound)], ht, rfl, rfl, by simp, rfl, le_rfl,
      fun _ => Nat.zero_le _, rfl, by simp, fun root hb _ => absurd hb (by simp [hnone]),
      .inr (.inr (.inr ⟨⟨_, _, rfl, .inr rfl⟩, rfl, rfl, rfl, rfl, rfl, rfl⟩))⟩
  | @ddecDecoded _ _ u root hd hl =>
    obtain ⟨used, codes, vs, left, errs, hvs, hcodes, hbits, hused, ho, hm, hle, hs, hv, hend⟩ :=
      ddecLoop_ending hi hd hl
    have hbudget (hn : n.toNat ≠ 0) : vs.length ≤ n.toNat :=
      hm ▸ (ddec_loopEffect hl).budget hn (Nat.zero_le _)
    refine ⟨_, used, vs, errs, ht, rfl, hused, ho, hm, hle, hbudget, hs, hv, fun root' hb _ => ?_, ?_⟩
    · obtain rfl : root' = root := Option.some.inj ((boundTree_some.1 hb).2.symm.trans hd.table)
      refine ⟨codes, left, hvs, hcodes, hbits, ?_⟩
      rcases hend with ⟨-, hlive, hcur, -⟩ | ⟨-, hdead, -, -, hw⟩
      · exact ⟨fun _ => hcur, fun hdead => absurd (hlive.symm.trans hdead) nofun⟩
      · exact ⟨fun hlive => absurd (hlive.symm.trans hdead) nofun, fun _ => hw⟩
    · rcases hend with ⟨he, hlive, -, ⟨hst, hb⟩ | ⟨hst, hn, hnm⟩⟩ | ⟨he, hdead, hst, hroot, -⟩
      · exact .inl ⟨he, hlive.trans hd.alive.symm, hst, hb⟩
      · exact .inr (.inl ⟨he, hlive.trans hd.alive.symm, hst, hn, hm.symm.trans hnm⟩)
      · exact .inr (.inr (.inl ⟨he, hdead, hst, hroot⟩))

end Sys2Proof.Machine
end

section
/-! The host's reads (R42 to R48, R61, R68): what they depend on, and the fields of each register. -/

namespace Sys2Proof.Machine

/-! ### Specified reads -/

theorem readByteEntry_free {a : ReadAddr} {specified : Bool} {v : Byte} {s : State} (h : specified = true)
    (c d : Nat) : readByteEntry a specified v { s with ci := c, draws := d } = readByteEntry a specified v s := by
  rw [h]
  rfl

theorem readElemEntry_free {a : ReadAddr} {specified : Bool} {v : Elem} {s : State} (h : specified = true)
    (c d : Nat) : readElemEntry a specified v { s with ci := c, draws := d } = readElemEntry a specified v s := by
  rw [h]
  rfl

/-- A specified entry of a window depends on neither CI nor the model's own draw counter (R48). -/
theorem readWindow_free {a : ReadAddr} {s : State} (h : specifiedRead a s = true) (c d : Nat) :
    readWindow a { s with ci := c, draws := d } = readWindow a s := by
  unfold readWindow
  unfold specifiedRead at h
  split_ifs with hcount zin symbuf qblk
  · rfl
  · rw [if_pos zin] at h
    exact readElemEntry_free h c d
  · rw [if_neg zin, if_pos symbuf] at h
    exact readByteEntry_free h c d
  · rw [if_neg zin, if_neg symbuf, dif_pos qblk] at h
    exact readElemEntry_free h c d
  · rfl

/-- A specified read depends on neither CI nor the model's own draw counter (R21, R48). -/
theorem readWord_free {a : ReadAddr} {s : State} (h : specifiedRead a s = true) (c d : Nat) :
    readWord a { s with ci := c, draws := d } = readWord a s := by
  unfold readWord
  split
  · rfl
  · exact readWindow_free h c d

/-- Settles O6: every word's effect leaves CI and the program, and then CI advances; no register shows CI, and
only the free value of an unspecified entry is drawn with it. -/
theorem eachCommandAdvancesTheIndexByOne : Obligations.EachCommandAdvancesTheIndexByOne :=
  ⟨fun _ _ _ hw h => step_index hw h, fun s _ c ha => readWord_free ha c s.draws⟩

/-- Settles O52: a read moves the draw counter alone, and no specified entry depends on it. -/
theorem hostReadsHaveNoSideEffect : Obligations.HostReadsHaveNoSideEffect :=
  fun s _ _ => ⟨rfl, fun hb => readWord_free hb s.ci (s.draws + 1)⟩

end Sys2Proof.Machine
end

section
/-! The fields of the host-readable registers (R42 to R47). -/

namespace Sys2Proof.Machine

open BitVec

variable {s : State}

theorem readWord_register {a : ReadAddr} (h : a.toNat < 0x00B) (s : State) :
    readWord a s = readRegister a.toNat s := if_pos h

theorem toNat_zero_append (k : Nat) {n : Nat} (v : BitVec n) : (0#k ++ v).toNat = v.toNat := by
  simp [toNat_append]

/-- STATUS (R42). -/
theorem statusWord_fields (s : State) :
    (statusWord s).extractLsb' 0 8 = errByte s ∧ (statusWord s).getLsbD 8 = s.ddead ∧
    (statusWord s).getLsbD 9 = s.dstarved ∧ (statusWord s).getLsbD 10 = s.symv ∧
    (statusWord s).getLsbD 11 = s.hpoison ∧ (statusWord s).getLsbD 12 = s.zpoison ∧
    (statusWord s).extractLsb' 13 19 = 0#19 := by
  unfold statusWord
  simp (disch := omega) only [extractLsb'_append_eq_of_add_le, extractLsb'_append_eq_of_le, getLsbD_append,
    getLsbD_ofBool]
  simp

/-- Settles O53: address 0x000 reads the STATUS word, whose fields stand side by side in it. -/
theorem statusRegisterFields : Obligations.StatusRegisterFields :=
  ⟨rfl, statusWord_fields⟩

/-- SYMOUT (R44). -/
theorem symoutWord_fields (h : Inv s) :
    (symoutWord s).extractLsb' 0 8 = s.symout ∧ ((symoutWord s).extractLsb' 16 16).toNat = s.nemit ∧
    (symoutWord s).extractLsb' 8 8 = 0#8 := by
  have hn : s.nemit < 2 ^ 16 := by
    have := h.emitted
    have := s.cfg.legal
    omega
  unfold symoutWord
  simp (disch := omega) only [extractLsb'_append_eq_of_add_le, extractLsb'_append_eq_of_le]
  simpa using hn

/-- DCUR (R45). -/
theorem dcurWord_fields (s : State) :
    ((dcurWord s).extractLsb' 0 3).toNat = s.dslot.val ∧ (dcurWord s).getLsbD 3 = s.dbound ∧
    ((dcurWord s).extractLsb' 8 4).toNat = s.cdepth.val ∧ (dcurWord s).extractLsb' 16 16 = s.cpath ∧
    (dcurWord s).extractLsb' 4 4 = 0#4 ∧ (dcurWord s).extractLsb' 12 4 = 0#4 := by
  unfold dcurWord
  simp (disch := omega) only [extractLsb'_append_eq_of_add_le, extractLsb'_append_eq_of_le, getLsbD_append,
    getLsbD_ofBool]
  simp

/-- BITCNT (R46). -/
theorem bitcntWord_toNat (h : Inv s) : (bitcntWord s).toNat = bitcnt s := by
  have hn : bitcnt s < 2 ^ 16 := by
    have := h.buffer
    have := s.cfg.legal
    omega
  rw [bitcntWord, toNat_zero_append, toNat_ofNat, Nat.mod_eq_of_lt hn]

theorem paramWord_toNat (c : Config) : c.paramWord.toNat = c.bitcap := by
  have := c.legal
  rw [Config.paramWord, toNat_zero_append, toNat_ofNat, Nat.mod_eq_of_lt (by omega)]

/-- TVALID (R46). -/
theorem tvalidWord_fields (s : State) :
    (∀ t : Slot, (tvalidWord s).getLsbD t.val = s.tree[t].isSome) ∧ (tvalidWord s).extractLsb' 8 24 = 0#24 := by
  unfold tvalidWord
  constructor
  · intro t
    fin_cases t <;> simp only [getLsbD_append, getLsbD_ofBool] <;> rfl
  · simp (disch := omega) only [extractLsb'_append_eq_of_le]
    simp

theorem sumcnt_le (s : State) : sumcnt s ≤ 4080 := by
  have h := List.sum_le_card_nsmul (s.hcount.toList.map BitVec.toNat) 255 (by
    simp only [List.mem_map, forall_exists_index, and_imp]
    rintro _ n - rfl
    omega)
  simpa [sumcnt, sumCounts] using h

/-- HSTAT (R46). -/
theorem hstatWord_fields (s : State) :
    ((hstatWord s).extractLsb' 0 9).toNat = s.symcnt.val ∧ ((hstatWord s).extractLsb' 16 12).toNat = sumcnt s ∧
    (hstatWord s).extractLsb' 9 7 = 0#7 ∧ (hstatWord s).extractLsb' 28 4 = 0#4 := by
  have hsum := sumcnt_le s
  unfold hstatWord
  simp (disch := omega) only [extractLsb'_append_eq_of_add_le, extractLsb'_append_eq_of_le]
  simp
  omega

/-- ZSTAT (R46). -/
theorem zstatWord_fields (s : State) :
    ((zstatWord s).extractLsb' 0 7).toNat = s.zcnt.val ∧
    (∀ q : QSlot, (zstatWord s).getLsbD (8 + q.val) = s.qvalid[q]) ∧ (zstatWord s).getLsbD 7 = false ∧
    (zstatWord s).extractLsb' 12 20 = 0#20 := by
  unfold zstatWord
  refine ⟨?_, fun q => ?_, ?_, ?_⟩
  · simp (disch := omega) only [extractLsb'_append_eq_of_add_le]
    simp
    omega
  · fin_cases q <;> simp only [getLsbD_append, getLsbD_ofBool] <;> rfl
  · simp only [getLsbD_append]
    simp
  · simp (disch := omega) only [extractLsb'_append_eq_of_le]
    simp

/-- ZRES, with the row and the column of the natural index (R46). -/
theorem zresWord_fields (s : State) :
    (zresWord s).toNat = s.zres.val ∧ ((zresWord s).extractLsb' 3 3).toNat = s.zres.val / 8 ∧
    ((zresWord s).extractLsb' 0 3).toNat = s.zres.val % 8 := by
  have hval : (zresWord s).toNat = s.zres.val := by
    rw [zresWord, toNat_zero_append, toNat_ofNat, Nat.mod_eq_of_lt s.zres.isLt]
  refine ⟨hval, ?_, ?_⟩
  · rw [extractLsb'_toNat, hval]
    omega
  · rw [extractLsb'_toNat, hval]
    omega

/-- Settles O54: after reset each register is evaluated; in a state of the invariant each address reads its register's
word, and NEMIT and BITCNT fit the 16 bits that BITCAP allows them. -/
theorem registerMapFields : Obligations.RegisterMapFields := by
  refine ⟨fun a h1 h8 => ?_, rfl, fun s h => ?_⟩
  · show readWord a State.reset = 0#32
    rw [readWord_register (by omega)]
    interval_cases a.toNat <;> rfl
  · exact ⟨rfl, symoutWord_fields h, dcurWord_fields s, bitcntWord_toNat h, tvalidWord_fields s, hstatWord_fields s,
      zstatWord_fields s, zresWord_fields s, rfl, paramWord_toNat s.cfg⟩

end Sys2Proof.Machine
end

section
/-! The array windows (R48). -/

namespace Sys2Proof.Machine

open BitVec

variable (s : State)

theorem readByteEntry_high (a : ReadAddr) (specified : Bool) (v : Byte) :
    (readByteEntry a specified v s).extractLsb' 8 24 = 0#24 := extractLsb'_append_eq_left

theorem readElemEntry_high (a : ReadAddr) (specified : Bool) (v : Elem) :
    (readElemEntry a specified v s).extractLsb' 16 16 = 0#16 := extractLsb'_append_eq_left

theorem readByteEntry_low (a : ReadAddr) (v : Byte) : readByteEntry a true v s = v.setWidth 32 := zext_byte v

theorem readElemEntry_low (a : ReadAddr) (v : Elem) : readElemEntry a true v s = v.setWidth 32 := zext_elem v

theorem readWord_hcount {a : ReadAddr} (i : Fin 16) (ha : a.toNat = 0x010 + i.val) :
    readWord a s = readByteEntry a true s.hcount[i] s := by
  rw [readWord, if_neg (by omega), readWindow, dif_pos (by omega)]
  simp [ha]

theorem readWord_zin {a : ReadAddr} (i : Fin 64) (ha : a.toNat = 0x040 + i.val) :
    readWord a s = readElemEntry a (decide (i.val < s.zcnt.val)) s.zin[i] s := by
  rw [readWord, if_neg (by omega), readWindow, dif_neg (by omega), dif_pos (by omega)]
  simp [ha]

theorem readWord_symbuf {a : ReadAddr} (i : Fin 256) (ha : a.toNat = 0x100 + i.val) :
    readWord a s = readByteEntry a (decide (i.val < s.symcnt.val)) s.symbuf[i] s := by
  rw [readWord, if_neg (by omega), readWindow, dif_neg (by omega), dif_neg (by omega), dif_pos (by omega)]
  simp [ha]

theorem readWord_qblk {a : ReadAddr} (q : QSlot) (n : Fin 64) (ha : a.toNat = 0x200 + 64 * q.val + n.val) :
    readWord a s = readElemEntry a s.qvalid[q] s.qblk[q][n] s := by
  have hq : (a.toNat - 0x200) / 64 = q.val := by omega
  have hn : (a.toNat - 0x200) % 64 = n.val := by omega
  rw [readWord, if_neg (by omega), readWindow, dif_neg (by omega), dif_neg (by omega), dif_neg (by omega),
    dif_pos (by omega)]
  simp [hq, hn]

theorem readAddr_toNat {n : Nat} (h : n < 1024) : (BitVec.ofNat 10 n).toNat = n := by
  rw [toNat_ofNat, Nat.mod_eq_of_lt h]

/-- Settles O55: each address of a window reads its entry, and an unspecified entry still has only its data bits
free. -/
theorem arrayWindows : Obligations.ArrayWindows := by
  intro s
  refine ⟨fun i => ?_, fun i => ?_, fun i => ?_, fun q n => ?_⟩
  · rw [readWord_hcount s i (readAddr_toNat (by omega)), readByteEntry_low]
  · rw [readWord_zin s i (readAddr_toNat (by omega))]
    exact ⟨readElemEntry_high s _ _ _, fun hi => by rw [decide_eq_true hi, readElemEntry_low]⟩
  · rw [readWord_symbuf s i (readAddr_toNat (by omega))]
    exact ⟨readByteEntry_high s _ _ _, fun hi => by rw [decide_eq_true hi, readByteEntry_low]⟩
  · rw [readWord_qblk s q n (readAddr_toNat (by omega))]
    exact ⟨readElemEntry_high s _ _ _, fun hq => by rw [hq, readElemEntry_low]⟩

end Sys2Proof.Machine
end

section
/-! A command's word and its bytes are read back (R65, R80 to R88). Reading goes by rows: a word that meets a command's
row of R86 decodes to that command with its operands read from the word's fields. -/

namespace Sys2Proof

open BitVec

/-! ### Rows of R86 -/

/-- The operand format of a command's row (R86). -/
def Instr.format : Instr → Format
  | .hclr | .zclr | .eclr => .N
  | .hcnt _ _ => .LC
  | .hsym _ | .dbyte _ | .ddec _ => .B8
  | .hbuild _ | .dsel _ => .S3
  | .drst _ => .F1
  | .zpush _ => .V16
  | .zrun _ => .Q2
  | .zmap _ => .K6

/-- The command of the same row with its operands read from the fields of w (R81). -/
def Instr.reread (w : Word) : Instr → Instr
  | .hclr => .hclr
  | .hcnt _ _ => .hcnt (fieldL4 w) (fieldImm8 w)
  | .hsym _ => .hsym (fieldImm8 w)
  | .hbuild _ => .hbuild (fieldT3 w)
  | .dsel _ => .dsel (fieldT3 w)
  | .drst _ => .drst (fieldF1 w)
  | .dbyte _ => .dbyte (fieldImm8 w)
  | .ddec _ => .ddec (fieldImm8 w)
  | .zclr => .zclr
  | .zpush _ => .zpush (fieldV16 w)
  | .zrun _ => .zrun (fieldQ2 w)
  | .zmap _ => .zmap (fieldK6 w)
  | .eclr => .eclr

/-- The OPC column of R86. -/
def Instr.opc : Instr → BitVec 4
  | .hclr => 0x1#4
  | .hcnt _ _ => 0x2#4
  | .hsym _ => 0x3#4
  | .hbuild _ => 0x4#4
  | .dsel _ => 0x5#4
  | .drst _ => 0x6#4
  | .dbyte _ => 0x7#4
  | .ddec _ => 0x8#4
  | .zclr => 0x9#4
  | .zpush _ => 0xA#4
  | .zrun _ => 0xB#4
  | .zmap _ => 0xC#4
  | .eclr => 0xE#4

theorem Instr.opcode_matchWord (i : Instr) : opcode i.matchWord = i.opc := by
  cases i <;> simp only [opcode, Instr.matchWord, Instr.opc] <;> rfl

theorem Instr.opcode_maskWord (i : Instr) : opcode i.maskWord = allOnes 4 := by
  cases i <;> simp only [opcode, Instr.maskWord] <;> rfl

/-- The mask of a row covers the reserved bits of its format. -/
theorem Instr.maskWord_reserved (i : Instr) : i.maskWord &&& i.format.reserved = i.format.reserved := by
  cases i <;> simp only [Instr.maskWord, Instr.format, Format.reserved] <;> rfl

theorem Instr.matchWord_reserved (i : Instr) : i.matchWord &&& i.format.reserved = 0#32 := by
  cases i <;> simp only [Instr.matchWord, Instr.format, Format.reserved] <;> rfl

section Rows

variable {w : Word} {i : Instr} (h : w &&& i.maskWord = i.matchWord)

include h

theorem opcode_of_row : opcode w = i.opc := by
  have hand : opcode (w &&& i.maskWord) = opcode w &&& opcode i.maskWord := extractLsb'_and
  rw [← i.opcode_matchWord, ← h, hand, i.opcode_maskWord, and_allOnes]

theorem reserved_of_row : w &&& i.format.reserved = 0#32 := by
  rw [← i.maskWord_reserved, ← BitVec.and_assoc, h, i.matchWord_reserved]

/-- A word that meets a command's row decodes to that row's command, its operands read from the word (R81, R86). -/
theorem decode_of_row : decode w = .ok (i.reread w) := by
  have hres := reserved_of_row h
  rw [decode, opcode_of_row h]
  cases i <;> exact if_pos hres

end Rows

/-! ### The encoder -/

theorem wellFormed_instr (i : Instr) : i.wellFormed = true := by
  cases i with
  | hclr => exact Laws.WellFormed.hclr
  | hcnt l4 n => exact Laws.WellFormed.hcnt l4 n
  | hsym v => exact Laws.WellFormed.hsym v
  | hbuild t => exact Laws.WellFormed.hbuild t
  | dsel t => exact Laws.WellFormed.dsel t
  | drst f => exact Laws.WellFormed.drst f
  | dbyte b => exact Laws.WellFormed.dbyte b
  | ddec n => exact Laws.WellFormed.ddec n
  | zclr => exact Laws.WellFormed.zclr
  | zpush v => exact Laws.WellFormed.zpush v
  | zrun q => exact Laws.WellFormed.zrun q
  | zmap k => exact Laws.WellFormed.zmap k
  | eclr => exact Laws.WellFormed.eclr

/-- A command's word meets the command's row (R86). -/
theorem encode_row (i : Instr) : encode i &&& i.maskWord = i.matchWord := by
  cases i with
  | hclr => exact Laws.Row.hclr
  | hcnt l4 n => exact Laws.Row.hcnt l4 n
  | hsym v => exact Laws.Row.hsym v
  | hbuild t => exact Laws.Row.hbuild t
  | dsel t => exact Laws.Row.dsel t
  | drst f => exact Laws.Row.drst f
  | dbyte b => exact Laws.Row.dbyte b
  | ddec n => exact Laws.Row.ddec n
  | zclr => exact Laws.Row.zclr
  | zpush v => exact Laws.Row.zpush v
  | zrun q => exact Laws.Row.zrun q
  | zmap k => exact Laws.Row.zmap k
  | eclr => exact Laws.Row.eclr

/-- The fields of a command's word are the command's operands (R81). -/
theorem reread_encode (i : Instr) : i.reread (encode i) = i := by
  cases i with
  | hclr | zclr | eclr => rfl
  | hcnt l4 n =>
    have hl4 : (encode (.hcnt l4 n)).extractLsb' 8 4 = BitVec.ofFin (w := 4) l4 :=
      (extractLsb'_append_eq_of_le (le_refl 8)).trans extractLsb'_append_eq_right
    exact congrArg₂ (fun l n => Instr.hcnt (BitVec.toFin l) n) hl4 extractLsb'_append_eq_right
  | drst f => cases f <;> rfl
  | hsym _ | dbyte _ | ddec _ | zpush _ | hbuild _ | dsel _ | zrun _ | zmap _ =>
    simp only [Instr.reread, encode, fieldImm8, fieldT3, fieldV16, fieldQ2, fieldK6, extractLsb'_append_eq_right]

@[simp] theorem decode_encode (i : Instr) : decode (encode i) = .ok i := by
  rw [decode_of_row (encode_row i), reread_encode]

/-! ### Bytes (R65, R66) -/

/-- Four neighbouring bytes of a word, side by side, are the word (R65). -/
theorem wordOfBytes_of_word (w : Word) :
    wordOfBytes (w.extractLsb' 24 8) (w.extractLsb' 16 8) (w.extractLsb' 8 8) (w.extractLsb' 0 8) = w := by
  unfold wordOfBytes
  rw [extractLsb'_append_extractLsb'_eq_extractLsb' (by rfl), extractLsb'_append_extractLsb'_eq_extractLsb' (by rfl)]
  exact extractLsb'_append_extractLsb'

/-- The four bytes of a word decode as the word does, and the bytes after them are left. -/
theorem decodeBytes_bytesOfWord (w : Word) (rest : List Byte) :
    decodeBytes (bytesOfWord w ++ rest) = (decode w).map (fun i => (i, rest)) := by
  simp [bytesOfWord, decodeBytes, wordOfBytes_of_word]

theorem decodeBytes_encodeBytes (i : Instr) (rest : List Byte) :
    decodeBytes (encodeBytes i ++ rest) = .ok (i, rest) := by
  rw [encodeBytes, decodeBytes_bytesOfWord, decode_encode]
  rfl

theorem decodeTableWord_encode (i : Instr) : decodeTableWord 32 (encode i).toNat = some i := by
  have hword : BitVec.ofNat 32 ((encode i).toNat % 2 ^ 32) = encode i := by
    rw [Nat.mod_eq_of_lt (encode i).isLt, ofNat_toNat, setWidth_eq]
  have hbytes : decodeBytes (bytesOfWord (encode i)) = .ok (i, []) := decodeBytes_encodeBytes i []
  rw [decodeTableWord, hword, hbytes]

/-- Settles O8: the word of a command meets the command's row, so it decodes along that row, and its fields are the
command's operands; its bytes side by side are the word. -/
theorem decodeReadsBackEncode : Obligations.DecodeReadsBackEncode := fun i rest =>
  ⟨wellFormed_instr i, decode_encode i, decodeBytes_encodeBytes i rest, decodeTableWord_encode i⟩

end Sys2Proof
end

section
/-! What HBUILD leaves in the slots and in OUT (R72, R112). -/

namespace Sys2Proof.Machine

/-- Invalidating a cursor leaves the slots alone and raises nothing but CURSOR_INVALIDATED (R112 step 1). -/
theorem Invalidated.tree_out {t : Slot} {s u : State} (h : Invalidated t s u) :
    u.tree = s.tree ∧ ∃ evs, u.out = s.out ++ evs ∧
      ∀ code info, .err code info ∈ evs → code = .cursorInvalidated := by
  cases h with
  | idle _ => exact ⟨rfl, [], by simp, by simp⟩
  | midCode _ => exact ⟨rfl, [.err .cursorInvalidated (infoCursor t s.cdepth s.cpath)], rfl, by simp⟩

/-- Everything HBUILD can make of the slots and of OUT: an error code other than CURSOR_INVALIDATED comes with the
empty slot. -/
theorem execHbuild_tree_out (t : Slot) (s : State) : ∃ u evs r,
    execHbuild t s = .next u ∧ u.tree = s.tree.set t r ∧ u.out = s.out ++ evs ∧
      (r = none ↔ ∃ code info, .err code info ∈ evs ∧
        (code = .totalGt256 ∨ code = .symCountMismatch ∨ code = .noSlot)) := by
  obtain ⟨v, hv, ho⟩ := execHbuild_cases t s
  have hv : Invalidated t s v := by
    rcases hv with ⟨rfl, h⟩ | ⟨rfl, h⟩
    · exact .idle h
    · exact .midCode h
  obtain ⟨htree, evs, hout, honly⟩ := hv.tree_out
  rcases ho with ⟨root, -, e⟩ | ⟨code, info, hc, -, e⟩
  · refine ⟨_, evs, some root, e, by simp [htree], by simp [hout], nofun, ?_⟩
    rintro ⟨code, info, hm, hc⟩
    cases honly code info hm
    simp at hc
  · exact ⟨_, evs ++ [.err code info], none, e, by simp [htree], by simp [hout],
      fun _ => ⟨code, info, by simp, hc⟩, fun _ => rfl⟩

/-- Settles O22: HBUILD writes its own slot alone; a tree there came from a build of the staged table, and the slot is
emptied by the very branch that raises a builder error. -/
theorem hbuildPublishesOrEmpties : Obligations.HbuildPublishesOrEmpties := by
  intro s t
  obtain ⟨u, evs, r, e, htree, hout, hr⟩ := execHbuild_tree_out t s
  refine ⟨u, evs, e, hout, fun k hk => ?_, fun root hroot => ?_, ?_⟩
  · simp [htree, Vector.getElem_set_ne, Fin.val_ne_of_ne hk.symm]
  · obtain ⟨hs, -, hb⟩ := execHbuild_tree e hroot
    exact ⟨builtFrom_stored hs hb, builtFrom_leafCount hb⟩
  · rw [← hr]
    simp [htree]

end Sys2Proof.Machine
end

section
/-! The host's side of the memory: a word delivered byte by byte (R65, R66), and the reserved addresses (R61). -/

namespace Sys2Proof.Machine

theorem deliverByte_keeps {s : State} (b : Byte) (h : s.link.length < 3) :
    deliverByte b s = { s with link := s.link ++ [b] } := by
  unfold deliverByte
  split
  next hl => simp [hl] at h
  · rfl

/-- With no byte kept, four bytes deliver their word and again leave no byte kept. -/
theorem deliverByte_four {s : State} (b0 b1 b2 b3 : Byte) (h : s.link = []) :
    deliverByte b3 (deliverByte b2 (deliverByte b1 (deliverByte b0 s))) = deliver (wordOfBytes b0 b1 b2 b3) s := by
  cases s
  cases h
  rfl

theorem decodeBytes_short {bytes : List Byte} (h : bytes.length < 4) : decodeBytes bytes = .error .partialWord := by
  unfold decodeBytes
  split
  · simp at h
    omega
  · rfl

/-- Settles O12: three bytes are kept and the fourth delivers the word they spell; a list of fewer than four bytes has
no word at its head. -/
theorem bytesDeliverWholeWords : Obligations.BytesDeliverWholeWords := by
  refine ⟨fun s w hl => ?_, fun s b h => deliverByte_keeps b h, fun bytes h => decodeBytes_short h⟩
  exact (deliverByte_four _ _ _ _ hl).trans (congrArg (deliver · s) (wordOfBytes_of_word w))

/-- Settles O56: a reserved address is above the registers and in none of the windows. -/
theorem reservedAddressesReadZero : Obligations.ReservedAddressesReadZero := by
  intro s a ha
  rw [readWord, if_neg (by omega), readWindow, dif_neg (by omega), dif_neg (by omega), dif_neg (by omega),
    dif_neg (by omega)]

end Sys2Proof.Machine
end

section
/-! DDEC over the codes of some symbols and a rest (R116, R134 to R139). However many codes the cursor's bits followed
by BITBUF begin with, the loop comes to a state that holds the rest and is on the way from the root again; what DDEC
does then depends on the rest alone. -/

namespace Sys2Proof.Machine

theorem exec_ddec {root : Node} {s : State} (n : Byte) (h : Decoding root s) :
    exec (.ddec n) s = completeWith (ddecLoop root n.toNat s.bitbuf.length (beginDecode s)) :=
  execDdec_decoding n h

/-- The state s after DDEC has emitted the symbols of the codes, BITBUF and the cursor aside (R134, R138). -/
def symbolsEmitted (codes : List (List Bool × Byte)) (s : State) : State :=
  { s with
    symout := (codes.getLast?.map (·.2)).getD s.symout
    symv := s.symv || !codes.isEmpty
    nemit := codes.length
    dstarved := false
    out := s.out ++ codes.map (fun c => .sym s.dslot c.2) }

theorem readCodes_beginDecode (codes : List (List Bool × Byte)) (rest : List Bool) (s : State) :
    readCodes codes rest (beginDecode s) =
      { symbolsEmitted codes s with bitbuf := rest, cdepth := 0, cpath := 0#16 } := by
  simp [readCodes, symbolsEmitted, beginDecode]

theorem symbolsEmitted_nil (s : State) : symbolsEmitted [] s = beginDecode s := by
  simp [symbolsEmitted, beginDecode]

/-- The state v holds the rest, partly in the cursor, which is on an `Interior`, after the symbols of the codes. -/
structure RestHeld (root : Node) (codes : List (List Bool × Byte)) (rest : List Bool) (s v : State) : Prop where
  frame : ∃ bits depth path, v = { symbolsEmitted codes s with bitbuf := bits, cdepth := depth, cpath := path }
  bits : cursorBits v ++ v.bitbuf = rest
  path : v.cpath.toNat < 2 ^ v.cdepth.val
  cursor : ∃ c0 c1, walk root (cursorBits v) = some (.interior c0 c1)

section Codes

variable {s : State} {root : Node} {codes : List (List Bool × Byte)} {rest : List Bool} {n : Byte}
  (hr : storedTree root = true) (hp : s.cpath.toNat < 2 ^ s.cdepth.val)
  (hi : ∃ c0 c1, cursorNode root s = some (.interior c0 c1))
  (hc : ∀ c ∈ codes, walk root c.1 = some (.leaf c.2))
  (hb : pathBits s.cpath.toNat s.cdepth.val ++ s.bitbuf = codes.flatMap (·.1) ++ rest)

include hr hi hc hb

/-- A budget that is not below the number of the codes lets the loop read them all. -/
theorem ddecLoop_reads_codes (hne : codes ≠ []) (hn : n.toNat = 0 ∨ codes.length ≤ n.toNat) :
    ddecLoop root n.toNat s.bitbuf.length (beginDecode s) =
      ddecLoop root n.toNat rest.length (readCodes codes rest (beginDecode s)) := by
  obtain ⟨c0, c1, hi⟩ := hi
  exact ddecLoop_readCodes hr n.toNat codes rest (beginDecode s) hne hi hc (by simpa using hn) hb

include hp

/-- With budget to spare the loop comes to the rest: at once without codes, and otherwise from the root. -/
theorem ddecLoop_reaches_rest (hn : n.toNat = 0 ∨ codes.length < n.toNat) :
    ∃ v, RestHeld root codes rest s v ∧
      ddecLoop root n.toNat s.bitbuf.length (beginDecode s) = ddecLoop root n.toNat v.bitbuf.length v := by
  by_cases hne : codes = []
  · subst hne
    exact ⟨beginDecode s, ⟨⟨_, _, _, by rw [symbolsEmitted_nil]⟩, hb, hp, hi⟩, rfl⟩
  · obtain ⟨a, b, hroot, -⟩ := storedTree_interior hr
    refine ⟨readCodes codes rest (beginDecode s), ⟨⟨_, _, _, readCodes_beginDecode ..⟩, rfl, Nat.one_pos, a, b, ?_⟩,
      ddecLoop_reads_codes hr hi hc hb hne (hn.imp_right Nat.le_of_lt)⟩
    rw [hroot]
    rfl

end Codes

section Rest

variable {s v : State} {root : Node} {codes : List (List Bool × Byte)} {rest : List Bool} {n : Nat}
  (hr : storedTree root = true) (hv : RestHeld root codes rest s v) (hn : n = 0 ∨ codes.length < n)

include hv hn

theorem RestHeld.budget_left : budgetReached n v.nemit = false := by
  obtain ⟨bits, depth, path, rfl⟩ := hv.frame
  exact budgetReached_false hn.symm

include hr

/-- A rest that leads to an `Interior` is kept as the partial code (R139). -/
theorem RestHeld.starves {c0 c1 : Node} (hw : walk root rest = some (.interior c0 c1)) :
    ∃ h : rest.length < 16, ddecLoop root n v.bitbuf.length v =
      .next { symbolsEmitted codes s with
        bitbuf := []
        cdepth := ⟨rest.length, h⟩
        cpath := BitVec.ofNat 16 (pathNumber rest)
        dstarved := true } := by
  have hbudget := hv.budget_left hn
  obtain ⟨⟨bits, depth, path, rfl⟩, rfl, hpath, -⟩ := hv
  obtain ⟨h, e⟩ := ddecLoop_partial hr hbudget hpath hw
  refine ⟨by simpa using h, e.trans ?_⟩
  simp [cursorBits]

/-- A rest that selects `Empty` ends the pass there (R137). -/
theorem RestHeld.fails {q tail : List Bool} {b : Bool} (hq : rest = q ++ b :: tail)
    (hw : walk root (q ++ [b]) = some .empty) :
    ddecLoop root n v.bitbuf.length v =
      .next { raise .incompleteTree
          (infoIncomplete s.dslot (q.length + 1) (BitVec.ofNat 16 (pathNumber (q ++ [b]))))
          (symbolsEmitted codes s) with
        bitbuf := tail
        ddead := true
        cdepth := 0
        cpath := 0#16 } := by
  have hbudget := hv.budget_left hn
  obtain ⟨⟨bits, depth, path, rfl⟩, rfl, hpath, c0, c1, hcursor⟩ := hv
  rw [ddecLoop_missing hr hbudget hpath hcursor hq hw]
  rfl

end Rest

/-- Settles O31: the loop reads the codes, and then the budget is used up, or the rest decides; every bit string is
codes and a rest by the shape of a stored tree. -/
theorem ddecEmitsTheSymbolsOfItsCodes : Obligations.DdecEmitsTheSymbolsOfItsCodes := by
  refine ⟨fun s root codes rest n hd hr hp hi hc hb => ⟨fun h0 hn => ?_, fun hn => ⟨fun c0 c1 hw => ?_, ?_⟩⟩,
    fun root bits hr => exists_codes hr bits⟩
  · have hne : codes ≠ [] := fun h => h0 (by rw [hn, h]; rfl)
    have hbudget : budgetReached n.toNat (readCodes codes rest (beginDecode s)).nemit = true := by
      simp [budgetReached, readCodes, hn, hne]
    rw [exec_ddec n hd, ddecLoop_reads_codes hr hi hc hb hne (.inr hn.ge), ddecLoop_budget hbudget,
      readCodes_beginDecode]
    rfl
  · obtain ⟨v, hv, e⟩ := ddecLoop_reaches_rest hr hp hi hc hb hn
    obtain ⟨h, e'⟩ := hv.starves hr hn hw
    exact ⟨h, by rw [exec_ddec n hd, e, e']; rfl⟩
  · intro q b tail hq hw
    obtain ⟨v, hv, e⟩ := ddecLoop_reaches_rest hr hp hi hc hb hn
    rw [exec_ddec n hd, e, hv.fails hr hn hq hw]
    rfl

end Sys2Proof.Machine
end

section
/-! Rows of the opcode map and illegal words (R81, R86 to R88). A word decodes to a command exactly along the command's
row, and two words of one row with the same operands are the same word. -/

namespace Sys2Proof

open BitVec

/-! ### What the opcode selects -/

/-- R87(a): the opcode is no row's. -/
def reservedOpc (o : BitVec 4) : Prop := o = 0x0#4 ∨ o = 0xD#4 ∨ o = 0xF#4

/-- One command of each row of R86. -/
def rowCommands : List Instr :=
  [.hclr, .hcnt 0 0#8, .hsym 0#8, .hbuild 0, .dsel 0, .drst false, .dbyte 0#8, .ddec 0#8, .zclr, .zpush 0#16, .zrun 0,
    .zmap 0, .eclr]

theorem reservedOpc_or_row (o : BitVec 4) : reservedOpc o ∨ ∃ i ∈ rowCommands, o = i.opc := by
  unfold reservedOpc
  revert o
  decide

theorem Instr.opc_not_reserved (i : Instr) : ¬ reservedOpc i.opc := by
  cases i <;> simp [Instr.opc, reservedOpc]

@[simp] theorem Instr.opc_reread (w : Word) (i : Instr) : (i.reread w).opc = i.opc := by cases i <;> rfl

@[simp] theorem Instr.format_reread (w : Word) (i : Instr) : (i.reread w).format = i.format := by cases i <;> rfl

theorem decode_of_opcode {w : Word} {i : Instr} (h : opcode w = i.opc) :
    decode w = checkReserved i.format w (i.reread w) := by
  rw [decode, h]
  cases i <;> rfl

theorem decode_of_reservedOpc {w : Word} (h : reservedOpc (opcode w)) : decode w = .error .reservedOpcode := by
  obtain h | h | h := h <;> rw [decode, h] <;> rfl

/-- The opcode of a word selects a row, whose reserved bits are then checked, or it is reserved (R86, R87). -/
theorem decode_cases (w : Word) :
    (∃ i : Instr, opcode w = i.opc ∧ decode w = checkReserved i.format w i) ∨
      (reservedOpc (opcode w) ∧ decode w = .error .reservedOpcode) := by
  obtain h | ⟨i, -, h⟩ := reservedOpc_or_row (opcode w)
  · exact .inr ⟨h, decode_of_reservedOpc h⟩
  · exact .inl ⟨i.reread w, by simpa using h, by simpa using decode_of_opcode h⟩

theorem checkReserved_ok {f : Format} {w : Word} {i j : Instr} (h : checkReserved f w i = .ok j) :
    w &&& f.reserved = 0#32 ∧ i = j := by
  unfold checkReserved at h
  split at h
  next hr => cases h; exact ⟨hr, rfl⟩
  · cases h

theorem checkReserved_error {f : Format} {w : Word} {i : Instr} {e : DecodeError} (h : checkReserved f w i = .error e) :
    e = .reservedBits := by
  unfold checkReserved at h
  split at h <;> cases h
  rfl

/-! ### A word that decodes is of its command's row -/

/-- The mask of a row covers the opcode and the reserved bits of its format. -/
theorem Instr.maskWord_eq (i : Instr) : i.maskWord = (allOnes 4 ++ 0#28) ||| i.format.reserved := by
  cases i <;> simp only [Instr.maskWord, Instr.format, Format.reserved] <;> decide

theorem Instr.matchWord_eq (i : Instr) : i.matchWord = i.opc ++ 0#28 := by
  cases i <;> simp only [Instr.matchWord, Instr.opc] <;> decide

theorem and_opcode_mask (w : Word) : w &&& (allOnes 4 ++ 0#28) = opcode w ++ 0#28 := by
  have hw : opcode w ++ w.extractLsb' 0 28 = w := extractLsb'_append_extractLsb' (w := 4) (len := 28)
  have hand : (opcode w ++ w.extractLsb' 0 28) &&& (allOnes 4 ++ 0#28) = opcode w ++ 0#28 := by
    rw [Laws.Row.mask_field, and_allOnes]
  rwa [hw] at hand

theorem row_of_decode {w : Word} {i : Instr} (h : decode w = .ok i) : w &&& i.maskWord = i.matchWord := by
  obtain ⟨j, ho, e⟩ | ⟨-, e⟩ := decode_cases w
  · obtain ⟨hr, rfl⟩ := checkReserved_ok (e.symm.trans h)
    rw [j.maskWord_eq, and_or_distrib_left, hr, or_zero, and_opcode_mask, ho, j.matchWord_eq]
  · cases e.symm.trans h

/-! ### One word for a row and its operands -/

/-- Words of l + k bits that agree under the mask of their l high bits and in the k bits below are the same. -/
theorem eq_of_mask_of_low {l k : Nat} {w v : BitVec (l + k)} (h : w &&& (allOnes l ++ 0#k) = v &&& (allOnes l ++ 0#k))
    (hlow : w.extractLsb' 0 k = v.extractLsb' 0 k) : w = v := by
  have high : ∀ x : BitVec (l + k), (x &&& (allOnes l ++ 0#k)).extractLsb' k l = x.extractLsb' k l := fun x => by
    rw [extractLsb'_and, extractLsb'_append_eq_left, and_allOnes]
  calc w = w.extractLsb' k l ++ w.extractLsb' 0 k := extractLsb'_append_extractLsb'.symm
    _ = v.extractLsb' k l ++ v.extractLsb' 0 k := by rw [← high w, h, high v, hlow]
    _ = v := extractLsb'_append_extractLsb'

/-- The operand bits of format LC are its two fields. -/
theorem extractLsb'_LC (w : Word) : w.extractLsb' 0 12 = w.extractLsb' 8 4 ++ fieldImm8 w :=
  (extractLsb'_append_extractLsb'_eq_extractLsb' (start₁ := 0) (len₁ := 8) rfl).symm

/-- The operand bit of format F1 is its field. -/
theorem extractLsb'_F1 (w : Word) : w.extractLsb' 0 1 = BitVec.ofBool (fieldF1 w) := by
  ext j hj
  obtain rfl : j = 0 := by omega
  simp [fieldF1]

/-- The mask of a row leaves out the operand bits alone, so its words are told apart by their operands. -/
theorem eq_of_row_of_reread {w v : Word} (i : Instr) (hw : w &&& i.maskWord = i.matchWord)
    (hv : v &&& i.maskWord = i.matchWord) (h : i.reread w = i.reread v) : w = v := by
  have hwv := hw.trans hv.symm
  cases i with
  | hclr | zclr | eclr => exact eq_of_mask_of_low (l := 32) (k := 0) hwv (by simp)
  | hcnt _ _ =>
    obtain ⟨hl4, hn⟩ := Instr.hcnt.inj h
    exact eq_of_mask_of_low (l := 20) (k := 12) hwv (by rw [extractLsb'_LC, extractLsb'_LC, toFin_inj.1 hl4, hn])
  | hsym _ => exact eq_of_mask_of_low (l := 24) (k := 8) hwv (Instr.hsym.inj h)
  | hbuild _ => exact eq_of_mask_of_low (l := 29) (k := 3) hwv (toFin_inj.1 (Instr.hbuild.inj h))
  | dsel _ => exact eq_of_mask_of_low (l := 29) (k := 3) hwv (toFin_inj.1 (Instr.dsel.inj h))
  | drst _ =>
    exact eq_of_mask_of_low (l := 31) (k := 1) hwv (by rw [extractLsb'_F1, extractLsb'_F1, Instr.drst.inj h])
  | dbyte _ => exact eq_of_mask_of_low (l := 24) (k := 8) hwv (Instr.dbyte.inj h)
  | ddec _ => exact eq_of_mask_of_low (l := 24) (k := 8) hwv (Instr.ddec.inj h)
  | zpush _ => exact eq_of_mask_of_low (l := 16) (k := 16) hwv (Instr.zpush.inj h)
  | zrun _ => exact eq_of_mask_of_low (l := 30) (k := 2) hwv (toFin_inj.1 (Instr.zrun.inj h))
  | zmap _ => exact eq_of_mask_of_low (l := 26) (k := 6) hwv (toFin_inj.1 (Instr.zmap.inj h))

/-- Settles O9: a word that decodes meets its command's row with the command's operands, and so does the encoding. -/
theorem decodedWordIsItsEncoding : Obligations.DecodedWordIsItsEncoding := by
  intro w i h
  have hrow := row_of_decode h
  have hread : i.reread w = i := Except.ok.inj ((decode_of_row hrow).symm.trans h)
  exact ⟨eq_of_row_of_reread i (encode_row i) hrow ((reread_encode i).trans hread.symm), hrow⟩

/-! ### Illegal words (R87, R88) -/

theorem illegal_iff_no_row (w : Word) :
    (∃ e, decode w = .error e) ↔ ∀ i : Instr, w &&& i.maskWord ≠ i.matchWord := by
  constructor
  · rintro ⟨e, he⟩ i hrow
    cases he.symm.trans (decode_of_row hrow)
  · intro h
    cases hw : decode w with
    | error e => exact ⟨e, rfl⟩
    | ok i => exact absurd (row_of_decode hw) (h i)

/-- Two rows that a word meets are the row of the command it decodes to. -/
theorem row_unique {w : Word} {i j : Instr} (hi : w &&& i.maskWord = i.matchWord)
    (hj : w &&& j.maskWord = j.matchWord) : i.matchWord = j.matchWord ∧ i.maskWord = j.maskWord := by
  have hij : i.reread w = j.reread w := Except.ok.inj ((decode_of_row hi).symm.trans (decode_of_row hj))
  have hopc : i.opc = j.opc := by rw [← i.opc_reread w, hij, j.opc_reread]
  have hformat : i.format = j.format := by rw [← i.format_reread w, hij, j.format_reread]
  exact ⟨by rw [i.matchWord_eq, j.matchWord_eq, hopc], by rw [i.maskWord_eq, j.maskWord_eq, hformat]⟩

/-- A whole word is refused for its opcode or for a reserved bit under another opcode (R87). -/
theorem decode_error {w : Word} {e : DecodeError} (h : decode w = .error e) :
    e = .reservedOpcode ∧ reservedOpc (opcode w) ∨ e = .reservedBits ∧ ¬ reservedOpc (opcode w) := by
  obtain ⟨i, ho, hd⟩ | ⟨ho, hd⟩ := decode_cases w
  · exact .inr ⟨checkReserved_error (hd.symm.trans h), ho ▸ i.opc_not_reserved⟩
  · cases hd.symm.trans h
    exact .inl ⟨rfl, ho⟩

theorem decode_reservedOpcode_iff (w : Word) : decode w = .error .reservedOpcode ↔ reservedOpc (opcode w) :=
  ⟨fun h => by simpa using decode_error h, decode_of_reservedOpc⟩

/-- Settles O10: a word of a row decodes, and what decodes is of a row; a word of two rows decodes to one command; a
refusal is for the opcode or for a reserved bit. -/
theorem illegalExactlyWhenNoRowMatches : Obligations.IllegalExactlyWhenNoRowMatches := fun w =>
  ⟨illegal_iff_no_row w, fun _ _ => row_unique, decode_reservedOpcode_iff w, fun h => by simpa using decode_error h⟩

/-- Settles O11: the examples are the encodings of their commands, and the last has a reserved bit of format LC. -/
theorem encodingExamples : Obligations.EncodingExamples :=
  ⟨decode_encode (.hcnt 1 3#8), decode_encode (.hsym 0x41#8), decode_encode (.hbuild 5), decode_encode (.dsel 5),
    decode_encode (.drst true), decode_encode (.dbyte 0xA5#8), decode_encode (.ddec 0#8),
    decode_encode (.zpush 0x1234#16), decode_encode (.zrun 3), decode_encode (.zmap 63), decode_encode .eclr,
    decode_of_opcode (i := .hcnt 0 0#8) rfl⟩

end Sys2Proof
end

section
/-! The assembler (R90, R91): a line has words exactly when it is well formed, a command's own line is its word alone,
and HTABLE's counts are taken in increasing length. -/

namespace Sys2Proof.Machine

/-! ### Lines of one command -/

theorem assemble_of_wellFormed {l : Source} (h : l.wellFormed = true) : assemble l = some (expand l) := if_pos h

theorem assembleWords_of_wellFormed {l : Source} (h : l.wellFormed = true) :
    assembleWords l = some ((expand l).map encode) := by
  rw [assembleWords, assemble_of_wellFormed h]
  rfl

/-- A line has no word exactly when it is not well formed (R90). -/
@[simp] theorem assembleWords_eq_none {l : Source} : assembleWords l = none ↔ l.wellFormed = false := by
  cases h : l.wellFormed <;> simp [assembleWords, assemble, h]

@[simp] theorem slotOf_num (t : Slot) : slotOf (.num t.val) = t := Fin.ext (Nat.mod_eq_of_lt t.isLt)

theorem expand_source (i : Instr) : expand i.source = [i] := by
  cases i with
  | drst f => cases f <;> rfl
  | _ => simp [expand, Instr.source]

theorem assembleWords_source (i : Instr) : assembleWords i.source = some [encode i] := by
  rw [assembleWords_of_wellFormed (wellFormed_instr i), expand_source]
  rfl

/-- The name of a slot (R9, R90). -/
def nameOfSlot (t : Slot) : SlotName := if t.val < 4 then .dc t.val else .ac (t.val - 4)

theorem nameOfSlot_names (t : Slot) : (nameOfSlot t).wellFormed = true ∧ slotOf (nameOfSlot t) = t := by
  revert t
  decide

/-- Settles O13: a command's own line is well formed and stands for the command; the ranges are those of
`Source.wellFormed`, and each name is that of its slot. -/
theorem sourceLinesAssemble : Obligations.SourceLinesAssemble := by
  refine ⟨assembleWords_source, fun L n => ?_, fun v => ?_, fun t => ?_, fun k => ?_, fun t => ?_,
    fun l => assembleWords_eq_none.2⟩
  · simp only [assembleWords_eq_none, Source.wellFormed, Bool.and_eq_false_iff, decide_eq_false_iff_not]
    omega
  · simp [Source.wellFormed]
  · simp [Source.wellFormed, SlotName.wellFormed]
  · simp [Source.wellFormed, SlotName.wellFormed]
  · obtain ⟨hwf, hslot⟩ := nameOfSlot_names t
    have hbuild : assembleWords (.hbuild (nameOfSlot t)) = some [encode (.hbuild (slotOf (nameOfSlot t)))] :=
      assembleWords_of_wellFormed hwf
    have hsel : assembleWords (.dsel (nameOfSlot t)) = some [encode (.dsel (slotOf (nameOfSlot t)))] :=
      assembleWords_of_wellFormed hwf
    rw [hslot] at hbuild hsel
    exact ⟨hbuild, hsel⟩

/-! ### Pseudo-instructions -/

/-- The HCNT of a count of the codes of length L, if the count is not 0 (R91). -/
def countCommand (c L : Nat) : Option Instr :=
  if c = 0 then none else some (.hcnt (Fin.ofNat 16 (L - 1)) (BitVec.ofNat 8 c))

theorem countCommands_eq (L : Nat) (counts : List Nat) :
    countCommands L counts = (counts.zipIdx L).filterMap (fun p => countCommand p.1 p.2) := by
  induction counts generalizing L with
  | nil => rfl
  | cons c cs ih =>
    rw [countCommands, ih, List.zipIdx_cons, List.filterMap_cons]
    by_cases hc : c = 0 <;> simp [countCommand, hc]

/-- Sixteen counts, each with its length, by the index of the length. -/
theorem zipIdx_sixteen {counts : List Nat} (h : counts.length = 16) :
    counts.zipIdx 1 = (List.finRange 16).map (fun L => (counts[L.val]?.getD 0, L.val + 1)) := by
  refine List.ext_getElem (by simp [h]) fun k hk _ => ?_
  rw [List.length_zipIdx] at hk
  simp [hk, Nat.add_comm]

theorem countCommands_sixteen {counts : List Nat} (h : counts.length = 16) :
    countCommands 1 counts = (List.finRange 16).filterMap (fun L =>
      if counts[L.val]?.getD 0 = 0 then none else some (.hcnt L (BitVec.ofNat 8 (counts[L.val]?.getD 0)))) := by
  rw [countCommands_eq, zipIdx_sixteen h, List.filterMap_map]
  refine congrArg (List.filterMap · _) (funext fun L => ?_)
  simp [countCommand]

/-- Settles O14: the expansions are the definition's, and HTABLE's counts are numbered by their lengths. -/
theorem pseudoInstructionsExpand : Obligations.PseudoInstructionsExpand := by
  refine ⟨fun t counts syms h => ⟨countCommands 1 counts, assemble_of_wellFormed h, countCommands_sixteen ?_⟩,
    fun bytes h => assemble_of_wellFormed h, rfl, rfl, fun vs h => assemble_of_wellFormed h⟩
  simp only [Source.wellFormed, Bool.and_eq_true, decide_eq_true_eq] at h
  obtain ⟨⟨⟨-, hlength⟩, -⟩, -⟩ := h
  exact hlength

end Sys2Proof.Machine
end

section
/-! The staged table (R22 to R26): HCLR, HCNT and HSYM (R101 to R103). -/

namespace Sys2Proof.Machine

/-- Settles O15: HCLR is the clearing of the staged table. -/
theorem hclrClearsTheStagedTable : Obligations.HclrClearsTheStagedTable := fun _ => rfl

/-- Writing one count moves SUMCNT by the difference (R23). -/
theorem sumCounts_set (hcount : Vector Byte 16) (i : Fin 16) (n : Byte) :
    sumCounts (hcount.set i n) + hcount[i].toNat = sumCounts hcount + n.toNat := by
  have hi : i.val < (hcount.toList.map BitVec.toNat).length := by simp
  have hold : sumCounts hcount = ((hcount.toList.map BitVec.toNat).take i.val).sum +
      (hcount[i].toNat + ((hcount.toList.map BitVec.toNat).drop (i.val + 1)).sum) := by
    rw [sumCounts, ← List.sum_take_add_sum_drop _ i.val, List.drop_eq_getElem_cons hi]
    simp
  rw [hold, sumCounts, Vector.toList_set, List.map_set, List.sum_set, if_pos hi]
  omega

/-- Settles O16: HCNT is the writing of one count. -/
theorem hcntSetsOneCount : Obligations.HcntSetsOneCount := by
  intro s l4 n
  refine ⟨advance (setCount l4 n s), rfl, rfl, by simp, fun j hj => ?_, sumCounts_set s.hcount l4 n⟩
  simp [Vector.getElem_set_ne, Fin.val_ne_of_ne hj.symm]

/-- Settles O17: the two cases of HSYM exclude each other, and the dropped symbol is its own information word. -/
theorem hsymAppendsOrPoisons : Obligations.HsymAppendsOrPoisons := by
  refine ⟨fun s v h => ?_, fun s v h => ?_⟩
  · obtain ⟨_, e⟩ | ⟨hfull, -⟩ := execHsym_cases v s
    · exact e
    · omega
  · obtain ⟨hroom, -⟩ | ⟨-, e⟩ := execHsym_cases v s
    · omega
    · rw [← infoSymbuf_eq]
      exact e

end Sys2Proof.Machine
end

section
/-! HBUILD away from the rebuild hazard (R112 steps 2 to 4): what its construction answers decides the next state. -/

namespace Sys2Proof.Machine

variable {t : Slot} {s : State}

theorem exec_hbuild_idle (hm : ¬ MidCode t s) :
    exec (.hbuild t) s = .next (advance (clearStaging (publish t s))) :=
  (execHbuild_eq t s).trans (by rw [invalidateCursor_idle hm])

/-- A construction that answers a tree: the slot holds it and the staging is discarded. -/
theorem exec_hbuild_ok {root : Node} (hm : ¬ MidCode t s) (h : buildOutcome t s = .ok root) :
    exec (.hbuild t) s = .next (advance (clearStaging (storeTree t (some root) s))) := by
  rw [exec_hbuild_idle hm, publish, h]

/-- A construction that answers an error: it is raised, the slot is empty and the staging is discarded. -/
theorem exec_hbuild_error {code : ErrCode} {info : Word} (hm : ¬ MidCode t s)
    (h : buildOutcome t s = .error (code, info)) :
    exec (.hbuild t) s = .next (advance (clearStaging (storeTree t none (raise code info s)))) := by
  rw [exec_hbuild_idle hm, publish, h]

theorem buildOutcome_total (h : s.hpoison = true ∨ 256 < sumcnt s) :
    buildOutcome t s = .error (.totalGt256, infoTotal t s.hpoison (sumcnt s)) := if_pos h

theorem buildOutcome_mismatch (hp : s.hpoison = false) (htotal : sumcnt s ≤ 256) (h : s.symcnt.val ≠ sumcnt s) :
    buildOutcome t s = .error (.symCountMismatch, infoMismatch t (sumcnt s) s.symcnt) :=
  (if_neg (by simp [hp, htotal])).trans (if_pos h)

/-- Settles O19: the two structural checks, in R207's order. -/
theorem hbuildRefusesABadCodeLengthTable : Obligations.HbuildRefusesABadCodeLengthTable :=
  ⟨fun _ _ hm h => exec_hbuild_error hm (buildOutcome_total h),
    fun _ _ hm hp htotal h => exec_hbuild_error hm (buildOutcome_mismatch hp htotal h)⟩

/-- Within the Kraft inequality HBUILD stores the tree that `BuiltFrom` describes. -/
theorem exec_hbuild_within (hm : ¬ MidCode t s) (hs : Staged s) (hk : kraftSum s.hcount ≤ 65536) :
    ∃ root, BuiltFrom s root ∧
      exec (.hbuild t) s = .next (advance (clearStaging (storeTree t (some root) s))) := by
  obtain ⟨root, hb, hbuilt⟩ := build_within hs hk
  exact ⟨root, hbuilt, exec_hbuild_ok hm (by rw [buildOutcome_staged t hs, hb])⟩

/-- Beyond the Kraft inequality HBUILD raises NO_SLOT where `FailsAt` says. -/
theorem exec_hbuild_beyond (hm : ¬ MidCode t s) (hs : Staged s) (hk : 65536 < kraftSum s.hcount) :
    ∃ (L k : Nat) (hlt : k < 256), FailsAt s L k ∧
      exec (.hbuild t) s =
        .next (advance (clearStaging (storeTree t none (raise .noSlot (infoNoSlot t L k s.symbuf[k]) s)))) := by
  obtain ⟨L, k, hlt, hfails, hb⟩ := build_beyond hs hk
  exact ⟨L, k, hlt, hfails, exec_hbuild_error hm (by rw [buildOutcome_staged t hs, hb])⟩

/-- Settles O20: within the Kraft inequality every symbol is placed, each at its canonical code. -/
theorem hbuildBuildsTheCanonicalCode : Obligations.HbuildBuildsTheCanonicalCode := by
  intro s t hm hs hk
  obtain ⟨root, hbuilt, e⟩ := exec_hbuild_within hm hs hk
  refine ⟨root, e, builtFrom_stored hs hbuilt, builtFrom_leafCount hbuilt, fun k hk hlt => ?_⟩
  obtain ⟨code, hcode, -, hleaf⟩ := builtFrom_leaf hs hbuilt hk hlt
  exact ⟨code, hcode, hleaf⟩

/-- Settles O21: a tree in the slot came from a build within the Kraft inequality, and beyond it the first length that
is overfull and the first code too long for it are where placement fails. -/
theorem hbuildSucceedsExactlyWithinKraft : Obligations.HbuildSucceedsExactlyWithinKraft := by
  intro s t hm hs
  refine ⟨⟨fun ⟨u, e, hu⟩ => ?_, fun hk => ?_⟩, fun hk => ?_⟩
  · obtain ⟨root, hroot⟩ := Option.isSome_iff_exists.1 hu
    obtain ⟨-, hk, -⟩ := execHbuild_tree e hroot
    exact hk
  · obtain ⟨root, -, e⟩ := exec_hbuild_within hm hs hk
    exact ⟨_, e, by simp⟩
  · obtain ⟨L, k, hlt, hf, e⟩ := exec_hbuild_beyond hm hs hk
    obtain ⟨⟨hL, hL'⟩, hover, hfirst, hindex, hlength, hcode, hbefore⟩ := hf
    exact ⟨L, k, hlt, hL, hL', hover, hfirst, hindex, hlength, hcode, hbefore, e⟩

end Sys2Proof.Machine
end

section
/-! The tree a successful HBUILD stores (R113), the size of stored trees (R117) and the walks in them (R116). -/

namespace Sys2Proof.Machine

/-- Settles O24: the tree came from a build, so it has the shape of a stored one, and its symbols stand at codes of
their lengths. -/
theorem hbuildStoresAProperCode : Obligations.HbuildStoresAProperCode := by
  intro s u t root e hroot
  obtain ⟨hs, -, hbuilt⟩ := execHbuild_tree e hroot
  have hstored := builtFrom_stored hs hbuilt
  refine ⟨?_, fun p c0 c1 hw => ⟨storedTree_depth hstored hw, fun hp => ?_⟩, fun k hk hlt => ?_,
    fun p q v w => walk_past_leaf, builtFrom_leafCount hbuilt⟩
  · obtain ⟨a, b, hab, -⟩ := storedTree_interior hstored
    exact ⟨a, b, hab⟩
  · obtain ⟨i, p, rfl⟩ := List.exists_cons_of_ne_nil hp
    exact storedTree_leaf_below hstored hw
  · obtain ⟨code, -, hlength, hleaf⟩ := builtFrom_leaf hs hbuilt hk hlt
    exact ⟨code, hlength, hleaf⟩

theorem lt_of_mem_lengthsFrom {first L : Nat} {ns : List Byte} (h : L ∈ lengthsFrom first ns) :
    L < first + ns.length := by
  induction ns generalizing first with
  | nil => cases h
  | cons n ns ih =>
    rw [List.length_cons]
    rcases List.mem_append.1 h with h | h
    · have := List.eq_of_mem_replicate h
      omega
    · have := ih h
      omega

/-- The levels between the root and the leaves of the staged symbols: at most 15 for each (R117). -/
theorem sum_codeLengths_le (s : State) : ((codeLengths s.hcount).map (· - 1)).sum ≤ sumcnt s * 15 := by
  have hlevels : ∀ d ∈ (codeLengths s.hcount).map (· - 1), d ≤ 15 := by
    intro d hd
    obtain ⟨L, hL, rfl⟩ := List.mem_map.1 hd
    have hlt := lt_of_mem_lengthsFrom hL
    rw [Vector.length_toList] at hlt
    omega
  simpa [codeLengths, sumcnt, sumCounts] using List.sum_le_card_nsmul _ 15 hlevels

/-- Settles O25: each placement adds a leaf and at most L − 1 `Interior`s, and a tree of a stored one's shape has at
most 15 `Interior`s above each leaf. -/
theorem storedTreesFitTheStorageBound : Obligations.StoredTreesFitTheStorageBound := by
  refine ⟨fun s u t root e hroot => ?_, fun root h => ?_⟩
  · obtain ⟨hs, -, hbuilt⟩ := execHbuild_tree e hroot
    have htotal := hs.total
    have hsum := sum_codeLengths_le s
    exact ⟨(builtFrom_leafCount hbuilt).le, htotal, builtFrom_interiorCount hbuilt, by omega⟩
  · obtain ⟨-, -, -, -, -, -, hleaves⟩ := storedTree_interior h
    have hnodes := storedTree_interiorCount h
    exact ⟨hleaves, by omega⟩

/-- Settles O26: the first bit leads from the root to a child, with 15 levels below it for the other bits. -/
theorem walksEndWithinSixteenBits : Obligations.WalksEndWithinSixteenBits := by
  intro root bits hstored hlength
  obtain ⟨a, b, rfl, -, ha, hb, -⟩ := storedTree_interior hstored
  obtain ⟨i, rest, rfl⟩ := List.exists_cons_of_length_eq_add_one hlength
  have hchild : properBelow 15 (if i then b else a) = true := by cases i <;> simpa
  obtain ⟨d, hd, hend, hpass⟩ := properBelow_walk_ends (bits := rest) hchild (by simpa using hlength.ge)
  refine ⟨d + 1, by omega, by omega, by simpa using hend, fun e he => ?_⟩
  cases e with
  | zero => exact ⟨a, b, by simp⟩
  | succ e => simpa using hpass e (by omega)

end Sys2Proof.Machine
end

section
/-! A drain split in two (R139). With no budget the loop reads neither NEMIT nor CI, so a second drain goes on exactly
where the first one starved. -/

namespace Sys2Proof.Machine

/-- A DDEC that decodes and completes has run its loop. -/
theorem exec_ddec_next {root : Node} {n : Byte} {s t : State} (hd : Decoding root s) (h : exec (.ddec n) s = .next t) :
    ∃ u, ddecLoop root n.toNat s.bitbuf.length (beginDecode s) = .next u ∧ t = advance u :=
  completeWith_next ((exec_ddec n hd).symm.trans h)

/-- A drain that leaves the pass alive has starved: no error stopped it, and it has no budget to reach. -/
theorem LoopEffect.starved {root : Node} {s u : State} (h : LoopEffect root 0 s u) (hlive : u.ddead = false) :
    u.bitbuf = [] ∧ u.dstarved = true ∧ u.err = s.err ∧ u.errinfo = s.errinfo := by
  obtain ⟨_, _, _, _, -, -, -, -, -, -, -, -, hend⟩ := h.consumed
  rcases hend with ⟨-, herr, hinfo, -, -, ⟨hstarved, hbits⟩ | ⟨-, hbudget⟩⟩ | ⟨_, _, -, -, hdead, -⟩
  · exact ⟨hbits, hstarved, herr, hinfo⟩
  · exact absurd hbudget (by simp [budgetReached])
  · exact absurd (hlive.symm.trans hdead) nofun

/-- Settles O34: the drain of all the bits comes to the state in which the second drain begins, but for NEMIT and CI,
which the loop without a budget only carries along. -/
theorem splitBitsDecodeAsIfTogether : Obligations.SplitBitsDecodeAsIfTogether := by
  intro s t1 t2 root xs ys hd h1 hlive
  obtain ⟨u, hu, rfl⟩ := exec_ddec_next (s := { s with bitbuf := xs }) ⟨hd.alive, hd.bound, hd.table⟩ h1
  have heffect : LoopEffect root 0 (beginDecode { s with bitbuf := xs }) u := ddecLoop_effect (le_refl xs.length) hu
  obtain ⟨hbits, hstarved, herr, hinfo⟩ := heffect.starved hlive
  refine ⟨hbits, hstarved, herr, hinfo, fun h2 => ?_⟩
  obtain ⟨hci, hbound, hslot, htree⟩ :
      u.ci = s.ci ∧ u.dbound = s.dbound ∧ u.dslot = s.dslot ∧ u.tree = s.tree := by
    rw [heffect.frame]
    exact ⟨rfl, rfl, rfl, rfl⟩
  have hd2 : Decoding root { advance u with bitbuf := ys } :=
    ⟨hlive, hbound.trans hd.bound, by simpa [hslot, htree] using hd.table⟩
  obtain ⟨u2, hu2, rfl⟩ := exec_ddec_next hd2 h2
  have htogether : ddecLoop root 0 (xs ++ ys).length (beginDecode { s with bitbuf := xs ++ ys }) =
      .next { u2 with nemit := u.nemit + u2.nemit, ci := u.ci } := by
    rw [List.length_append]
    exact (ddecLoop_append xs ys rfl hu hlive).trans (ddecLoop_nemit u.nemit u.ci ys.length hu2)
  rw [exec_ddec 0#8 (s := { s with bitbuf := xs ++ ys }) ⟨hd.alive, hd.bound, hd.table⟩]
  exact (congrArg completeWith htogether).trans (by rw [hci]; rfl)

end Sys2Proof.Machine
end

section
/-! The round trip (R142). The canonical codes that BITBUF begins with are codes of the tree HBUILD stored, so DDEC reads
them as any codes. -/

namespace Sys2Proof.Machine

/-- Only a symbol of the staged table has a canonical code. -/
theorem lt_of_canonicalCode {s : State} {k : Nat} {code : List Bool} (h : canonicalCode s.hcount k = some code) :
    k < sumcnt s := by
  rw [canonicalCode] at h
  split at h
  · next hlen =>
    simpa [codeLengths, sumcnt, sumCounts] using (List.getElem?_eq_some_iff.1 hlen).1
  · cases h

/-- The canonical code of a symbol leads to it in the tree HBUILD stored (R114). -/
theorem walk_canonicalCode {s : State} {root : Node} (hs : Staged s) (hb : BuiltFrom s root) {k : Fin 256}
    {code : List Bool} (h : canonicalCode s.hcount k.val = some code) : walk root code = some (.leaf s.symbuf[k]) := by
  obtain ⟨code', hcode, -, hleaf⟩ := builtFrom_leaf hs hb k.isLt (lt_of_canonicalCode h)
  cases h.symm.trans hcode
  exact hleaf

/-- The staged symbols k, each with its canonical code. -/
def codedSymbols (s : State) (ks : List (Fin 256)) : List (List Bool × Byte) :=
  ks.map (fun k => ((canonicalCode s.hcount k.val).getD [], s.symbuf[k]))

theorem codedSymbols_leaf {s : State} {root : Node} {ks : List (Fin 256)} {codes : List (List Bool)} (hs : Staged s)
    (hb : BuiltFrom s root) (h : ks.map (fun k => canonicalCode s.hcount k.val) = codes.map some) :
    ∀ c ∈ codedSymbols s ks, walk root c.1 = some (.leaf c.2) := by
  intro c hc
  obtain ⟨k, hk, rfl⟩ := List.mem_map.1 hc
  obtain ⟨code, -, hcode⟩ := List.mem_map.1 (h ▸ List.mem_map_of_mem hk)
  rw [← hcode]
  exact walk_canonicalCode hs hb hcode.symm

theorem codedSymbols_flatMap {s : State} {ks : List (Fin 256)} {codes : List (List Bool)}
    (h : ks.map (fun k => canonicalCode s.hcount k.val) = codes.map some) :
    (codedSymbols s ks).flatMap (·.1) = codes.flatten := by
  have hcodes : (codedSymbols s ks).map (·.1) = codes := by
    have := congrArg (List.map (·.getD [])) h
    simpa [codedSymbols, Function.comp_def] using this
  rw [List.flatMap_def, hcodes]

/-- A budget of as many symbols as there are codes: DDEC reads the codes and stops at the root (R135). -/
theorem exec_ddec_codes {v : State} {root : Node} {codes : List (List Bool × Byte)} {rest : List Bool} {m : Byte}
    (hd : Decoding root v) (hr : storedTree root = true) (hdepth : v.cdepth.val = 0)
    (hc : ∀ c ∈ codes, walk root c.1 = some (.leaf c.2)) (hb : v.bitbuf = codes.flatMap (·.1) ++ rest)
    (hne : codes ≠ []) (hm : m.toNat = codes.length) :
    exec (.ddec m) v =
      .next (advance { symbolsEmitted codes v with bitbuf := rest, cdepth := 0, cpath := 0#16 }) := by
  have hbudget : budgetReached m.toNat (readCodes codes rest (beginDecode v)).nemit = true := by
    simp [budgetReached, readCodes, hm, hne]
  have hbits : pathBits v.cpath.toNat v.cdepth.val ++ v.bitbuf = codes.flatMap (·.1) ++ rest := by
    rw [hdepth]; exact hb
  rw [exec_ddec m hd, ddecLoop_reads_codes hr (cursorNode_root hr hdepth) hc hbits hne (.inr hm.ge),
    ddecLoop_budget hbudget, readCodes_beginDecode]
  rfl

/-- Settles O35: the tree in the slot is the one that was built, in which each canonical code leads to its symbol. -/
theorem builtTableRoundTrip : Obligations.BuiltTableRoundTrip := by
  intro s u v t ks codes rest m _ hs hbuild hsome htree hbound hslot hlive hdepth hcodes hm hne hbits
  obtain ⟨root, hroot⟩ := Option.isSome_iff_exists.1 hsome
  obtain ⟨-, -, hbuilt⟩ := execHbuild_tree hbuild hroot
  have hd : Decoding root v := ⟨hlive, hbound, by subst hslot; exact htree.trans hroot⟩
  have hread := exec_ddec_codes (rest := rest) hd (builtFrom_stored hs hbuilt) hdepth (codedSymbols_leaf hs hbuilt hcodes)
    (by rw [codedSymbols_flatMap hcodes, hbits]) (by simpa [codedSymbols] using hne) (by simpa [codedSymbols] using hm)
  exact ⟨_, hread, by simp [symbolsEmitted, codedSymbols, hslot], rfl, rfl, hlive⟩

end Sys2Proof.Machine
end

section
/-! A DDEC of one stretch of bits (R134, R135, R137, R139): the bits lead from the cursor to an `Interior` or run into
`Empty`, whatever the shape of the tree. -/

namespace Sys2Proof.Machine

/-- No budget is reached before the first symbol (R85). -/
theorem budgetReached_zero (n : Nat) : budgetReached n 0 = false := budgetReached_false (Nat.eq_zero_or_pos n).symm

/-- All the bits lead from the cursor to an `Interior`: the loop walks there and starves. -/
theorem ddecLoop_walk_all {root x y : Node} {n : Nat} {s : State} (hn : budgetReached n s.nemit = false)
    (hd : s.cdepth.val + s.bitbuf.length < 16) (hw : walk root (cursorBits s ++ s.bitbuf) = some (.interior x y)) :
    ddecLoop root n s.bitbuf.length s = .next (starve (walkedTo s.bitbuf [] s hd)) := by
  have hwalk := ddecLoop_walk (f := 0) s.bitbuf hn (List.append_nil _).symm hd hw
  rw [Nat.add_zero] at hwalk
  rw [hwalk]
  exact ddecLoop_starved hn rfl

/-- Settles O32: the loop walks along all the bits and starves on the `Interior`. -/
theorem ddecKeepsAPartialCode : Obligations.DdecKeepsAPartialCode := by
  intro s root c0 c1 n h hd hp hw
  have hloop := ddecLoop_walk_all (s := beginDecode s) (budgetReached_zero n.toNat) h hw
  rw [exec_ddec n hd, ← foldl_extendPath s.bitbuf hp h.le]
  exact congrArg completeWith hloop

/-- Settles O33: the loop walks along q and stops at the bit that selects `Empty`. -/
theorem ddecEndsAtAMissingChild : Obligations.DdecEndsAtAMissingChild := by
  intro s root n q rest b hd hp hlen hb hw
  have hloop := ddecLoop_incomplete (s := beginDecode s) (f := rest.length) q (budgetReached_zero n.toNat) hb hlen hw
  have hpath : extendPath (q.foldl extendPath s.cpath) b =
      BitVec.ofNat 16 (pathNumber (pathBits s.cpath.toNat s.cdepth.val ++ q ++ [b])) := by
    have h := foldl_extendPath (q ++ [b]) hp (by simp; omega)
    rwa [List.foldl_append, ← List.append_assoc] at h
  have hcount : s.bitbuf.length = q.length + (rest.length + 1) := by simp [hb]
  rw [exec_ddec n hd, hcount, hloop, ← hpath]
  rfl

end Sys2Proof.Machine
end

section
/-! No step stops the machine (R136, R200, R261), and DECODE_ON_LEAF is never among the events (R136): in a state of the
invariant the cursor stands on an `Interior`, and every other command raises other errors. -/

namespace Sys2Proof.Machine

variable {s u t : State}

/-- Settles O59: in a state of the invariant the walk of R134 always has a value to go on with. -/
theorem noStepStopsTheMachine : Obligations.NoStepStopsTheMachine :=
  fun _ hi => ⟨exec_completes hi, step_completes hi⟩

/-- From s to u events are appended to OUT, and none of them is DECODE_ON_LEAF. -/
def NoLeafError (s u : State) : Prop :=
  ∃ evs, u.out = s.out ++ evs ∧ ∀ info, .err .decodeOnLeaf info ∉ evs

theorem noLeafError_quiet (h : u.out = s.out) : NoLeafError s u := ⟨[], by simp [h], by simp⟩

theorem noLeafError_raise {code : ErrCode} {info : Word} (hc : code ≠ .decodeOnLeaf)
    (h : u.out = s.out ++ [.err code info]) : NoLeafError s u :=
  ⟨_, h, by simp [hc.symm]⟩

theorem NoLeafError.trans (h : NoLeafError s u) (h' : NoLeafError u t) : NoLeafError s t := by
  obtain ⟨xs, hx, hxs⟩ := h
  obtain ⟨ys, hy, hys⟩ := h'
  exact ⟨xs ++ ys, by rw [hy, hx, List.append_assoc], by simp [hxs, hys]⟩

/-- HBUILD raises CURSOR_INVALIDATED and the errors of R112. -/
theorem execHbuild_noLeafError {k : Slot} (h : execHbuild k s = .next t) : NoLeafError s t := by
  obtain ⟨v, hv, ho⟩ := execHbuild_cases k s
  have hsv : NoLeafError s v := by
    rcases hv with ⟨rfl, -⟩ | ⟨rfl, -⟩
    · exact noLeafError_quiet rfl
    · exact noLeafError_raise (code := .cursorInvalidated) nofun rfl
  rcases ho with ⟨root, -, e⟩ | ⟨code, info, hc, -, e⟩
  · cases h.symm.trans e
    exact hsv.trans (noLeafError_quiet rfl)
  · cases h.symm.trans e
    refine hsv.trans (noLeafError_raise (code := code) ?_ rfl)
    rintro rfl
    simp at hc

/-- ZRUN raises ZZ_OVERFLOW and ZZ_SHORT. -/
theorem execZrun_noLeafError {q : QSlot} (h : execZrun q s = .next t) : NoLeafError s t := by
  rcases execZrun_cases q s with ⟨-, e⟩ | ⟨-, -, e⟩ | ⟨-, -, e⟩ <;> cases h.symm.trans e
  · exact noLeafError_raise (code := .zzOverflow) nofun rfl
  · exact noLeafError_raise (code := .zzShort) nofun rfl
  · exact noLeafError_quiet rfl

/-- In a state of the invariant no command raises DECODE_ON_LEAF. DDEC alone could. -/
theorem exec_noLeafError {i : Instr} (hi : Inv s) (h : exec i s = .next t) : NoLeafError s t := by
  obtain ⟨u, hu, rfl⟩ := exec_effect h
  cases hu with
  | hbuildStored | hbuildEmptied => exact execHbuild_noLeafError h
  | zrunRefused | zrunPlaced => exact execZrun_noLeafError h
  | hsymDropped => exact noLeafError_raise (code := .symbufOverflow) nofun rfl
  | dbyteDropped => exact noLeafError_raise (code := .bitbufOverflow) nofun rfl
  | zpushDropped => exact noLeafError_raise (code := .zzOverflow) nofun rfl
  | ddecDead => exact noLeafError_raise (code := .passDead) nofun rfl
  | ddecNoTable => exact noLeafError_raise (code := .noTable) nofun rfl
  | @ddecDecoded n _ u root hd hl =>
    obtain ⟨u', hl', -, -, hleaf⟩ :=
      ddecLoop_keeps (hi.trees s.dslot root hd.table) n.toNat (bitcnt s) (hd.cursorOn hi)
    cases hl.symm.trans hl'
    exact hleaf
  | _ => exact noLeafError_quiet rfl

theorem step_noLeafError (hi : Inv s) (h : step s = .next t) : NoLeafError s t := by
  rcases step_cases s with ⟨-, e⟩ | ⟨w, i, -, -, e⟩ | ⟨w, err, -, -, e⟩
  · cases h.symm.trans e
    exact noLeafError_quiet rfl
  · exact exec_noLeafError hi (e.symm.trans h)
  · cases h.symm.trans e
    exact noLeafError_raise (code := .illegalCmd) nofun rfl

theorem run_noLeafError (k : Nat) (hi : Inv s) (h : Host.Core.run core k s = .next t) : NoLeafError s t := by
  induction k generalizing s with
  | zero =>
    cases h
    exact noLeafError_quiet rfl
  | succ k ih =>
    obtain ⟨v, hv⟩ := step_completes hi
    exact (step_noLeafError hi hv).trans (ih (everyStepKeepsTheInvariant s v hi hv) ((run_succ hv).symm.trans h))

/-- After reset every slot is empty, the cursor is at the root, and all buffers and records are empty (R240). -/
theorem inv_resetAt (c : Config) : Inv (State.resetAt c) where
  index := le_rfl
  link := Nat.succ_pos 3
  poisoned := nofun
  trees := fun k root h => by rw [resetAt_tree_getElem] at h; cases h
  unbound := fun _ => rfl
  path := Nat.one_pos
  dead := nofun
  cursor := fun _ hb => absurd (boundTree_some.1 hb).1 nofun
  buffer := Nat.zero_le _
  emitted := Nat.zero_le _
  overloaded := nofun
  noError := fun _ => rfl
  recorded := nofun

/-- Settles O51: a step appends no DECODE_ON_LEAF in a state of the invariant, and a run from reset, where OUT is empty,
stays in such states. -/
theorem decodeOnLeafIsNeverRaised : Obligations.DecodeOnLeafIsNeverRaised := by
  refine ⟨fun s t => step_noLeafError, fun c ws t h => ?_⟩
  obtain ⟨evs, hout, hevs⟩ := run_noLeafError ws.length (inv_deliverAfter (inv_resetAt c) ws) h
  have hout : t.out = evs := hout
  rwa [hout]

end Sys2Proof.Machine
end

section
/-! The commands around the pass (R131 to R133), and a DDEC that decodes nothing (R135, R207). -/

namespace Sys2Proof.Machine

/-- Settles O27: binding the slot that is bound already writes nothing. -/
theorem dselBindsTheCursor : Obligations.DselBindsTheCursor := by
  refine fun s t => ⟨rfl, fun hbound hslot => ?_⟩
  have hsame : { s with dbound := true, dslot := t } = s := by rw [← hbound, ← hslot]
  show complete (restartPass { s with dbound := true, dslot := t }) = complete (restartPass s)
  rw [hsame]

/-- Settles O28: DRST is the restart of the pass, with BITBUF kept or emptied. -/
theorem drstRestartsThePass : Obligations.DrstRestartsThePass := ⟨fun _ => rfl, fun _ => rfl⟩

/-- The bits of a byte, most significant first (R64). -/
theorem byteBits_getElem? (b : Byte) (j : Fin 8) : (byteBits b)[j.val]? = some (b.getLsbD (7 - j.val)) := by
  fin_cases j <;> rfl

/-- Settles O29: the two cases of DBYTE exclude each other. -/
theorem dbyteAppendsOrDrops : Obligations.DbyteAppendsOrDrops := by
  refine ⟨fun s b h => ?_, fun s b h => ?_⟩
  · obtain ⟨-, e⟩ | ⟨hfull, -⟩ := execDbyte_cases b s
    · exact ⟨byteBits b, e, rfl, byteBits_getElem? b⟩
    · omega
  · obtain ⟨hroom, -⟩ | ⟨-, e⟩ := execDbyte_cases b s
    · omega
    · exact e

/-- The bound tree is missing exactly without a binding or with an empty slot (R135). -/
theorem boundTree_eq_none_iff {s : State} : boundTree s = none ↔ s.dbound = false ∨ s.tree[s.dslot] = none := by
  rw [boundTree]
  cases s.dbound <;> simp

/-- Settles O30: DDEC looks at the pass first, and then for the bound tree (R207). -/
theorem ddecRefusesADeadPassOrNoTable : Obligations.DdecRefusesADeadPassOrNoTable := by
  refine ⟨fun s n hdead => ?_, fun s n hlive htable => ?_⟩
  · show execDdec n s = _
    rw [execDdec, if_pos hdead]
    rfl
  · show execDdec n s = _
    rw [execDdec, if_neg (by simp [hlive]), boundTree_eq_none_iff.2 htable]
    rfl

end Sys2Proof.Machine
end

section
/-! The zig-zag reorder (R160 to R167): the table ZZ and the walk behind it, and ZCLR, ZPUSH, ZRUN and ZMAP. -/

namespace Sys2Proof.Machine

/-! ### The table (R160, R161, R167) -/

theorem zz_injective : Function.Injective zz := fun j k h => Fin.ext <|
  (zzTable_nodup.getElem_inj_iff (hi := j.isLt) (hj := k.isLt)).1 h

/-- Settles O37: the walk is run, and no entry of the table occurs twice. -/
theorem zigZagTableIsTheWalk : Obligations.ZigZagTableIsTheWalk :=
  ⟨by decide, by decide, fun _ _ h => zz_injective h⟩

/-- The row of zig-zag index k. -/
def zzRow (k : Fin 64) : Nat := (zz k).val / 8

/-- The anti-diagonal, row + column, of zig-zag index k (R167). -/
def zzDiagonal (k : Fin 64) : Nat := zzRow k + (zz k).val % 8

/-- Diagonal d ≤ 7 has d + 1 positions and begins after those of the diagonals before it. -/
theorem zzDiagonal_upperHalf : ∀ k : Fin 64, zzDiagonal k ≤ 7 →
    zzDiagonal k * (zzDiagonal k + 1) / 2 ≤ k.val ∧ k.val ≤ zzDiagonal k * (zzDiagonal k + 1) / 2 + zzDiagonal k := by
  decide

/-- Diagonal d ≥ 8 has 15 − d positions and ends before those of the diagonals after it. -/
theorem zzDiagonal_lowerHalf : ∀ k : Fin 64, 8 ≤ zzDiagonal k →
    64 - (15 - zzDiagonal k) * (16 - zzDiagonal k) / 2 ≤ k.val ∧
      k.val < 64 - (14 - zzDiagonal k) * (15 - zzDiagonal k) / 2 := by
  decide

/-- Along an even diagonal the row falls by one from each index to the next, and along an odd one it rises by one. -/
theorem zzRow_succ : ∀ k : Fin 63, zzDiagonal k.succ = zzDiagonal k.castSucc →
    if zzDiagonal k.castSucc % 2 = 0 then zzRow k.succ + 1 = zzRow k.castSucc
    else zzRow k.succ = zzRow k.castSucc + 1 := by
  decide

/-- Settles O38: the two halves of the block, and the direction within a diagonal. -/
theorem zigZagDiagonals : Obligations.ZigZagDiagonals := by
  refine fun k => ⟨zzDiagonal_upperHalf k, zzDiagonal_lowerHalf k, fun k' hnext hdiag => ?_⟩
  have hk : k.val < 63 := by omega
  obtain rfl : k' = Fin.succ ⟨k.val, hk⟩ := Fin.ext hnext
  exact zzRow_succ ⟨k.val, hk⟩ hdiag

/-! ### The commands (R162 to R166) -/

/-- Settles O39: ZCLR is the discarding of the flat input. -/
theorem zclrClearsTheFlatInput : Obligations.ZclrClearsTheFlatInput := fun _ => rfl

/-- Settles O40: the two cases of ZPUSH exclude each other, and the dropped value is its own information word. -/
theorem zpushAppendsOrPoisons : Obligations.ZpushAppendsOrPoisons := by
  refine ⟨fun s v h => ?_, fun s v h => ?_⟩
  · obtain ⟨_, e⟩ | ⟨hfull, -⟩ := execZpush_cases v s
    · exact e
    · omega
  · obtain ⟨hroom, -⟩ | ⟨-, e⟩ := execZpush_cases v s
    · omega
    · rw [← infoPush_eq]
      exact e

/-- On a whole input ZRUN stores the placed block (R164). -/
theorem execZrun_whole {s : State} (q : QSlot) (hclean : s.zpoison = false) (hwhole : s.zcnt.val = 64) :
    execZrun q s = .next (advance (clearInput (storeBlock q (placeBlock s.zin s.qblk[q]) s))) := by
  obtain ⟨hpoison, -⟩ | ⟨-, hshort, -⟩ | ⟨-, -, e⟩ := execZrun_cases q s
  · simp [hclean] at hpoison
  · omega
  · exact e

/-- Settles O41: the placed block holds ZIN[k] at ZZ(k); poison is refused before a short input is (R207). -/
theorem zrunPlacesOrRefuses : Obligations.ZrunPlacesOrRefuses := by
  refine ⟨fun s q hclean hwhole => ⟨_, execZrun_whole q hclean hwhole, placeBlock_zz s.zin s.qblk[q]⟩,
    fun s q hrefused => ?_⟩
  obtain ⟨hpoison, e⟩ | ⟨hclean, -, e⟩ | ⟨hclean, hwhole, -⟩ := execZrun_cases q s
  · rw [if_pos hpoison, if_pos hpoison]
    exact e
  · have hno : ¬ s.zpoison = true := by simp [hclean]
    rw [if_neg hno, if_neg hno]
    exact e
  · simp [hclean, hwhole] at hrefused

/-- Settles O42: ZMAP is the writing of ZRES. -/
theorem zmapTranslatesAnIndex : Obligations.ZmapTranslatesAnIndex := fun _ _ => rfl

/-- Settles O43: each k is at ZZ(k), and the named positions are ZZ of 0, 1, 2, 5 and 63. -/
theorem zrunOfTheCountingSequence : Obligations.ZrunOfTheCountingSequence := by
  intro s t q hclean hwhole hcounting h
  cases (execZrun_whole q hclean hwhole).symm.trans h
  have hblock : (s.qblk.set q (placeBlock s.zin s.qblk[q]))[q] = placeBlock s.zin s.qblk[q] :=
    Vector.getElem_set_self q.isLt
  have hplaced (k : Fin 64) : (s.qblk.set q (placeBlock s.zin s.qblk[q]))[q][zz k] = BitVec.ofNat 16 k.val := by
    rw [hblock, placeBlock_zz, hcounting]
  exact ⟨hplaced, hplaced 0, hplaced 1, hplaced 2, hplaced 5, hplaced 63⟩

end Sys2Proof.Machine
end

section
/-! The error record and illegal words (R180, R181): ECLR, and a step over a word that no row matches. -/

namespace Sys2Proof.Machine

/-- A step over a word that does not decode is the execution of an illegal word. -/
theorem step_of_decode_error {s : State} {w : Word} {e : DecodeError} (hw : s.prog[s.ci]? = some w)
    (hd : decode w = .error e) : step s = execIllegal w s := by
  simp [step, currentWord, hw, hd]

/-- Settles O4: the word itself is the information word, and completing the raise advances CI. -/
theorem illegalWordOnlyRaises : Obligations.IllegalWordOnlyRaises :=
  fun _ _ _ hw hd => step_of_decode_error hw hd

/-- Settles O44: ECLR is the clearing of the error record. -/
theorem eclrClearsTheErrorRecord : Obligations.EclrClearsTheErrorRecord := fun _ => rfl

end Sys2Proof.Machine
end

section
/-! The errors a command appends to OUT (R202, R207): none or one of its own, and from HBUILD also two, the first of
them CURSOR_INVALIDATED. -/

namespace Sys2Proof.Machine

/-- The error an event carries, if it is one. -/
def Event.error? : Event → Option (ErrCode × Word)
  | .sym _ _ => none
  | .err code info => some (code, info)

/-- The errors among some events, in order. -/
def errorsOf (evs : List Event) : List (ErrCode × Word) := evs.filterMap Event.error?

theorem mem_errorsOf {evs : List Event} {code : ErrCode} {info : Word} :
    (code, info) ∈ errorsOf evs ↔ .err code info ∈ evs := by
  rw [errorsOf, List.mem_filterMap]
  constructor
  · rintro ⟨_ | ⟨c, i⟩, hm, he⟩ <;> cases he
    exact hm
  · exact fun hm => ⟨_, hm, rfl⟩

theorem length_errorsOf (evs : List Event) : (errorsOf evs).length = errorCount evs := by
  induction evs with
  | nil => rfl
  | cons e evs ih =>
    cases e with
    | sym => exact ih
    | err => exact congrArg (· + 1) ih

theorem head?_errorsOf (evs : List Event) : (errorsOf evs).head? = firstError evs := by
  induction evs with
  | nil => rfl
  | cons e evs ih =>
    cases e with
    | sym => exact ih
    | err => rfl

theorem errorsOf_symbols_append {α : Type} (k : Slot) (f : α → Byte) (xs : List α) (evs : List Event) :
    errorsOf (xs.map (fun x => .sym k (f x)) ++ evs) = errorsOf evs := by
  induction xs with
  | nil => rfl
  | cons x xs ih => exact ih

/-- The errors the command i can raise, in order. -/
inductive OwnErrors : Instr → List (ErrCode × Word) → Prop
  | none (i : Instr) : OwnErrors i []
  | one {i : Instr} {code : ErrCode} (h : mayRaise i code = true) (info : Word) : OwnErrors i [(code, info)]
  | afterInvalidated {t : Slot} {code : ErrCode} (h : mayRaise (.hbuild t) code = true) (cursor info : Word) :
      OwnErrors (.hbuild t) [(.cursorInvalidated, cursor), (code, info)]

theorem OwnErrors.mayRaise {i : Instr} {errs : List (ErrCode × Word)} (h : OwnErrors i errs) {code : ErrCode}
    {info : Word} (hm : (code, info) ∈ errs) : mayRaise i code = true := by
  cases h with
  | none => cases hm
  | one h _ =>
    cases List.mem_singleton.1 hm
    exact h
  | afterInvalidated h _ _ =>
    rcases List.mem_pair.1 hm with hc | hc <;> cases hc
    · rfl
    · exact h

theorem OwnErrors.length_le {i : Instr} {errs : List (ErrCode × Word)} (h : OwnErrors i errs) : errs.length ≤ 2 := by
  cases h <;> simp

theorem OwnErrors.of_length_two {i : Instr} {errs : List (ErrCode × Word)} (h : OwnErrors i errs)
    (h2 : errs.length = 2) :
    (∃ t, i = .hbuild t) ∧ ∃ info, errs.head? = some (.cursorInvalidated, info) := by
  cases h with
  | none | one => cases h2
  | afterInvalidated _ cursor _ => exact ⟨⟨_, rfl⟩, cursor, rfl⟩

/-- From s to u the command i appends events to OUT, and the errors among them are its own. -/
def AppendsOwnErrors (i : Instr) (s u : State) : Prop :=
  ∃ evs, u.out = s.out ++ evs ∧ OwnErrors i (errorsOf evs)

variable {i : Instr} {s t u : State}

theorem appendsOwnErrors_quiet (h : u.out = s.out) : AppendsOwnErrors i s u := ⟨[], by simp [h], .none i⟩

theorem appendsOwnErrors_raise {code : ErrCode} {info : Word} (hc : mayRaise i code = true)
    (h : u.out = s.out ++ [.err code info]) : AppendsOwnErrors i s u :=
  ⟨_, h, .one hc info⟩

/-- HBUILD: the cursor invalidated or not (R112 step 1), and then a tree stored or one error (R112 steps 2 to 4). -/
theorem execHbuild_appendsOwnErrors {k : Slot} (h : execHbuild k s = .next t) :
    AppendsOwnErrors (.hbuild k) s t := by
  obtain ⟨v, hv, ho⟩ := execHbuild_cases k s
  rcases ho with ⟨root, -, e⟩ | ⟨code, info, hc, -, e⟩ <;> cases h.symm.trans e
  · rcases hv with ⟨rfl, -⟩ | ⟨rfl, -⟩
    · exact appendsOwnErrors_quiet rfl
    · exact appendsOwnErrors_raise (code := .cursorInvalidated) rfl rfl
  · have hc : mayRaise (.hbuild k) code = true := by rcases hc with rfl | rfl | rfl <;> rfl
    rcases hv with ⟨rfl, -⟩ | ⟨rfl, -⟩
    · exact appendsOwnErrors_raise hc rfl
    · exact ⟨_, List.append_assoc _ _ _, .afterInvalidated hc _ info⟩

/-- ZRUN: one error on a poisoned or a short input (R164). -/
theorem execZrun_appendsOwnErrors {q : QSlot} (h : execZrun q s = .next t) : AppendsOwnErrors (.zrun q) s t := by
  rcases execZrun_cases q s with ⟨-, e⟩ | ⟨-, -, e⟩ | ⟨-, -, e⟩ <;> cases h.symm.trans e
  · exact appendsOwnErrors_raise (code := .zzOverflow) rfl rfl
  · exact appendsOwnErrors_raise (code := .zzShort) rfl rfl
  · exact appendsOwnErrors_quiet rfl

/-- The loop of a DDEC appends symbols, and an error only where it ends the pass (R134, R135). -/
theorem LoopEffect.appendsOwnErrors {root : Node} {n : Nat} (h : LoopEffect root n s u) (m : Byte) :
    AppendsOwnErrors (.ddec m) s u := by
  obtain ⟨_, codes, _, errs, -, -, -, -, ho, -, -, -, hr⟩ := h.consumed
  refine ⟨codes.map (fun c => .sym s.dslot c.2) ++ errs, by rw [ho, List.append_assoc], ?_⟩
  rw [errorsOf_symbols_append]
  rcases hr with ⟨rfl, -⟩ | ⟨code, info, rfl, hc, -⟩
  · exact .none _
  · refine .one ?_ info
    rcases hc with ⟨rfl, -⟩ | rfl <;> rfl

theorem exec_appendsOwnErrors (h : exec i s = .next t) : AppendsOwnErrors i s t := by
  obtain ⟨u, hu, rfl⟩ := exec_effect h
  cases hu with
  | hbuildStored | hbuildEmptied => exact execHbuild_appendsOwnErrors h
  | zrunRefused | zrunPlaced => exact execZrun_appendsOwnErrors h
  | hsymDropped | dbyteDropped | ddecDead | ddecNoTable | zpushDropped => exact appendsOwnErrors_raise rfl rfl
  | @ddecDecoded n _ v root hd hl => exact (ddec_loopEffect hl).appendsOwnErrors n
  | _ => exact appendsOwnErrors_quiet rfl

/-- Settles O47: the count and the first of the errors a command appends are read off the list of them, which is the
command's own. -/
theorem commandsRaiseTheirOwnErrors : Obligations.CommandsRaiseTheirOwnErrors := by
  intro i s t h
  obtain ⟨evs, hout, how⟩ := exec_appendsOwnErrors h
  refine ⟨evs, hout, fun code info hm => how.mayRaise (mem_errorsOf.2 hm), ?_, fun h2 => ?_⟩
  · rw [← length_errorsOf]
    exact how.length_le
  · rw [← head?_errorsOf]
    exact how.of_length_two ((length_errorsOf evs).trans h2)

end Sys2Proof.Machine
end

section
/-! The error codes and their information words (R202, R203), and what raising an error records (R205). -/

namespace Sys2Proof.Machine

open BitVec

/-! ### Recording an error (R205) -/

theorem raise_clear {s : State} (h : s.err = none) (code : ErrCode) (info : Word) :
    raise code info s = { s with out := s.out ++ [.err code info], err := some code, errinfo := info } := by
  simp [raise, h]

theorem raise_recorded {s : State} (h : s.err ≠ none) (code : ErrCode) (info : Word) :
    raise code info s = { s with out := s.out ++ [.err code info] } := by
  simp [raise, h]

/-- Settles O45: the record was clear, or it held an error. -/
theorem raiseRecordsTheFirstError : Obligations.RaiseRecordsTheFirstError :=
  fun _ code info => ⟨fun h => raise_clear h code info, fun h => raise_recorded h code info⟩

/-! ### Numbers and classes (R201, R202) -/

/-- The rows of R202's table, in order. -/
def allErrCodes : List ErrCode :=
  [.totalGt256, .symCountMismatch, .symbufOverflow, .zzShort, .zzOverflow, .noSlot, .incompleteTree, .decodeOnLeaf,
    .noTable, .passDead, .cursorInvalidated, .illegalCmd, .bitbufOverflow]

theorem mem_allErrCodes (c : ErrCode) : c ∈ allErrCodes := by
  cases c <;> decide

theorem nodup_errNumbers : (allErrCodes.map ErrCode.toByte).Nodup := by decide

theorem errNumbers_classed : ∀ c ∈ allErrCodes,
    c.toByte ≠ 0#8 ∧ c.toByte.extractLsb' 4 4 ∈ [1#4, 2#4, 3#4, 4#4] := by decide

/-- Settles O48: every code is a row of the table, and the thirteen rows are compared. -/
theorem errorNumbersAndClasses : Obligations.ErrorNumbersAndClasses :=
  ⟨rfl, fun c d => List.inj_on_of_nodup_map nodup_errNumbers (mem_allErrCodes c) (mem_allErrCodes d),
    fun c => errNumbers_classed c (mem_allErrCodes c)⟩

/-! ### Information words (R203)

A word is its fields side by side: each field is read off its own part, and its number fits the part's width. -/

/-- TOTAL_GT_256. -/
theorem infoTotal_fields (t : Slot) (p : Bool) {n : Nat} (hn : n ≤ 4080) :
    ((infoTotal t p n).extractLsb' 24 8).toNat = t.val ∧
    (infoTotal t p n).getLsbD 12 = p ∧
    ((infoTotal t p n).extractLsb' 0 12).toNat = n ∧
    (infoTotal t p n).extractLsb' 13 11 = 0#11 := by
  simp (disch := omega) only [infoTotal, extractLsb'_append_eq_of_add_le, extractLsb'_append_eq_of_le, getLsbD_append]
  simp (disch := omega) [Nat.mod_eq_of_lt]

/-- SYM_COUNT_MISMATCH. -/
theorem infoMismatch_fields (t : Slot) {n : Nat} (hn : n ≤ 4080) (m : Fin 257) :
    ((infoMismatch t n m).extractLsb' 24 8).toNat = t.val ∧
    ((infoMismatch t n m).extractLsb' 12 12).toNat = n ∧
    ((infoMismatch t n m).extractLsb' 0 9).toNat = m.val ∧
    (infoMismatch t n m).extractLsb' 9 3 = 0#3 := by
  simp (disch := omega) only [infoMismatch, extractLsb'_append_eq_of_add_le, extractLsb'_append_eq_of_le]
  simp (disch := omega) [Nat.mod_eq_of_lt]

/-- ZZ_SHORT. -/
theorem infoShort_fields (q : QSlot) (n : Fin 65) :
    ((infoShort q n).extractLsb' 24 8).toNat = q.val ∧
    ((infoShort q n).extractLsb' 0 7).toNat = n.val ∧
    (infoShort q n).extractLsb' 7 17 = 0#17 := by
  simp (disch := omega) only [infoShort, extractLsb'_append_eq_of_add_le, extractLsb'_append_eq_of_le]
  simp (disch := omega) [Nat.mod_eq_of_lt]

/-- ZZ_OVERFLOW from ZRUN. -/
theorem infoRun_fields (q : QSlot) :
    ((infoRun q).extractLsb' 24 8).toNat = q.val ∧
    (infoRun q).getLsbD 16 = true ∧
    (infoRun q).extractLsb' 17 7 = 0#7 ∧
    (infoRun q).extractLsb' 0 16 = 0#16 := by
  simp (disch := omega) only [infoRun, extractLsb'_append_eq_of_add_le, extractLsb'_append_eq_of_le, getLsbD_append]
  simp (disch := omega) [Nat.mod_eq_of_lt]

/-- NO_SLOT. -/
theorem infoNoSlot_fields (t : Slot) {L k : Nat} (v : Byte) (hL : L ≤ 16) (hk : k < 256) :
    ((infoNoSlot t L k v).extractLsb' 24 8).toNat = t.val ∧
    ((infoNoSlot t L k v).extractLsb' 16 4).toNat = L - 1 ∧
    ((infoNoSlot t L k v).extractLsb' 8 8).toNat = k ∧
    (infoNoSlot t L k v).extractLsb' 0 8 = v ∧
    (infoNoSlot t L k v).extractLsb' 20 4 = 0#4 := by
  simp (disch := omega) only [infoNoSlot, extractLsb'_append_eq_of_add_le, extractLsb'_append_eq_of_le]
  simp (disch := omega) [Nat.mod_eq_of_lt]

/-- INCOMPLETE_TREE. -/
theorem infoIncomplete_fields (t : Slot) {d : Nat} (p : BitVec 16) (hd : d ≤ 16) :
    ((infoIncomplete t d p).extractLsb' 24 8).toNat = t.val ∧
    ((infoIncomplete t d p).extractLsb' 16 5).toNat = d ∧
    (infoIncomplete t d p).extractLsb' 0 16 = p ∧
    (infoIncomplete t d p).extractLsb' 21 3 = 0#3 := by
  simp (disch := omega) only [infoIncomplete, extractLsb'_append_eq_of_add_le, extractLsb'_append_eq_of_le]
  simp (disch := omega) [Nat.mod_eq_of_lt]

/-- DECODE_ON_LEAF and CURSOR_INVALIDATED. -/
theorem infoCursor_fields (t : Slot) (d : Fin 16) (p : BitVec 16) :
    ((infoCursor t d p).extractLsb' 24 8).toNat = t.val ∧
    ((infoCursor t d p).extractLsb' 16 4).toNat = d.val ∧
    (infoCursor t d p).extractLsb' 0 16 = p ∧
    (infoCursor t d p).extractLsb' 20 4 = 0#4 := by
  simp (disch := omega) only [infoCursor, extractLsb'_append_eq_of_add_le, extractLsb'_append_eq_of_le]
  simp (disch := omega) [Nat.mod_eq_of_lt]

/-- NO_TABLE. -/
theorem infoNoTable_fields (t : Slot) (b : Bool) :
    ((infoNoTable t b).extractLsb' 24 8).toNat = t.val ∧
    (infoNoTable t b).getLsbD 0 = b ∧
    (infoNoTable t b).extractLsb' 1 23 = 0#23 := by
  simp (disch := omega) only [infoNoTable, extractLsb'_append_eq_of_add_le, extractLsb'_append_eq_of_le, getLsbD_append]
  simp (disch := omega) [Nat.mod_eq_of_lt]

/-- PASS_DEAD. -/
theorem infoDead_fields (t : Slot) :
    ((infoDead t).extractLsb' 24 8).toNat = t.val ∧
    (infoDead t).extractLsb' 0 24 = 0#24 := by
  simp (disch := omega) only [infoDead, extractLsb'_append_eq_of_add_le, extractLsb'_append_eq_of_le]
  simp (disch := omega) [Nat.mod_eq_of_lt]

/-- BITBUF_OVERFLOW. -/
theorem infoBitbuf_fields {n : Nat} (b : Byte) (hn : n ≤ 65528) :
    (infoBitbuf n b).extractLsb' 24 8 = 0#8 ∧
    ((infoBitbuf n b).extractLsb' 8 16).toNat = n ∧
    (infoBitbuf n b).extractLsb' 0 8 = b := by
  simp (disch := omega) only [infoBitbuf, extractLsb'_append_eq_of_add_le, extractLsb'_append_eq_of_le]
  simp (disch := omega) [Nat.mod_eq_of_lt]

/-- Settles O49: each row's word, and the rows whose information is one zero-extended operand or the word itself. -/
theorem informationWordFields : Obligations.InformationWordFields :=
  ⟨fun t p _ hn => infoTotal_fields t p hn, fun t _ m hn => infoMismatch_fields t hn m, infoSymbuf_eq, infoShort_fields,
    infoPush_eq, infoRun_fields, fun t _ _ v _ hL hk => infoNoSlot_fields t v hL hk,
    fun t _ p hd => infoIncomplete_fields t p hd, infoCursor_fields, infoNoTable_fields, infoDead_fields, fun _ => rfl,
    fun _ b hn => infoBitbuf_fields b hn⟩

end Sys2Proof.Machine
end

section
/-! Reset and hazards (R240, R243, R250, R254): the invariant after reset, the first commands, a rebuild of the bound
slot mid-code, and the discarding of staged inputs. -/

namespace Sys2Proof.Machine

/-- Settles O57: the reset input leaves a state that differs from `State.resetAt` in the draw counter alone, which the
invariant does not speak of. -/
theorem resetMeetsTheInvariant : Obligations.ResetMeetsTheInvariant :=
  ⟨inv_resetAt _, inv_resetAt, fun s => { inv_resetAt s.cfg with }⟩

/-! ### The first commands after reset (R243) -/

section Reset

variable (c : Config)

@[simp] theorem sumcnt_resetAt : sumcnt (State.resetAt c) = 0 := rfl

/-- The staged table is empty: its counts sum to its number of symbols. -/
theorem staged_resetAt : Staged (State.resetAt c) where
  clean := rfl
  total := by simp
  count := (sumcnt_resetAt c).symm

/-- With no symbol to place, the construction answers the root it starts from (R111). -/
theorem build_resetAt : build (State.resetAt c) = .tree freshInterior := by
  have htable : codeTable (State.resetAt c) = [] := List.zip_nil_right
  rw [build, htable, buildFrom]

theorem exec_hbuild_resetAt (t : Slot) :
    exec (.hbuild t) (State.resetAt c) =
      .next (advance (clearStaging (storeTree t (some freshInterior) (State.resetAt c)))) :=
  exec_hbuild_ok (fun h => absurd h.bound nofun) (by rw [buildOutcome_staged t (staged_resetAt c), build_resetAt])

/-- An empty block slot is as it was after being invalidated. -/
theorem invalidateBlock_resetAt (q : QSlot) : invalidateBlock q (State.resetAt c) = State.resetAt c := by
  have hempty : (State.resetAt c).qvalid.set q false = (State.resetAt c).qvalid := Vector.set_replicate_self
  rw [invalidateBlock, hempty]

theorem exec_zrun_resetAt (q : QSlot) :
    exec (.zrun q) (State.resetAt c) = .next (advance (raise .zzShort (infoShort q 0) (State.resetAt c))) :=
  calc exec (.zrun q) (State.resetAt c)
    _ = .next (advance (raise .zzShort (infoShort q 0) (clearInput (invalidateBlock q (State.resetAt c))))) := rfl
    _ = .next (advance (raise .zzShort (infoShort q 0) (State.resetAt c))) := by
      rw [invalidateBlock_resetAt]
      rfl

end Reset

/-- Unbound to slot 0, NO_TABLE has the information word 0 (R203). -/
theorem infoNoTable_zero : infoNoTable 0 false = 0#32 := by decide

/-- With ZCNT = 0 the information word of ZZ_SHORT holds the block slot alone (R203). -/
theorem infoShort_zero : ∀ q : QSlot, infoShort q 0 = BitVec.ofNat 8 q.val ++ 0#24 := by decide

/-- Settles O2: no table is bound, no value is loaded and no symbol is staged; what the three commands clear is clear
already. -/
theorem firstCommandsAfterReset : Obligations.FirstCommandsAfterReset := by
  refine fun c => ⟨exec_completes (inv_resetAt c), fun n => ?_, fun q => ?_, exec_hbuild_resetAt c⟩
  · rw [← infoNoTable_zero]
    exact ddecRefusesADeadPassOrNoTable.2 (State.resetAt c) n rfl (.inl rfl)
  · rw [← infoShort_zero]
    exact exec_zrun_resetAt c q

/-! ### HBUILD mid-code (R250) and the staged inputs (R254) -/

/-- Settles O18: with the cursor invalidated no code is held any more, so the second HBUILD finds no hazard and builds
from the state the first one builds from. -/
theorem hbuildInvalidatesACursorMidCode : Obligations.HbuildInvalidatesACursorMidCode := by
  intro s t hm
  show execHbuild t s = execHbuild t (cursorInvalidated t s)
  rw [execHbuild_eq, execHbuild_eq, invalidateCursor_midCode hm,
    invalidateCursor_idle (not_midCode_cursorInvalidated t t s)]

/-- Settles O23: the discarding is the last thing either command does, on every way it can go. -/
theorem stagedInputsAreConsumed : Obligations.StagedInputsAreConsumed := by
  refine ⟨fun s t => ?_, fun s q => ?_⟩
  · obtain ⟨v, hv, ho⟩ := execHbuild_cases t s
    have hsymbuf : v.symbuf = s.symbuf := by
      rcases hv with ⟨rfl, -⟩ | ⟨rfl, -⟩ <;> rfl
    rcases ho with ⟨root, -, e⟩ | ⟨code, info, -, -, e⟩ <;> exact ⟨_, e, rfl, rfl, rfl, hsymbuf⟩
  · rcases execZrun_cases q s with ⟨-, e⟩ | ⟨-, -, e⟩ | ⟨-, -, e⟩ <;> exact ⟨_, e, rfl, rfl, rfl⟩

end Sys2Proof.Machine
end
